-- ==== Sys2Proof/Word.lean ====
section
/-! DEFINITION. Word.lean: the word types of AGM-D17. Bit 0 is the least significant bit of each (R10). -/

namespace Sys2Proof

/-- One byte of the byte-addressed view of a plane memory (R65). -/
abbrev Byte := BitVec 8

/-- A 32-bit register, command word, cell value, or the pattern of a binary32 value (R10, R22, R90). -/
abbrev Word := BitVec 32

/-- The 64-bit accumulator `SUM`, or the pattern of a binary64 value (R45, R152). -/
abbrev Dword := BitVec 64

end Sys2Proof
end

