-- ==== Sys2Proof/Config.lean ====
section
/-! DEFINITION. Config.lean: what an implementation fixes and the spec leaves open. Every constant here is opaque:
nothing in Lean can evaluate it, so a claim that holds holds whatever its value is. The parameters
that are plain data stand in Machine/Params.lean. -/

namespace Sys2Proof.Config

/-- The implementation's power unit where laws P1 to P4 of R137 do not fix the result: base, exponent, result.
Machine/Curve.lean's `POW` adds the laws (P5 by folding the result into the admissible patterns). -/
opaque pow : Word → Word → Word

/-- `LANES`, the number of samples the datapath handles in parallel (R9); its only effect is on an implementation's own
float summation. -/
opaque lanes : Nat

/-- `AVG_ULP_TOL`: by how many binary32 units in the last place another summation may move the float average (R7, R154).
The spec gives it no value. -/
opaque avgUlpTol : Nat

/-- The float sum of an implementation that has one of its own: from `LANES` and the samples in row-major order to the
binary64 accumulator (R7, R152). Machine/Curve.lean's `FSUM` holds it to the tolerance. -/
opaque fsum : Nat → List Word → Dword

/-- Draw number `k`: an unspecified word (V1, V3, V12). -/
opaque freeWord : Nat → Word

/-- Draw number `k` of a whole region: the unspecified value of the cell at a sample address (V2, R206, R230). -/
opaque freeCell : Nat → Nat → Word

/-- What an entry of the curve table that holds no value would give (R44). No command of a machine in an invariant
state reads one. -/
opaque freeTableEntry : Nat → Word

end Sys2Proof.Config
end

