-- ==== Sys2Proof/Machine/HostOp.lean ====
section
/-! DEFINITION. Machine/HostOp.lean: what the outside world can do to the block, one constructor per kind of event
(R13, R94, R230, R60). The pending events stand in State as a list that `step` consumes from the head, in the order
the host issued them (R72 (1)). -/

namespace Sys2Proof.Machine

/-- The width of a host access to the register port. Only `word` is defined (R66). -/
inductive PortWidth where
  | byte
  | half
  | word
deriving DecidableEq, Repr

/-- The two plane memories, reached by the host through the platform (R60). -/
inductive PlaneId where
  | src
  | dst
deriving DecidableEq, Repr

/-- One event at the block's boundary. -/
inductive HostOp where
  /-- `WR off, v` (R94). A write to `CMD` runs the whole command as one atomic step (R239). -/
  | write (width : PortWidth) (off : Nat) (v : Word)
  /-- `RD off` (R94): the value read arrives in `State.rdata`. -/
  | read (width : PortWidth) (off : Nat)
  /-- A write of `word` to `CMD` whose busy interval the host can see: the command is accepted and left running. -/
  | issue (word : Word)
  /-- The sequencer of a running command moves on by one position (R46). -/
  | tick
  /-- `WAIT` (R96): the host polls until `BUSY` reads 0. -/
  | wait
  /-- The hardware reset input `rst` is asserted (R230). -/
  | rst
  /-- The host writes one byte of a plane memory, in the byte view of R65. -/
  | poke (p : PlaneId) (a : Nat) (b : Byte)
  /-- The host reads one byte of a plane memory into `State.rdata`. -/
  | peek (p : PlaneId) (a : Nat)
deriving DecidableEq, Repr

end Sys2Proof.Machine
end

