-- ==== Sys2Proof/Machine/Params.lean ====
section
/-! DEFINITION. Machine/Params.lean: the parameters of the step relation that are plain data (R7, R20): the fade
constants of 10, 12 and 14 bits and the choice of the float summation. The parameters that are functions, or that the
spec gives no value, are the opaque constants of Config.lean. -/

namespace Sys2Proof.Machine

/-- The six fade constants of one bit depth (R42); its `peak` is fixed by the depth and is no parameter. -/
structure FadeSet where
  ymin : BitVec 16
  y1   : BitVec 16
  y2   : BitVec 16
  ymax : BitVec 16
  d0   : BitVec 16
  d1   : BitVec 16
deriving DecidableEq, Repr

/-- Which float summation the implementation has (R7, R152, R154): the default left-to-right sum, or one of its own
within `AVG_ULP_TOL` of it. -/
inductive Summation where
  | leftToRight
  | implementation
deriving DecidableEq, Repr

/-- The parameters of an implementation: `FD10`, `FD12`, `FD14` and the choice of `FSUM` (R7). -/
structure Params where
  fd10 : FadeSet
  fd12 : FadeSet
  fd14 : FadeSet
  fsum : Summation
deriving DecidableEq, Repr

/-- The values the spec decides for the three rows that the source does not print (R42, D14), and the default `FSUM`
(R152). -/
def Params.decided : Params where
  fd10 := ⟨64#16, 68#16, 72#16, 940#16, 340#16, 680#16⟩
  fd12 := ⟨256#16, 272#16, 288#16, 3760#16, 1360#16, 2720#16⟩
  fd14 := ⟨1024#16, 1088#16, 1152#16, 15040#16, 5440#16, 10880#16⟩
  fsum := .leftToRight

end Sys2Proof.Machine
end

