-- ==== Sys2Proof/Machine/State.lean ====
section
/-! DEFINITION. Machine/State.lean: the state of one AGM-D17 block (R20), the two plane memories it reaches (R60),
and the events that wait at its boundary. Everything is plain data. -/

namespace Sys2Proof.Machine

/-- `STATUS`, the block's only flags (R24). -/
structure Status where
  busy       : Bool
  done       : Bool
  ready      : Bool
  tblValid   : Bool
  avgValid   : Bool
  expValid   : Bool
  frameValid : Bool
  error      : Bool
deriving DecidableEq, Repr

/-- `IRQ_EN` (R40). -/
structure IrqEn where
  ieDone : Bool
  ieErr  : Bool
deriving DecidableEq, Repr

/-- `FORMAT` (R26): the three fields; the reserved bits have no storage and read 0. -/
structure Format where
  bits   : BitVec 6
  flt    : Bool
  family : BitVec 2
deriving DecidableEq, Repr

/-- The request registers that the next `INIT` latches: `FORMAT`, `MODE.FADE`, `LUMA_SCALING` (R26 to R28). -/
structure Request where
  format : Format
  fade   : Bool
  ls     : Word
deriving DecidableEq, Repr

/-- The six geometry registers (R29 to R34); the reserved bits of `WIDTH` and `HEIGHT` have no storage. -/
structure Geometry where
  width     : BitVec 16
  height    : BitVec 16
  srcBase   : Word
  srcStride : Word
  dstBase   : Word
  dstStride : Word
deriving DecidableEq, Repr

/-- The active configuration `A_BITS, A_FLT, A_FADE, A_LS` (R41). -/
structure ActiveConfig where
  bits : BitVec 6
  flt  : Bool
  fade : Bool
  ls   : Word
deriving DecidableEq, Repr

/-- The active descriptor, seven constants each zero-extended when read (R43). -/
structure Descriptor where
  peak : BitVec 16
  ymin : BitVec 16
  y1   : BitVec 16
  y2   : BitVec 16
  ymax : BitVec 16
  d0   : BitVec 16
  d1   : BitVec 16
deriving DecidableEq, Repr

/-- The phases of the hidden sequencer (R46). -/
inductive Phase where
  | idle
  | build
  | copy
  | sum
  | expo
  | remap
  | probe
deriving DecidableEq, Repr

/-- The hidden sequencer (R46): the phase, the position `(row, col)` of the next sample or the index of the next
table entry, and the command word in execution, if one is. -/
structure Sequencer where
  phase : Phase
  row   : Nat
  col   : Nat
  index : Nat
  word  : Option Word
deriving DecidableEq, Repr

/-- The sequencer between commands: the phase is `IDLE` (R49) and no command word is in execution (R110). R46 gives a
position and an index only inside a phase, so the zeros of `row`, `col` and `index` here are the model's choice (DESIGN
CHOICE, log entry 10). -/
def Sequencer.idle : Sequencer := ⟨.idle, 0, 0, 0, none⟩

/-- A memory of bytes in canonical form: addresses strictly rising, no entry equal to what an unlisted address
reads as. -/
abbrev Memory := List Host.Cell

/-- A plane memory of the platform (R60, R68): its bytes in the byte view of R65, and the byte ranges
`(first, length)` that the platform does not back. -/
structure Plane where
  bytes    : Memory
  unbacked : List (Nat × Nat)
deriving DecidableEq, Repr

/-- The whole machine. -/
structure State where
  status : Status
  /-- `ERR.CODE` (R25). -/
  err    : BitVec 8
  irqEn  : IrqEn
  req    : Request
  geom   : Geometry
  /-- `ARG` (R35). -/
  arg    : Word
  /-- `RESULT` (R36). -/
  result : Word
  act    : ActiveConfig
  desc   : Descriptor
  /-- The entries of the curve table RAM `T` that hold a value, from index 0 on (R44). -/
  table  : List Word
  /-- The datapath register `SUM` (R45). -/
  sum    : Dword
  /-- The datapath register `AVG` (R45). -/
  avg    : Word
  /-- The datapath register `EXP` (R45). -/
  exp    : Word
  seq    : Sequencer
  /-- The source plane memory `S`. -/
  src    : Plane
  /-- The destination plane memory `D`. -/
  dst    : Plane
  /-- MODEL: the events the outside world has issued and the block has not met yet, oldest first. -/
  inbox  : List HostOp
  /-- MODEL: the value the last host read returned. -/
  rdata  : Word
  /-- MODEL: the implementation's parameters (R7, R20). They are constants: no event and no reset changes them (R231). -/
  params : Params
  /-- MODEL: how many unspecified values have been drawn; no statement rests on its value. -/
  draws  : Nat
deriving DecidableEq, Repr

/-- Why a run stops with a fault. -/
inductive Fault where
  /-- Raised by `AVG`, `COPY`, `REMAP`, `XFORM` on a source cell the platform does not back, and by a host access to
  an unbacked byte of `S`: stuck (R68, V8). Safe. -/
  | unbackedSource
  /-- Raised by `COPY`, `REMAP`, `XFORM` on a destination cell the platform does not back, and by a host access to an
  unbacked byte of `D`: stuck (R68, V8). Safe. -/
  | unbackedDestination
  /-- Raised by a host access to a plane byte outside the address space (R60). Safe. -/
  | outsidePlane
deriving DecidableEq, Repr

/-- Why a step is refused. -/
inductive Refusal where
  /-- Raised by an arm of `exec` that has no meaning yet (none is left). Safe. -/
  | notModelled (mnemonic : String)
  /-- Raised by a byte, halfword or misaligned access to the register port (R66, V4). Safe. -/
  | portAccess
  /-- Raised by an access at an offset the 256-byte port does not have (R22). Safe. -/
  | outsidePort
  /-- Raised by a host write to a RW register while `BUSY = 1` (R233, V5). Safe. -/
  | busyRegisterWrite
  /-- Raised by a host that writes the source region, or reads or writes the destination region, of a command in
  execution (R234, R236, V6). Safe. -/
  | busyPlaneAccess
deriving DecidableEq, Repr

/-- `STATUS` after reset (R49). -/
def Status.reset : Status := ⟨false, false, false, false, false, false, false, false⟩

/-- The request registers after reset: an illegal format, fade on, `luma_scaling` 10.0 (R49). -/
def Request.reset : Request := ⟨⟨0#6, false, 0#2⟩, true, 0x41200000#32⟩

/-- The geometry registers after reset (R49). -/
def Geometry.reset : Geometry := ⟨0#16, 0#16, 0#32, 0#32, 0#32, 0#32⟩

/-- The active configuration while no filter is constructed (R41, R49). -/
def ActiveConfig.none : ActiveConfig := ⟨0#6, false, false, 0#32⟩

/-- The active descriptor while there is none (R43, R49). -/
def Descriptor.none : Descriptor := ⟨0#16, 0#16, 0#16, 0#16, 0#16, 0#16, 0#16⟩

/-- A plane memory with nothing listed and every address backed. -/
def Plane.empty : Plane := ⟨[], []⟩

/-- The machine right after reset (R49, R230). -/
def State.reset : State where
  status := Status.reset
  err    := 0#8
  irqEn  := ⟨false, false⟩
  req    := Request.reset
  geom   := Geometry.reset
  arg    := 0#32
  result := 0#32
  act    := ActiveConfig.none
  desc   := Descriptor.none
  table  := []
  sum    := 0#64
  avg    := 0#32
  exp    := 0#32
  seq    := Sequencer.idle
  src    := Plane.empty
  dst    := Plane.empty
  inbox  := []
  rdata  := 0#32
  params := Params.decided
  draws  := 0

end Sys2Proof.Machine
end

