-- ==== Sys2Proof/Machine/Flags.lean ====
section
/-! DEFINITION. Machine/Flags.lean: every computation on `STATUS`, one per set or clear condition of R24, and the
interrupt output (R208). -/

namespace Sys2Proof.Machine

/-- `STATUS` as the host reads it, bit 7 `ERROR` down to bit 0 `BUSY`; bits 31:8 read 0 (R24). -/
def statusWord (t : Status) : Word :=
  0#24 ++ BitVec.ofBool t.error ++ BitVec.ofBool t.frameValid ++ BitVec.ofBool t.expValid ++
    BitVec.ofBool t.avgValid ++ BitVec.ofBool t.tblValid ++ BitVec.ofBool t.ready ++ BitVec.ofBool t.done ++
    BitVec.ofBool t.busy

/-- Accepting a command: `BUSY <- 1 ; DONE <- 0` (R110). -/
def flagsAccept (t : Status) : Status := { t with busy := true, done := false }

/-- `Complete()`: `BUSY <- 0 ; DONE <- 1` (R110). -/
def flagsComplete (t : Status) : Status := { t with busy := false, done := true }

/-- `STATUS.ERROR <- 1` (R205). -/
def flagsError (t : Status) : Status := { t with error := true }

/-- `STATUS.ERROR <- 0` (R113). -/
def flagsClearError (t : Status) : Status := { t with error := false }

/-- The flags every `INIT` clears first (R112). -/
def flagsUnconstruct (t : Status) : Status :=
  { t with ready := false, tblValid := false, avgValid := false, expValid := false, frameValid := false }

/-- The flags a successful `INIT` sets; `TBL_VALID` for an integer format only (R112). -/
def flagsConstructed (integer : Bool) (t : Status) : Status := { t with ready := true, tblValid := integer }

/-- The flags `AVG` clears past its readiness test (R156). -/
def flagsAvgStart (t : Status) : Status := { t with avgValid := false, expValid := false }

/-- The flag a successful average sets (R156). -/
def flagsAvgDone (t : Status) : Status := { t with avgValid := true }

/-- The flag `EXPO` clears past its readiness test (R158). -/
def flagsExpStart (t : Status) : Status := { t with expValid := false }

/-- The flag a successful exponent sets (R158). -/
def flagsExpDone (t : Status) : Status := { t with expValid := true }

/-- The flag `COPY` and `REMAP` clear past their readiness test (R175, R176). -/
def flagsPlaneStart (t : Status) : Status := { t with frameValid := false }

/-- The flags `XFORM` clears past its readiness test (R177). -/
def flagsXformStart (t : Status) : Status := { t with avgValid := false, expValid := false, frameValid := false }

/-- The flag a successful `XFORM` sets (R177). -/
def flagsFrameDone (t : Status) : Status := { t with frameValid := true }

/-- The interrupt output, level-sensitive (R208). -/
def irq (s : State) : Bool := (s.irqEn.ieDone && s.status.done) || (s.irqEn.ieErr && s.status.error)

end Sys2Proof.Machine
end

