-- ==== Sys2Proof/Machine/Registers.lean ====
section
/-! DEFINITION. Machine/Registers.lean: the register map (R22), what a read of each register returns (R23 to R43) and
what a write to each register stores. -/

namespace Sys2Proof.Machine

/-- The registers of the port, in the order of the map (R22). -/
inductive Reg where
  | id | cmd | status | err | irqEn | format | mode | lumaScaling | width | height
  | srcBase | srcStride | dstBase | dstStride | arg | result
  | avg | exponent | sumLo | sumHi | actFormat | actLs
  | fdPeak | fdYmin | fdY1 | fdY2 | fdYmax | fdD0 | fdD1
deriving DecidableEq, Repr

/-- The registers in address order: register number `k` stands at byte offset `4 * k` (R22). -/
def regMap : List Reg :=
  [.id, .cmd, .status, .err, .irqEn, .format, .mode, .lumaScaling, .width, .height,
   .srcBase, .srcStride, .dstBase, .dstStride, .arg, .result,
   .avg, .exponent, .sumLo, .sumHi, .actFormat, .actLs,
   .fdPeak, .fdYmin, .fdY1, .fdY2, .fdYmax, .fdD0, .fdD1]

/-- The register at an aligned byte offset; none at a reserved offset (R22). -/
def regAt (off : Nat) : Option Reg := regMap[off / 4]?

/-- Access kinds (R22). -/
inductive Access where
  | rw
  | ro
  | wo
deriving DecidableEq, Repr

/-- The access kind of each register (R22). -/
def accessOf : Reg → Access
  | .cmd => .wo
  | .irqEn | .format | .mode | .lumaScaling | .width | .height | .srcBase | .srcStride | .dstBase | .dstStride
  | .arg => .rw
  | .id | .status | .err | .result | .avg | .exponent | .sumLo | .sumHi | .actFormat | .actLs | .fdPeak | .fdYmin
  | .fdY1 | .fdY2 | .fdYmax | .fdD0 | .fdD1 => .ro

/-- The reset column of the map; `CMD` has none and reads 0 (R22). -/
def resetValue : Reg → Word
  | .id => 0x41474D11#32
  | .mode => 0x00000001#32
  | .lumaScaling => 0x41200000#32
  | .cmd | .status | .err | .irqEn | .format | .width | .height | .srcBase | .srcStride | .dstBase | .dstStride
  | .arg | .result | .avg | .exponent | .sumLo | .sumHi | .actFormat | .actLs | .fdPeak | .fdYmin | .fdY1 | .fdY2
  | .fdYmax | .fdD0 | .fdD1 => 0#32

/-- `ID` (R23). -/
def idWord : Word := 0x41474D11#32

/-- `IRQ_EN` as read (R40). -/
def irqEnWord (e : IrqEn) : Word := 0#30 ++ BitVec.ofBool e.ieErr ++ BitVec.ofBool e.ieDone

/-- `IRQ_EN` as written (R40). -/
def irqEnOfWord (v : Word) : IrqEn := ⟨v.getLsbD 0, v.getLsbD 1⟩

/-- `FORMAT` as read (R26). -/
def formatWord (f : Format) : Word :=
  0#22 ++ f.family ++ 0#1 ++ BitVec.ofBool f.flt ++ f.bits

/-- `FORMAT` as written: the reserved bits are dropped (R26). -/
def formatOfWord (v : Word) : Format := ⟨v.extractLsb' 0 6, v.getLsbD 6, v.extractLsb' 8 2⟩

/-- `MODE` as read (R27). -/
def modeWord (fade : Bool) : Word := 0#31 ++ BitVec.ofBool fade

/-- `ACT_FORMAT` as read (R41). -/
def actFormatWord (a : ActiveConfig) : Word :=
  0#15 ++ BitVec.ofBool a.fade ++ 0#9 ++ BitVec.ofBool a.flt ++ a.bits

/-- `STATUS` as read while a command is in execution: `BUSY = 1`, `DONE = 0`, reserved bits 0, the other flags
unspecified (R233, V12). -/
def busyStatusWord (draw : Word) : Word := (draw &&& 0x000000FC#32) ||| 0x00000001#32

/-- What a register reads while the block is idle: a value the rules fix, or none where the value is unspecified
because its validity flag is 0 (R37 to R39, V1). -/
def readIdle (s : State) : Reg → Option Word
  | .id => some idWord
  | .cmd => some 0#32
  | .status => some (statusWord s.status)
  | .err => some (s.err.setWidth 32)
  | .irqEn => some (irqEnWord s.irqEn)
  | .format => some (formatWord s.req.format)
  | .mode => some (modeWord s.req.fade)
  | .lumaScaling => some s.req.ls
  | .width => some (s.geom.width.setWidth 32)
  | .height => some (s.geom.height.setWidth 32)
  | .srcBase => some s.geom.srcBase
  | .srcStride => some s.geom.srcStride
  | .dstBase => some s.geom.dstBase
  | .dstStride => some s.geom.dstStride
  | .arg => some s.arg
  | .result => some s.result
  | .avg => if s.status.avgValid then some s.avg else none
  | .exponent => if s.status.expValid then some s.exp else none
  | .sumLo => if s.status.avgValid then some (s.sum.extractLsb' 0 32) else none
  | .sumHi => if s.status.avgValid then some (s.sum.extractLsb' 32 32) else none
  | .actFormat => some (if s.status.ready then actFormatWord s.act else 0#32)
  | .actLs => some (if s.status.ready then s.act.ls else 0#32)
  | .fdPeak => some (if s.status.ready then s.desc.peak.setWidth 32 else 0#32)
  | .fdYmin => some (if s.status.ready then s.desc.ymin.setWidth 32 else 0#32)
  | .fdY1 => some (if s.status.ready then s.desc.y1.setWidth 32 else 0#32)
  | .fdY2 => some (if s.status.ready then s.desc.y2.setWidth 32 else 0#32)
  | .fdYmax => some (if s.status.ready then s.desc.ymax.setWidth 32 else 0#32)
  | .fdD0 => some (if s.status.ready then s.desc.d0.setWidth 32 else 0#32)
  | .fdD1 => some (if s.status.ready then s.desc.d1.setWidth 32 else 0#32)

/-- What a register reads while a command is in execution: `ID` is a constant (R23), `STATUS` is partly defined, and
no other register has a defined value (R233). -/
def readBusy (s : State) : Reg → Option Word
  | .id => some idWord
  | .status => some (busyStatusWord (Config.freeWord s.draws))
  | _ => none

/-- A host read: the value arrives in `rdata`, an unspecified one is drawn (R94, V1). -/
def readRegister (r : Reg) (s : State) : State :=
  match (if s.status.busy then readBusy s r else readIdle s r) with
  | some v => { s with rdata := v, draws := s.draws + 1 }
  | none => { s with rdata := Config.freeWord s.draws, draws := s.draws + 1 }

/-- A host write to a register other than `CMD`: reserved bits are dropped, RO registers ignore it (R22, R26 to R35,
R40). -/
def writeRegister (r : Reg) (v : Word) (s : State) : State :=
  match r with
  | .irqEn => { s with irqEn := irqEnOfWord v }
  | .format => { s with req := { s.req with format := formatOfWord v } }
  | .mode => { s with req := { s.req with fade := v.getLsbD 0 } }
  | .lumaScaling => { s with req := { s.req with ls := v } }
  | .width => { s with geom := { s.geom with width := v.setWidth 16 } }
  | .height => { s with geom := { s.geom with height := v.setWidth 16 } }
  | .srcBase => { s with geom := { s.geom with srcBase := v } }
  | .srcStride => { s with geom := { s.geom with srcStride := v } }
  | .dstBase => { s with geom := { s.geom with dstBase := v } }
  | .dstStride => { s with geom := { s.geom with dstStride := v } }
  | .arg => { s with arg := v }
  | .cmd | .id | .status | .err | .result | .avg | .exponent | .sumLo | .sumHi | .actFormat | .actLs | .fdPeak
  | .fdYmin | .fdY1 | .fdY2 | .fdYmax | .fdD0 | .fdD1 => s

end Sys2Proof.Machine
end

