-- ==== Sys2Proof/Syntax.lean ====
section
/-! DEFINITION. Syntax.lean: the twelve commands of AGM-D17 (R91), one constructor per row of the opcode table. A
command has no register, immediate or mode field (R90): every operand comes from the control registers (R93). -/

namespace Sys2Proof

/-- The twelve commands, in the order of the opcode map (R91). -/
inductive Instr where
  | nop     -- R111
  | init    -- R112
  | clrerr  -- R113
  | sreset  -- R114
  | poly    -- R134
  | lut     -- R135
  | avg     -- R156
  | expo    -- R158
  | copy    -- R175
  | pixel   -- R174
  | remap   -- R176
  | xform   -- R177
deriving DecidableEq, Repr

end Sys2Proof
end

