-- ==== Sys2Proof/WellFormed.lean ====
section
/-! DEFINITION. WellFormed.lean: the static checks. A command has no operand field (R90), so every `Instr` is
well-formed; what can be ill-formed is a command word (R92) and a host event (R22, R66, R60). -/

namespace Sys2Proof

/-- Every command is well-formed: `CMD32` has no operand field to check (R90). -/
def Instr.wf : Instr → Bool
  | .nop => true
  | .init => true
  | .clrerr => true
  | .sreset => true
  | .poly => true
  | .lut => true
  | .avg => true
  | .expo => true
  | .copy => true
  | .pixel => true
  | .remap => true
  | .xform => true

/-- The check of a command word's reserved bits 31:8 (R90, R92). -/
def wordReservedClear (w : Word) : Bool := w.toNat < 256

/-- The check of a command word's opcode: the twelve assigned values (R91, R92). -/
def opcodeAssigned (w : Word) : Bool :=
  [0x00, 0x01, 0x02, 0x03, 0x10, 0x11, 0x20, 0x21, 0x30, 0x31, 0x32, 0x33].contains (w.toNat % 256)

/-- A legal command word (R92). -/
def wordWf (w : Word) : Bool := wordReservedClear w && opcodeAssigned w

namespace Machine

/-- The size of the register port in bytes (R22). -/
def portBytes : Nat := 256

/-- The size of a plane memory in bytes of the byte view: `2^32` cells of at most four bytes (R60, R61, R65). -/
def planeBytes : Nat := 2 ^ 34

/-- A defined register access: 32 bits wide, aligned, inside the port (R22, R66). -/
def portAccessWf (width : PortWidth) (off : Nat) : Bool :=
  width == .word && off % 4 == 0 && decide (off < portBytes)

/-- A host event that the spec defines: register accesses as `portAccessWf`, plane bytes inside the space. -/
def HostOp.wf : HostOp → Bool
  | .write width off _ => portAccessWf width off
  | .read width off => portAccessWf width off
  | .issue _ => true
  | .tick => true
  | .wait => true
  | .rst => true
  | .poke _ a _ => a < planeBytes
  | .peek _ a => a < planeBytes

end Machine

end Sys2Proof
end

