-- ==== Sys2Proof/Decode.lean ====
section
/-! DEFINITION. Decode.lean: the decoder of command words, total on all `2^32` words and on any list of bytes, and
the encoder after it (R90 to R92, R95). -/

namespace Sys2Proof

/-- Why a word or a list of bytes is no command. -/
inductive Reject where
  /-- Bits 31:8 are not all zero (R90, R92). -/
  | reservedBits
  /-- `RSV = 0` and `OP` is none of the twelve values (R91, R92). -/
  | unassignedOpcode
  /-- Fewer than four bytes: a command is one 32-bit word (R90). -/
  | truncated
deriving DecidableEq, Repr

/-- One row of the opcode map: a word `w` selects the row when `w & mask = pattern` (R91). -/
structure OpRow where
  mask    : Word
  pattern : Word
  instr   : Instr
deriving DecidableEq, Repr

/-- The mask of every row: all 32 bits, because `RSV` must be zero (R91). -/
def fullMask : Word := 0xFFFFFFFF#32

/-- The opcode map (R91). -/
def opTable : List OpRow :=
  [ ⟨fullMask, 0x00000000#32, .nop⟩,    ⟨fullMask, 0x00000001#32, .init⟩,
    ⟨fullMask, 0x00000002#32, .clrerr⟩, ⟨fullMask, 0x00000003#32, .sreset⟩,
    ⟨fullMask, 0x00000010#32, .poly⟩,   ⟨fullMask, 0x00000011#32, .lut⟩,
    ⟨fullMask, 0x00000020#32, .avg⟩,    ⟨fullMask, 0x00000021#32, .expo⟩,
    ⟨fullMask, 0x00000030#32, .copy⟩,   ⟨fullMask, 0x00000031#32, .pixel⟩,
    ⟨fullMask, 0x00000032#32, .remap⟩,  ⟨fullMask, 0x00000033#32, .xform⟩ ]

/-- Does the word select the row? -/
def OpRow.selects (r : OpRow) (w : Word) : Bool := w &&& r.mask == r.pattern

/-- The decoder: the one row the word selects, or the reason why there is none (R90, R92). -/
def decode (w : Word) : Except Reject Instr :=
  match opTable.find? (fun r => r.selects w) with
  | some r => .ok r.instr
  | none => .error (if wordReservedClear w then .unassignedOpcode else .reservedBits)

/-- A 32-bit word from its four bytes in the byte order of R65: least significant byte first. -/
def wordOfBytes (b0 b1 b2 b3 : Byte) : Word :=
  BitVec.ofNat 32 (b0.toNat + 256 * b1.toNat + 65536 * b2.toNat + 16777216 * b3.toNat)

/-- The decoder on bytes: one command and the bytes that follow it. -/
def decodeBytes : List Byte → Except Reject (Instr × List Byte)
  | b0 :: b1 :: b2 :: b3 :: rest =>
    match decode (wordOfBytes b0 b1 b2 b3) with
    | .ok i => .ok (i, rest)
    | .error r => .error r
  | _ => .error .truncated

/-- The `OP` field of a command (R91). -/
def opcode : Instr → BitVec 8
  | .nop => 0x00#8
  | .init => 0x01#8
  | .clrerr => 0x02#8
  | .sreset => 0x03#8
  | .poly => 0x10#8
  | .lut => 0x11#8
  | .avg => 0x20#8
  | .expo => 0x21#8
  | .copy => 0x30#8
  | .pixel => 0x31#8
  | .remap => 0x32#8
  | .xform => 0x33#8

/-- The command word: `OP` in bits 7:0 and `RSV = 0` above (R90). -/
def encode (i : Instr) : Word := (opcode i).setWidth 32

/-- The four bytes of a command word in the byte order of R65. -/
def encodeBytes (i : Instr) : List Byte := [opcode i, 0#8, 0#8, 0#8]

/-- The command the decoder reads from a word numbered as the opcode table numbers it. -/
def decodeTableWord (nbits w : Nat) : Option Instr :=
  if w % 2 ^ nbits < 2 ^ 32 then
    match decode (BitVec.ofNat 32 (w % 2 ^ nbits)) with
    | .ok i => some i
    | .error _ => none
  else none

end Sys2Proof
end

