-- ==== Sys2Proof/Machine/Float.lean ====
section
/-! DEFINITION. Machine/Float.lean: the floating-point primitives of R12 on bit patterns. A finite value is held as a
whole number of the smallest subnormal of its format, so every intermediate is an exact natural and each operation
rounds once, to nearest with ties to even (R116). -/

namespace Sys2Proof.Machine

/-- A binary interchange format: `frac` fraction bits, `expo` exponent bits; the smallest subnormal is `2^(-scale)`. -/
structure FloatFormat where
  frac  : Nat
  expo  : Nat
  scale : Nat
deriving DecidableEq, Repr

/-- IEEE 754 binary32 (R12). -/
def binary32 : FloatFormat := ⟨23, 8, 149⟩

/-- IEEE 754 binary64 (R12). -/
def binary64 : FloatFormat := ⟨52, 11, 1074⟩

/-- A floating-point datum: a NaN, an infinity, or the finite value `±mag * 2^(-scale)`. -/
inductive Fp where
  | nan
  | inf (neg : Bool)
  | fin (neg : Bool) (mag : Nat)
deriving DecidableEq, Repr

/-- The pattern of an infinity without its sign: all exponent bits set, fraction 0. -/
def infPattern (f : FloatFormat) : Nat := (2 ^ f.expo - 1) * 2 ^ f.frac

/-- The sign bit's weight. -/
def signWeight (f : FloatFormat) : Nat := 2 ^ (f.frac + f.expo)

/-- One unit, 1.0, in units of the smallest subnormal. -/
def unitMag (f : FloatFormat) : Nat := 2 ^ f.scale

/-- The magnitude of a pattern without its sign: subnormals are the fraction itself; a normal number carries the
hidden bit and is shifted by its exponent. -/
def magOfPattern (f : FloatFormat) (n : Nat) : Nat :=
  if n < 2 ^ f.frac then n else (2 ^ f.frac + n % 2 ^ f.frac) * 2 ^ (n / 2 ^ f.frac - 1)

/-- The pattern of a magnitude without its sign; a magnitude beyond the largest finite value gives the infinity. -/
def patternOfMag (f : FloatFormat) (mag : Nat) : Nat :=
  let k := Nat.log2 mag - f.frac
  min (infPattern f) (k * 2 ^ f.frac + mag / 2 ^ k)

/-- Reading a pattern. -/
def unpack (f : FloatFormat) (w : Nat) : Fp :=
  let neg := w / signWeight f % 2 == 1
  let n := w % signWeight f
  if n < infPattern f then .fin neg (magOfPattern f n)
  else if n = infPattern f then .inf neg
  else .nan

/-- The sign bit of a pattern. -/
def signBits (f : FloatFormat) (neg : Bool) : Nat := if neg then signWeight f else 0

/-- Writing a pattern. The NaN written here is never visible: the only NaN the block can produce is `RESULT` of
`POLY(NaN)`, which `POLY` replaces by an unspecified one (R116, V3). -/
def pack (f : FloatFormat) : Fp → Nat
  | .nan => infPattern f + 2 ^ (f.frac - 1)
  | .inf neg => signBits f neg + infPattern f
  | .fin neg mag => signBits f neg + patternOfMag f mag

/-- The quotient `num / den` rounded to the nearest integer, ties to even. -/
def divNearestEven (num den : Nat) : Nat :=
  let q := num / den
  let r := num % den
  if den < 2 * r then q + 1
  else if 2 * r = den then q + q % 2
  else q

/-- The rational `num / den`, in units of the smallest subnormal, rounded to the format's precision. -/
def roundMag (f : FloatFormat) (num den : Nat) : Nat :=
  let k := Nat.log2 (num / den) - f.frac
  divNearestEven num (den * 2 ^ k) * 2 ^ k

/-- The datum nearest a signed rational, with an infinity on overflow. -/
def roundFp (f : FloatFormat) (neg : Bool) (num den : Nat) : Fp :=
  let mag := roundMag f num den
  if patternOfMag f mag = infPattern f then .inf neg else .fin neg mag

/-- Negation flips the sign of everything but a NaN. -/
def Fp.negate : Fp → Fp
  | .nan => .nan
  | .inf s => .inf (!s)
  | .fin s m => .fin (!s) m

/-- IEEE addition. An exact zero sum of unlike signs is `+0.0`. -/
def fpAdd (f : FloatFormat) : Fp → Fp → Fp
  | .nan, _ => .nan
  | .inf _, .nan => .nan
  | .fin _ _, .nan => .nan
  | .inf s, .inf t => if s = t then .inf s else .nan
  | .inf s, .fin _ _ => .inf s
  | .fin _ _, .inf t => .inf t
  | .fin s m, .fin t n =>
    if s = t then roundFp f s (m + n) 1
    else if m = n then .fin false 0
    else if n < m then roundFp f s (m - n) 1
    else roundFp f t (n - m) 1

/-- IEEE subtraction. -/
def fpSub (f : FloatFormat) (a b : Fp) : Fp := fpAdd f a b.negate

/-- IEEE multiplication. -/
def fpMul (f : FloatFormat) : Fp → Fp → Fp
  | .nan, _ => .nan
  | .inf _, .nan => .nan
  | .fin _ _, .nan => .nan
  | .inf s, .inf t => .inf (s != t)
  | .inf s, .fin t n => if n = 0 then .nan else .inf (s != t)
  | .fin s m, .inf t => if m = 0 then .nan else .inf (s != t)
  | .fin s m, .fin t n => roundFp f (s != t) (m * n) (unitMag f)

/-- IEEE division. -/
def fpDiv (f : FloatFormat) : Fp → Fp → Fp
  | .nan, _ => .nan
  | .inf _, .nan => .nan
  | .fin _ _, .nan => .nan
  | .inf _, .inf _ => .nan
  | .inf s, .fin t _ => .inf (s != t)
  | .fin s _, .inf t => .fin (s != t) 0
  | .fin s m, .fin t n =>
    if n = 0 then (if m = 0 then .nan else .inf (s != t))
    else roundFp f (s != t) (m * unitMag f) n

/-- The place of a datum on the number line, in units of the smallest subnormal; a NaN has none. -/
def fpKey (f : FloatFormat) : Fp → Option Int
  | .nan => none
  | .inf neg => some (if neg then -(magOfPattern f (infPattern f) : Int) else magOfPattern f (infPattern f))
  | .fin neg mag => some (if neg then -(mag : Int) else mag)

/-- The datum of a binary32 pattern. -/
def fp32 (w : Word) : Fp := unpack binary32 w.toNat

/-- The datum of a binary64 pattern. -/
def fp64 (d : Dword) : Fp := unpack binary64 d.toNat

/-- The binary32 pattern of a datum (`bits32`, R11). -/
def bits32 (x : Fp) : Word := BitVec.ofNat 32 (pack binary32 x)

/-- The binary64 pattern of a datum. -/
def bits64 (x : Fp) : Dword := BitVec.ofNat 64 (pack binary64 x)

/-- `fadd32` (R12). -/
def fadd32 (a b : Word) : Word := bits32 (fpAdd binary32 (fp32 a) (fp32 b))

/-- `fsub32` (R12). -/
def fsub32 (a b : Word) : Word := bits32 (fpSub binary32 (fp32 a) (fp32 b))

/-- `fmul32` (R12). -/
def fmul32 (a b : Word) : Word := bits32 (fpMul binary32 (fp32 a) (fp32 b))

/-- `fdiv32` (R12). -/
def fdiv32 (a b : Word) : Word := bits32 (fpDiv binary32 (fp32 a) (fp32 b))

/-- `fadd64` (R12). -/
def fadd64 (a b : Dword) : Dword := bits64 (fpAdd binary64 (fp64 a) (fp64 b))

/-- `fdiv64` (R12). -/
def fdiv64 (a b : Dword) : Dword := bits64 (fpDiv binary64 (fp64 a) (fp64 b))

/-- `u2f32`: the nearest binary32 of an unsigned integer (R12). -/
def u2f32 (n : Nat) : Word := bits32 (roundFp binary32 false (n * unitMag binary32) 1)

/-- `u2f64`: the nearest binary64 of an unsigned integer (R12). -/
def u2f64 (n : Nat) : Dword := bits64 (roundFp binary64 false (n * unitMag binary64) 1)

/-- `f32to64`: exact widening (R12). -/
def f32to64 (w : Word) : Dword :=
  match fp32 w with
  | .nan => bits64 .nan
  | .inf s => bits64 (.inf s)
  | .fin s m => bits64 (.fin s (m * 2 ^ (binary64.scale - binary32.scale)))

/-- `f64to32`: narrowing with one rounding (R12). -/
def f64to32 (d : Dword) : Word :=
  match fp64 d with
  | .nan => bits32 .nan
  | .inf s => bits32 (.inf s)
  | .fin s m => bits32 (roundFp binary32 s m (2 ^ (binary64.scale - binary32.scale)))

/-- `floor32`: the largest integral binary32 value not above the operand; an infinity maps to itself (R12). -/
def floor32 (w : Word) : Word :=
  match fp32 w with
  | .nan => bits32 .nan
  | .inf s => bits32 (.inf s)
  | .fin s m =>
    let q := m / unitMag binary32
    let whole := if s && m % unitMag binary32 != 0 then q + 1 else q
    bits32 (.fin s (whole * unitMag binary32))

/-- `f2u`: the integer an integral non-negative binary32 value equals; applied to no other value (R12). -/
def f2u (w : Word) : Nat :=
  match fp32 w with
  | .nan => 0
  | .inf _ => 0
  | .fin _ m => m / unitMag binary32

/-- An IEEE comparison: false when an operand is a NaN (R12). -/
def cmp32 (rel : Int → Int → Bool) (a b : Word) : Bool :=
  match fpKey binary32 (fp32 a), fpKey binary32 (fp32 b) with
  | some x, some y => rel x y
  | _, _ => false

/-- `lt32` (R12). -/
def lt32 (a b : Word) : Bool := cmp32 (fun x y => decide (x < y)) a b

/-- `le32` (R12). -/
def le32 (a b : Word) : Bool := cmp32 (fun x y => decide (x ≤ y)) a b

/-- `gt32` (R12). -/
def gt32 (a b : Word) : Bool := lt32 b a

/-- `ge32` (R12). -/
def ge32 (a b : Word) : Bool := le32 b a

/-- `eq32`: `-0.0` equals `+0.0` (R12). -/
def eq32 (a b : Word) : Bool := cmp32 (fun x y => decide (x = y)) a b

/-- `isfinite32`: neither an infinity nor a NaN (R12). -/
def isfinite32 (w : Word) : Bool :=
  match fp32 w with
  | .nan => false
  | .inf _ => false
  | .fin _ _ => true

/-- Is the pattern a NaN? -/
def isnan32 (w : Word) : Bool :=
  match fp32 w with
  | .nan => true
  | .inf _ => false
  | .fin _ _ => false

/-- `+0.0`. -/
def f32Zero : Word := 0x00000000#32
/-- `1.0`. -/
def f32One : Word := 0x3F800000#32
/-- `lit32(0.5)`. -/
def f32Half : Word := 0x3F000000#32
/-- `+inf`. -/
def f32Inf : Word := 0x7F800000#32

/-- A NaN made of a drawn word: the word's sign and payload; every NaN pattern is made of some word (V3). -/
def nanOf (v : Word) : Word :=
  if v &&& 0x007FFFFF#32 = 0#32 then v ||| 0x7FC00000#32 else v ||| 0x7F800000#32

end Sys2Proof.Machine
end

