-- ==== Sys2Proof/Machine/Curve.lean ====
section
/-! DEFINITION. Machine/Curve.lean: the tone-curve evaluator's pure functions (R130 to R132, R136 to R138). -/

namespace Sys2Proof.Machine

/-- Coefficient 18.188 as the nearest binary32 (R130). -/
def K5 : Word := 0x41918106#32
/-- Coefficient 45.47 (R130). -/
def K4 : Word := 0x4235E148#32
/-- Coefficient 36.624 (R130). -/
def K3 : Word := 0x42127EFA#32
/-- Coefficient 9.466 (R130). -/
def K2 : Word := 0x411774BC#32
/-- Coefficient 1.124 (R130). -/
def K1 : Word := 0x3F8FDF3B#32

/-- The base curve by Horner's rule, each operation rounded separately (R131). -/
def poly (x : Word) : Word :=
  let t1 := fsub32 (fmul32 x K5) K4
  let t2 := fadd32 (fmul32 x t1) K3
  let t3 := fsub32 (fmul32 x t2) K2
  let t4 := fadd32 (fmul32 x t3) K1
  let t5 := fmul32 x t4
  fsub32 f32One t5

/-- One entry of the curve table, unclamped (R132). -/
def tableEntry (i peak : Nat) : Word := poly (fdiv32 (u2f32 i) (u2f32 peak))

/-- The entries `0 .. peak` of the curve table (R132). -/
def buildTable (peak : Nat) : List Word := (List.range (peak + 1)).map fun i => tableEntry i peak

/-- The base clamp (R136). -/
def clamp0 (c : Word) : Word := if lt32 c f32Zero then f32Zero else c

/-- An admissible result of the power unit off the special cases: every pattern from `+0.0` to `+inf` (R137 P5). -/
def powAdmissible (v : Word) : Word := BitVec.ofNat 32 (v.toNat % 0x7F800001)

/-- The power unit: laws P1 to P4, and elsewhere the implementation's own function under P5 (R137). -/
def POW (b e : Word) : Word :=
  if eq32 e f32Zero then f32One
  else if eq32 b f32Zero then (if gt32 e f32Zero then f32Zero else f32Inf)
  else if b = f32Inf then (if gt32 e f32Zero then f32Inf else f32Zero)
  else if b = f32One then f32One
  else powAdmissible (Config.pow b e)

/-- The corrected curve value (R138). -/
def curve (c e : Word) : Word := POW (clamp0 c) e

/-- The exponent of a frame, two roundings in the order written (R157). -/
def expoOf (avg ls : Word) : Word := fmul32 (fmul32 avg avg) ls

/-- The integer average: two binary64 divisions in the source's order, narrowed once (R151). -/
def avgInt (sum n peak : Nat) : Word := f64to32 (fdiv64 (fdiv64 (u2f64 sum) (u2f64 n)) (u2f64 peak))

/-- The default `FSUM`: left to right from `+0.0` in binary64 (R152). -/
def sumFlt (samples : List Word) : Dword := samples.foldl (fun acc s => fadd64 acc (f32to64 s)) 0#64

/-- The float average (R153). -/
def avgFlt (sum : Dword) (n : Nat) : Word := f64to32 (fdiv64 sum (u2f64 n))

/-- The place of a binary32 pattern on the line of all patterns: neighbours differ by one unit in the last place, and the
two zeros share a place (R154). -/
def ulpRank (w : Word) : Int :=
  if w.getLsbD 31 then -((w.toNat % 2 ^ 31 : Nat) : Int) else ((w.toNat % 2 ^ 31 : Nat) : Int)

/-- How many units in the last place two binary32 patterns are apart. -/
def ulpDistance (v w : Word) : Nat := (ulpRank v - ulpRank w).natAbs

/-- Is a binary32 value in `[0.0, 1.0]` (R153)? -/
def inUnit32 (c : Word) : Bool := le32 f32Zero c && le32 c f32One

/-- Is a binary64 value below `2^160` in magnitude (R152)? -/
def belowSumBound (sum : Dword) : Bool := decide (sum.toNat % 2 ^ 63 < 0x49F0000000000000)

/-- What R153 says of the average of samples in `[0.0, 1.0]`: it lies in `[+0.0, 1.0]`, and is `+0.0` if every sample is
`+0.0`. -/
def averageBounded (samples : List Word) (avg : Word) : Bool :=
  (!samples.all inUnit32 || decide (avg.toNat ≤ f32One.toNat)) && (!samples.all (· == f32Zero) || avg == f32Zero)

/-- May a float sum of the samples stand for the default one? It is below `2^160` (R152), and its average is within
`AVG_ULP_TOL` of the default's (R154) and in the bounds of R153. That these bounds hold of every `FSUM`, and not of the
default alone, is the model's reading (log entry 5). -/
def fsumAdmissible (samples : List Word) (sum : Dword) : Bool :=
  belowSumBound sum && averageBounded samples (avgFlt sum samples.length) &&
    decide (ulpDistance (avgFlt sum samples.length) (avgFlt (sumFlt samples) samples.length) ≤ Config.avgUlpTol)

/-- `FSUM`: the default sum, or the implementation's own where the rules admit it (R7, R152, R154). -/
def FSUM (choice : Summation) (samples : List Word) : Dword :=
  match choice with
  | .leftToRight => sumFlt samples
  | .implementation =>
    if fsumAdmissible samples (Config.fsum Config.lanes samples) then Config.fsum Config.lanes samples
    else sumFlt samples

/-- Scale, round half up, clamp on the binary32 value, then convert (R171). -/
def quant (p : Word) (peak : Nat) : Nat :=
  let pk := u2f32 peak
  let r := floor32 (fadd32 (fmul32 p pk) f32Half)
  if lt32 r f32Zero then 0
  else if gt32 r pk then peak
  else f2u r

/-- The float output clamp (R173). -/
def clamp01 (p : Word) : Word :=
  if lt32 p f32Zero then f32Zero else if gt32 p f32One then f32One else p

end Sys2Proof.Machine
end

