-- ==== Sys2Proof/Machine/Descriptor.lean ====
section
/-! DEFINITION. Machine/Descriptor.lean: the format descriptor ROM `FD` (R42). -/

namespace Sys2Proof.Machine

/-- The fade constants of 8 bits, printed by the source (R42). -/
def FD8 : FadeSet := ⟨16#16, 17#16, 18#16, 235#16, 85#16, 170#16⟩

/-- The fade constants of 16 bits, printed by the source (R42). -/
def FD16 : FadeSet := ⟨4096#16, 4352#16, 4608#16, 60160#16, 21760#16, 43520#16⟩

/-- A row of the ROM: the depth's own `peak` and a set of fade constants (R42). -/
def FadeSet.row (peak : BitVec 16) (f : FadeSet) : Descriptor := ⟨peak, f.ymin, f.y1, f.y2, f.ymax, f.d0, f.d1⟩

/-- The bit depths of the integer formats (R5, R26). -/
def integerDepth (b : BitVec 6) : Bool := b == 8#6 || b == 10#6 || b == 12#6 || b == 14#6 || b == 16#6

/-- `FD(b)`: the ROM row of a bit depth, of 10, 12 and 14 bits the one the implementation's parameters give; a depth
with no row has no descriptor (R7, R42). -/
def descriptorRow (p : Params) (b : BitVec 6) : Descriptor :=
  if b = 8#6 then FD8.row 255#16
  else if b = 10#6 then p.fd10.row 1023#16
  else if b = 12#6 then p.fd12.row 4095#16
  else if b = 14#6 then p.fd14.row 16383#16
  else if b = 16#6 then FD16.row 65535#16
  else Descriptor.none

end Sys2Proof.Machine
end

