-- ==== Sys2Proof/Machine/Memory.lean ====
section
/-! DEFINITION. Machine/Memory.lean: reading and writing a plane memory, by byte and by cell (R61, R65, R68). -/

namespace Sys2Proof.Machine

/-- What an address that nothing has written reads as (DESIGN CHOICE: the spec gives the planes no reset contents). -/
def background : Byte := 0#8

/-- The canonical form: addresses strictly rising, no entry equal to the background. -/
def Memory.wf : Memory → Bool
  | [] => true
  | (k, v) :: m => v != background && m.all (fun c => decide (k < c.1)) && Memory.wf m

/-- One byte. -/
def Memory.read : Memory → Nat → Byte
  | [], _ => background
  | (k, v) :: m, a => if a = k then v else Memory.read m a

/-- Writing one byte; writing the background removes the entry. -/
def Memory.write : Memory → Nat → Byte → Memory
  | [], a, b => if b = background then [] else [(a, b)]
  | (k, v) :: m, a, b =>
    if a < k then (if b = background then (k, v) :: m else (a, b) :: (k, v) :: m)
    else if a = k then (if b = background then m else (a, b) :: m)
    else (k, v) :: Memory.write m a b

/-- `n` bytes from `a` on as one number, least significant byte at the lowest address (R65). -/
def Memory.readLE (m : Memory) (a : Nat) : Nat → Nat
  | 0 => 0
  | n + 1 => (Memory.read m a).toNat + 256 * Memory.readLE m (a + 1) n

/-- Writing `n` bytes of a number from `a` on, least significant byte at the lowest address (R65). -/
def Memory.writeLE (m : Memory) (a : Nat) : Nat → Nat → Memory
  | 0, _ => m
  | n + 1, v => Memory.writeLE (Memory.write m a (BitVec.ofNat 8 v)) (a + 1) n (v / 256)

/-- Does the platform back the byte (R68)? -/
def Plane.byteBacked (p : Plane) (a : Nat) : Bool :=
  !p.unbacked.any fun r => decide (r.1 ≤ a) && decide (a < r.1 + r.2)

/-- Does the platform back every byte of the cell at sample address `a`, cells being `n` bytes wide? -/
def Plane.cellBacked (p : Plane) (n a : Nat) : Bool :=
  (List.range n).all fun k => Plane.byteBacked p (a * n + k)

/-- The cell at sample address `a`, cells being `n` bytes wide, zero-extended to 32 bits (R61, R65). -/
def Plane.readCell (p : Plane) (n a : Nat) : Word := BitVec.ofNat 32 (Memory.readLE p.bytes (a * n) n)

/-- Storing the low `n` bytes of a value in the cell at sample address `a` (R65, R119). -/
def Plane.writeCell (p : Plane) (n a : Nat) (v : Word) : Plane :=
  { p with bytes := Memory.writeLE p.bytes (a * n) n v.toNat }

/-- One byte of a plane. -/
def Plane.readByte (p : Plane) (a : Nat) : Byte := Memory.read p.bytes a

/-- Writing one byte of a plane. -/
def Plane.writeByte (p : Plane) (a : Nat) (b : Byte) : Plane := { p with bytes := Memory.write p.bytes a b }

/-- Storing a list of `(sample address, value)` pairs, from the first to the last. -/
def Plane.writeCells (p : Plane) (n : Nat) : List (Nat × Word) → Plane
  | [] => p
  | (a, v) :: rest => Plane.writeCells (Plane.writeCell p n a v) n rest

end Sys2Proof.Machine
end

