-- ==== Sys2Proof/Machine/Operands.lean ====
section
/-! DEFINITION. Machine/Operands.lean: every operand form of R93 and R62: the probe operand `ARG`, the geometry, the
plane addresses of the active region and the cells read there. -/

namespace Sys2Proof.Machine

/-- `POLY`'s operand: all 32 bits of `ARG` as a binary32 pattern (R93). -/
def polyOperand (s : State) : Word := s.arg

/-- `LUT`'s operand: all 32 bits of `ARG` as an unsigned index (R93). -/
def lutIndex (s : State) : Nat := s.arg.toNat

/-- `PIXEL`'s operand: the sample, an unsigned integer or a binary32 pattern by the active format (R93). -/
def pixelSample (s : State) : Word := s.arg

/-- The active cell width in bytes (R61). While no filter is constructed R61 gives none, and the model takes 2 (log entry
24). -/
def cellBytes (s : State) : Nat := if s.act.flt then 4 else if s.act.bits = 8#6 then 1 else 2

/-- `W`, the number of samples per row (R93). -/
def regionWidth (g : Geometry) : Nat := g.width.toNat

/-- `H`, the number of rows (R93). -/
def regionHeight (g : Geometry) : Nat := g.height.toNat

/-- `N = W * H` (R151). -/
def regionSize (g : Geometry) : Nat := regionWidth g * regionHeight g

/-- The positions `(row, column)` of the active region in row-major order (R62, R152). -/
def positions (g : Geometry) : List (Nat × Nat) :=
  (List.range (regionHeight g)).flatMap fun y => (List.range (regionWidth g)).map fun x => (y, x)

/-- The source address of a position (R62). -/
def srcAddr (g : Geometry) (p : Nat × Nat) : Nat := g.srcBase.toNat + p.1 * g.srcStride.toNat + p.2

/-- The destination address of a position (R62). -/
def dstAddr (g : Geometry) (p : Nat × Nat) : Nat := g.dstBase.toNat + p.1 * g.dstStride.toNat + p.2

/-- The source cell of a position (R62, R119). -/
def srcCell (s : State) (p : Nat × Nat) : Word := Plane.readCell s.src (cellBytes s) (srcAddr s.geom p)

/-- The source cells of the active region in row-major order (R63, R150). -/
def srcSamples (s : State) : List Word := (positions s.geom).map (srcCell s)

/-- Is every source cell of the active region backed (R68)? -/
def srcRegionBacked (s : State) : Bool :=
  (positions s.geom).all fun p => Plane.cellBacked s.src (cellBytes s) (srcAddr s.geom p)

/-- Is the destination cell of a position backed (R68)? -/
def dstCellBacked (s : State) (p : Nat × Nat) : Bool := Plane.cellBacked s.dst (cellBytes s) (dstAddr s.geom p)

/-- Is every destination cell of the active region backed (R68)? -/
def dstRegionBacked (s : State) : Bool := (positions s.geom).all (dstCellBacked s)

/-- The sample check: an integer sample at most `PEAK`, a float sample finite (R150, R152, R170, R172). -/
def sampleValid (s : State) (c : Word) : Bool :=
  if s.act.flt then isfinite32 c else decide (c.toNat ≤ s.desc.peak.toNat)

/-- Is a byte of the source memory in a cell of the active region? -/
def inSrcRegion (s : State) (a : Nat) : Bool :=
  (positions s.geom).any fun p => srcAddr s.geom p == a / cellBytes s

/-- Is a byte of the destination memory in a cell of the active region? -/
def inDstRegion (s : State) (a : Nat) : Bool :=
  (positions s.geom).any fun p => dstAddr s.geom p == a / cellBytes s

end Sys2Proof.Machine
end

