-- ==== Sys2Proof/Machine/Ops.lean ====
section
/-! DEFINITION. Machine/Ops.lean: the operations the commands share: acceptance and completion (R110), entering an
error (R205) and leaving it (R207), the geometry check (R69), reset (R230) and the unspecified region (R206). -/

namespace Sys2Proof.Machine

/-- The error codes of `ERR.CODE` (R201). -/
inductive ErrCode where
  | illegalCmd
  | family
  | bits
  | ls
  | notReady
  | dim
  | bounds
  | sample
  | numeric
deriving DecidableEq, Repr

/-- The number of an error code (R201). -/
def errNumber : ErrCode → BitVec 8
  | .illegalCmd => 1#8
  | .family => 2#8
  | .bits => 3#8
  | .ls => 4#8
  | .notReady => 5#8
  | .dim => 6#8
  | .bounds => 7#8
  | .sample => 8#8
  | .numeric => 9#8

/-- How the step of R110 marked `execute` ends: with a state, with `raise Error(code)` from the state the command
reached, or stuck on an access the platform does not back (R68). -/
inductive CmdResult where
  | ok (s : State)
  | raised (c : ErrCode) (s : State)
  | stuck (f : Fault)
deriving Repr

/-- Going on with the next part of a command's rule. -/
def andThen (r : CmdResult) (k : State → CmdResult) : CmdResult :=
  match r with
  | .ok s => k s
  | .raised c s => .raised c s
  | .stuck f => .stuck f

/-- What an error leaves behind besides the error entry: `f` is applied to the state an error is raised from. -/
def onRaise (f : State → State) (r : CmdResult) : CmdResult :=
  match r with
  | .ok s => .ok s
  | .raised c s => .raised c (f s)
  | .stuck e => .stuck e

/-- Accepting a command (R110). -/
def accept (s : State) : State := { s with status := flagsAccept s.status }

/-- `Complete()` (R110): the sequencer returns to `IDLE` (R46). -/
def complete (s : State) : State := { s with status := flagsComplete s.status, seq := Sequencer.idle }

/-- Error entry `raise Error(c)`: the first code sticks, `ERROR` is set, the command completes (R203, R205). -/
def raiseError (c : ErrCode) (s : State) : State :=
  complete { s with err := if s.err = 0#8 then errNumber c else s.err, status := flagsError s.status }

/-- Leaving the error: `CLRERR` zeroes the code and the flag and restores nothing else (R113, R207). -/
def clearError (s : State) : State := { s with err := 0#8, status := flagsClearError s.status }

/-- Everything R110 does around the rule of a legal command that arrives while the block is not busy. `exempt` says
that the command is accepted while `ERR.CODE` is not zero. -/
def runCommand (exempt : Bool) (body : State → CmdResult) (s : State) : Host.Outcome State Fault Refusal :=
  if s.err ≠ 0#8 ∧ exempt = false then .next (complete (accept s))
  else
    match body (accept s) with
    | .ok t => .next (complete t)
    | .raised c t => .next (raiseError c t)
    | .stuck f => .fault f

/-- Every piece of block state at its reset value; the plane memories and what stands outside the block stay,
and so do the implementation's parameters (R49, R230, R231). -/
def blockReset (s : State) : State :=
  { State.reset with src := s.src, dst := s.dst, inbox := s.inbox, rdata := s.rdata, params := s.params, draws := s.draws }

/-- The address of the last sample of a region: base, stride, geometry (R69). -/
def lastAddr (base stride : Nat) (g : Geometry) : Nat :=
  base + (regionHeight g - 1) * stride + (regionWidth g - 1)

/-- `GeomCheck(need_dst)`: the first failing test's code (R69). -/
def geomCheck (needDst : Bool) (g : Geometry) : Option ErrCode :=
  if regionWidth g = 0 ∨ regionHeight g = 0 then some .dim
  else if g.srcStride.toNat < regionWidth g then some .dim
  else if needDst = true ∧ g.dstStride.toNat < regionWidth g then some .dim
  else if 2 ^ 32 ≤ lastAddr g.srcBase.toNat g.srcStride.toNat g then some .bounds
  else if needDst = true ∧ 2 ^ 32 ≤ lastAddr g.dstBase.toNat g.dstStride.toNat g then some .bounds
  else none

/-- The geometry check as a step of a command's rule. -/
def checkGeometry (needDst : Bool) (k : State → CmdResult) (s : State) : CmdResult :=
  match geomCheck needDst s.geom with
  | some c => .raised c s
  | none => k s

/-- A test that the platform backs what the command is about to touch (R68, V8). -/
def needBacked (backed : State → Bool) (f : Fault) (k : State → CmdResult) (s : State) : CmdResult :=
  if backed s then k s else .stuck f

/-- Every cell of the destination region takes an unspecified value, one draw for the whole region (R206, V2).
A cell the platform does not back takes one as well, which nothing can read (R68; the model's choice, log entry 14). -/
def scrambleRegion (s : State) : State :=
  { s with
    dst := Plane.writeCells s.dst (cellBytes s)
      ((positions s.geom).map fun p => (dstAddr s.geom p, Config.freeCell s.draws (dstAddr s.geom p)))
    draws := s.draws + 1 }

end Sys2Proof.Machine
end

