-- ==== Sys2Proof/Machine/Control.lean ====
section
/-! DEFINITION. Machine/Control.lean: the control and construction commands `NOP`, `INIT`, `CLRERR`, `SRESET`. -/

namespace Sys2Proof.Machine

/-- `NOP` (R111). -/
def execNop (s : State) : Host.Outcome State Fault Refusal := runCommand true CmdResult.ok s

/-- Every `INIT` first un-constructs the previous instance (R112). -/
def unconstruct (s : State) : State :=
  { s with
    status := flagsUnconstruct s.status
    act    := ActiveConfig.none
    desc   := Descriptor.none
    table  := [] }

/-- What a request lacks to be constructed: the first failing test's code (R112). -/
def requestError (r : Request) : Option ErrCode :=
  if r.format.family ≠ 0#2 then some .family
  else if r.format.flt = false ∧ integerDepth r.format.bits = false then some .bits
  else if r.format.flt = true ∧ r.format.bits ≠ 32#6 then some .bits
  else if isfinite32 r.ls = false then some .ls
  else none

/-- Constructing the instance a legal request asks for (R41, R43, R44, R112). -/
def construct (s : State) : State :=
  let f := s.req.format
  let row := if f.flt then Descriptor.none else descriptorRow s.params f.bits
  { s with
    status := flagsConstructed (!f.flt) s.status
    act    := ⟨f.bits, f.flt, s.req.fade, s.req.ls⟩
    desc   := row
    table  := if f.flt then [] else buildTable row.peak.toNat }

/-- The rule of `INIT` (R112). -/
def initBody (s : State) : CmdResult :=
  match requestError s.req with
  | some c => .raised c (unconstruct s)
  | none => .ok (construct (unconstruct s))

/-- `INIT` (R112). -/
def execInit (s : State) : Host.Outcome State Fault Refusal := runCommand false initBody s

/-- `CLRERR` (R113). -/
def execClrerr (s : State) : Host.Outcome State Fault Refusal := runCommand true (fun t => .ok (clearError t)) s

/-- `SRESET` (R114). -/
def execSreset (s : State) : Host.Outcome State Fault Refusal := runCommand true (fun t => .ok (blockReset t)) s

end Sys2Proof.Machine
end

