-- ==== Sys2Proof/Machine/Averaging.lean ====
section
/-! DEFINITION. Machine/Averaging.lean: the luma frame averaging tree and the exponent, `AVG` and `EXPO`. -/

namespace Sys2Proof.Machine

/-- The exact sum of unsigned samples (R150). -/
def sumInt (samples : List Word) : Nat := samples.foldl (fun acc c => acc + c.toNat) 0

/-- The value `SUM` takes: the integer sum in the 64-bit accumulator (it never wraps, R150), or the pattern of the
binary64 accumulator, which `FSUM` gives (R152). -/
def regionSum (s : State) : Dword :=
  if s.act.flt then FSUM s.params.fsum (srcSamples s) else BitVec.ofNat 64 (sumInt (srcSamples s))

/-- The average of a sum over the active region (R151, R153). -/
def averageOf (s : State) (sum : Dword) : Word :=
  if s.act.flt then avgFlt sum (regionSize s.geom) else avgInt sum.toNat (regionSize s.geom) s.desc.peak.toNat

/-- The body of `AVG` after its geometry check, shared with `XFORM` (R156, R177). -/
def averagePlane (s : State) : CmdResult :=
  if (srcSamples s).all (sampleValid s) = false then .raised .sample s
  else
    let a := averageOf s (regionSum s)
    if s.act.flt = true ∧ isfinite32 a = false then .raised .numeric { s with sum := regionSum s }
    else .ok { s with sum := regionSum s, avg := a, status := flagsAvgDone s.status }

/-- The rule of `AVG` (R156). -/
def avgBody (s : State) : CmdResult :=
  if s.status.ready = false then .raised .notReady s
  else
    checkGeometry false (needBacked srcRegionBacked .unbackedSource averagePlane)
      { s with status := flagsAvgStart s.status }

/-- `AVG` (R156). -/
def execAvg (s : State) : Host.Outcome State Fault Refusal := runCommand false avgBody s

/-- The body of `EXPO` after its readiness test, shared with `XFORM` (R158, R177). -/
def deriveExponent (s : State) : CmdResult :=
  let t := { s with status := flagsExpStart s.status }
  let e := expoOf s.avg s.act.ls
  if isfinite32 e = false then .raised .numeric t
  else .ok { t with exp := e, status := flagsExpDone t.status }

/-- The rule of `EXPO` (R158). -/
def expoBody (s : State) : CmdResult :=
  if s.status.ready = false ∨ s.status.avgValid = false then .raised .notReady s
  else deriveExponent s

/-- `EXPO` (R158). -/
def execExpo (s : State) : Host.Outcome State Fault Refusal := runCommand false expoBody s

end Sys2Proof.Machine
end

