-- ==== Sys2Proof/Machine/Evaluator.lean ====
section
/-! DEFINITION. Machine/Evaluator.lean: the probe commands of the tone-curve evaluator, `POLY` and `LUT`. -/

namespace Sys2Proof.Machine

/-- The rule of `POLY` (R134): a NaN result has an unspecified sign and payload (R116, V3). -/
def polyBody (s : State) : CmdResult :=
  let y := poly (polyOperand s)
  if isnan32 y then .ok { s with result := nanOf (Config.freeWord s.draws), draws := s.draws + 1 }
  else .ok { s with result := y }

/-- `POLY` (R134). -/
def execPoly (s : State) : Host.Outcome State Fault Refusal := runCommand false polyBody s

/-- `T[i]`; an entry that holds no value gives a free one (R44). -/
def tableRead (s : State) (i : Nat) : Word := s.table.getD i (Config.freeTableEntry i)

/-- The rule of `LUT` (R135). -/
def lutBody (s : State) : CmdResult :=
  if s.status.ready = false ∨ s.status.tblValid = false then .raised .notReady s
  else if s.desc.peak.toNat < lutIndex s then .raised .sample s
  else .ok { s with result := tableRead s (lutIndex s) }

/-- `LUT` (R135). -/
def execLut (s : State) : Host.Outcome State Fault Refusal := runCommand false lutBody s

end Sys2Proof.Machine
end

