-- ==== Sys2Proof/Machine/Transformer.lean ====
section
/-! DEFINITION. Machine/Transformer.lean: the remapper, `COPY`, `PIXEL`, `REMAP` and `XFORM`. -/

namespace Sys2Proof.Machine

/-- What a remap function answers: keep the baseline, or write a value (R170, R172). -/
inductive Remapped where
  | keep
  | out (v : Word)
deriving DecidableEq, Repr

/-- The curve path of an integer sample (R170, R171). -/
def curveInt (s : State) (c : Nat) : Remapped :=
  .out (BitVec.ofNat 32 (quant (curve (tableRead s c) s.exp) s.desc.peak.toNat))

/-- `remap_int`: the fade ladder in order, then the curve (R170). -/
def remapInt (s : State) (c : Nat) : Remapped :=
  if s.act.fade then
    if c ≤ s.desc.ymin.toNat then .keep
    else if c ≤ s.desc.y1.toNat then .out (s.desc.d0.setWidth 32)
    else if c ≤ s.desc.y2.toNat then .out (s.desc.d1.setWidth 32)
    else if s.desc.ymax.toNat ≤ c then .out 0#32
    else curveInt s c
  else curveInt s c

/-- The curve path of a float sample (R172, R173). -/
def curveFlt (s : State) (x : Word) : Remapped := .out (clamp01 (curve (poly x) s.exp))

/-- `remap_flt`: the two exact values, then the curve (R172). -/
def remapFlt (s : State) (x : Word) : Remapped :=
  if s.act.fade then
    if eq32 x f32Zero then .keep
    else if eq32 x f32One then .out f32Zero
    else curveFlt s x
  else curveFlt s x

/-- The remap function of the active format, applied to a whole cell (R176). -/
def remapCell (s : State) (c : Word) : Remapped := if s.act.flt then remapFlt s c else remapInt s c.toNat

/-- The value the cell of a sample holds after the remap, its baseline being the sample (R174). -/
def remappedValue (s : State) (c : Word) : Word :=
  match remapCell s c with
  | .keep => c
  | .out v => v

/-- The rule of `PIXEL` (R174). -/
def pixelBody (s : State) : CmdResult :=
  if s.status.ready = false ∨ s.status.expValid = false then .raised .notReady s
  else if sampleValid s (pixelSample s) = false then .raised .sample s
  else .ok { s with result := remappedValue s (pixelSample s) }

/-- `PIXEL` (R174). -/
def execPixel (s : State) : Host.Outcome State Fault Refusal := runCommand false pixelBody s

/-- The writes of the baseline copy: every cell of the region, bit for bit (R175). -/
def copyWrites (s : State) : List (Nat × Word) :=
  (positions s.geom).map fun p => (dstAddr s.geom p, srcCell s p)

/-- The loop of `COPY`, shared with `XFORM` (R175, R177). -/
def copyPlane (s : State) : State := { s with dst := Plane.writeCells s.dst (cellBytes s) (copyWrites s) }

/-- The rule of `COPY` (R175). -/
def copyBody (s : State) : CmdResult :=
  if s.status.ready = false then .raised .notReady s
  else
    checkGeometry true
      (needBacked srcRegionBacked .unbackedSource
        (needBacked dstRegionBacked .unbackedDestination (fun t => .ok (copyPlane t))))
      { s with status := flagsPlaneStart s.status }

/-- `COPY` (R175). -/
def execCopy (s : State) : Host.Outcome State Fault Refusal := runCommand false copyBody s

/-- The write of one position of the remap, if it makes one (R176). -/
def remapWrite (s : State) (p : Nat × Nat) : Option (Nat × Word) :=
  match remapCell s (srcCell s p) with
  | .keep => none
  | .out v => some (dstAddr s.geom p, v)

/-- The writes of the remap over the region, in row-major order (R176). -/
def remapWrites (s : State) : List (Nat × Word) := (positions s.geom).filterMap (remapWrite s)

/-- Is every destination cell that the remap writes backed? Cells of bad samples are never written (R68, R176). -/
def remapTargetsBacked (s : State) : Bool :=
  (positions s.geom).all fun p =>
    sampleValid s (srcCell s p) == false || (remapWrite s p).isNone || dstCellBacked s p

/-- The loop of `REMAP`, shared with `XFORM` (R176, R177). -/
def remapPlane (s : State) : CmdResult :=
  if (srcSamples s).all (sampleValid s) = false then .raised .sample s
  else .ok { s with dst := Plane.writeCells s.dst (cellBytes s) (remapWrites s) }

/-- The rule of `REMAP` (R176); an error in the loop leaves the region unspecified (R206). Its readiness error keeps
`FRAME_VALID`, as R24 (D27), R176 and R205 say; R206's words can be read otherwise (the model's reading, log entry 25). -/
def remapBody (s : State) : CmdResult :=
  if s.status.ready = false ∨ s.status.expValid = false then .raised .notReady s
  else
    checkGeometry true
      (needBacked srcRegionBacked .unbackedSource
        (needBacked remapTargetsBacked .unbackedDestination (fun t => onRaise scrambleRegion (remapPlane t))))
      { s with status := flagsPlaneStart s.status }

/-- `REMAP` (R176). -/
def execRemap (s : State) : Host.Outcome State Fault Refusal := runCommand false remapBody s

/-- Steps 1 to 4 of `XFORM`, after its checks (R177). -/
def xformSteps (s : State) : CmdResult :=
  andThen (averagePlane (copyPlane s)) fun t => andThen (deriveExponent t) remapPlane

/-- The rule of `XFORM` (R177); an error past the geometry check leaves the region unspecified (R206). -/
def xformBody (s : State) : CmdResult :=
  if s.status.ready = false then .raised .notReady s
  else
    checkGeometry true
      (needBacked srcRegionBacked .unbackedSource
        (needBacked dstRegionBacked .unbackedDestination fun t =>
          onRaise scrambleRegion
            (andThen (xformSteps t) fun u => .ok { u with status := flagsFrameDone u.status })))
      { s with status := flagsXformStart s.status }

/-- `XFORM` (R177). -/
def execXform (s : State) : Host.Outcome State Fault Refusal := runCommand false xformBody s

end Sys2Proof.Machine
end

