-- ==== Sys2Proof/Machine/Dispatch.lean ====
section
/-! DEFINITION. Machine/Dispatch.lean: one arm per command, each one call of its meaning. A meaning is the whole of
R110 for its command, arriving while the block is not busy: acceptance, the command's own rule, completion. -/

namespace Sys2Proof.Machine

def exec (i : Instr) (s : State) : Host.Outcome State Fault Refusal :=
  match i with
  | .nop => Sys2Proof.Machine.execNop s
  | .init => Sys2Proof.Machine.execInit s
  | .clrerr => Sys2Proof.Machine.execClrerr s
  | .sreset => Sys2Proof.Machine.execSreset s
  | .poly => Sys2Proof.Machine.execPoly s
  | .lut => Sys2Proof.Machine.execLut s
  | .avg => Sys2Proof.Machine.execAvg s
  | .expo => Sys2Proof.Machine.execExpo s
  | .copy => Sys2Proof.Machine.execCopy s
  | .pixel => Sys2Proof.Machine.execPixel s
  | .remap => Sys2Proof.Machine.execRemap s
  | .xform => Sys2Proof.Machine.execXform s

end Sys2Proof.Machine
end

