-- ==== Sys2Proof/Machine/Sequencer.lean ====
section
/-! DEFINITION. Machine/Sequencer.lean: running a command word (R110), and the hidden sequencer of a command whose
busy interval the host can see (R46): its phases, its positions and what it touches. -/

namespace Sys2Proof.Machine

/-- A word that is no command: nothing executes and `ERR_ILLEGAL_CMD` is raised (R92, R110). -/
def illegalCommand (s : State) : State := raiseError .illegalCmd (accept s)

/-- The whole of R110 for a word that arrives while the block is not busy. -/
def runWord (w : Word) (s : State) : Host.Outcome State Fault Refusal :=
  match decode w with
  | .ok i => exec i s
  | .error _ => .next (illegalCommand s)

/-- Is the command accepted while `ERR.CODE` is not zero (R110)? -/
def exemptFromError : Instr → Bool
  | .nop => true
  | .clrerr => true
  | .sreset => true
  | .init => false
  | .poly => false
  | .lut => false
  | .avg => false
  | .expo => false
  | .copy => false
  | .pixel => false
  | .remap => false
  | .xform => false

/-- Does the command get past its readiness and geometry tests to a plane pass (R156, R175 to R177)? -/
def reachesPlanes (i : Instr) (s : State) : Bool :=
  s.err == 0#8 && s.status.ready &&
  match i with
  | .avg => (geomCheck false s.geom).isNone
  | .copy => (geomCheck true s.geom).isNone
  | .remap => s.status.expValid && (geomCheck true s.geom).isNone
  | .xform => (geomCheck true s.geom).isNone
  | _ => false

/-- Does the command build a table (R112)? -/
def buildsTable (s : State) : Bool := s.err == 0#8 && (requestError s.req).isNone && !s.req.format.flt

/-- The first phase of an accepted command (R46); a command with no loop of its own leaves the sequencer in `IDLE`. -/
def firstPhase (i : Instr) (s : State) : Phase :=
  match i with
  | .nop => .idle
  | .clrerr => .idle
  | .sreset => .idle
  | .init => if buildsTable s then .build else .idle
  | .poly => .probe
  | .lut => .probe
  | .pixel => .probe
  | .expo => .expo
  | .avg => if reachesPlanes i s then .sum else .idle
  | .copy => if reachesPlanes i s then .copy else .idle
  | .xform => if reachesPlanes i s then .copy else .idle
  | .remap => if reachesPlanes i s then .remap else .idle

/-- Is the command rejected because an error is pending (R110)? -/
def rejected (i : Instr) (s : State) : Bool := s.err != 0#8 && !exemptFromError i

/-- The sequencer of a command just accepted: at its first position, or in `IDLE` if it is rejected (R46, R110). -/
def startSequencer (i : Instr) (w : Word) (s : State) : Sequencer :=
  ⟨if rejected i s then .idle else firstPhase i s, 0, 0, 0, some w⟩

/-- The position after `(row, col)` in row-major order, none after the last (R46). -/
def nextPosition (g : Geometry) (row col : Nat) : Option (Nat × Nat) :=
  if col + 1 < regionWidth g then some (row, col + 1)
  else if row + 1 < regionHeight g then some (row + 1, 0)
  else none

/-- The phase that follows a finished one: only `XFORM` has more than one (R177). -/
def phaseAfter (i : Instr) (p : Phase) : Option Phase :=
  if i = .xform then
    match p with
    | .copy => some .sum
    | .sum => some .expo
    | .expo => some .remap
    | .remap | .idle | .build | .probe => none
  else none

/-- Entering a phase at its first position. -/
def enterPhase (q : Sequencer) (p : Option Phase) : Option Sequencer :=
  match p with
  | some p => some { q with phase := p, row := 0, col := 0 }
  | none => none

/-- The sequencer's next position, none when the command has none left (R46). It does not look at samples: a command that
will raise an error in a pass still goes through all its positions and phases, and the error appears at its completion,
though R118 lets `raise Error` leave early (the model's choice, log entry 10). -/
def nextSequencer (w : Word) (s : State) : Option Sequencer :=
  match decode w with
  | .error _ => none
  | .ok i =>
    match s.seq.phase with
    | .idle => none
    | .probe => none
    | .build =>
      if s.seq.index < (descriptorRow s.params s.req.format.bits).peak.toNat then
        some { s.seq with index := s.seq.index + 1 }
      else none
    | .expo => enterPhase s.seq (phaseAfter i .expo)
    | .copy | .sum | .remap =>
      match nextPosition s.geom s.seq.row s.seq.col with
      | some p => some { s.seq with row := p.1, col := p.2 }
      | none => enterPhase s.seq (phaseAfter i s.seq.phase)

/-- The command in execution. -/
def running (s : State) : Option Instr :=
  match s.seq.word with
  | none => none
  | some w =>
    match decode w with
    | .ok i => some i
    | .error _ => none

/-- Does the command in execution own its source region (R234)? -/
def runningReads (s : State) : Bool :=
  match running s with
  | some .avg | some .copy | some .remap | some .xform => true
  | _ => false

/-- Does the command in execution own its destination region (R236)? -/
def runningWrites (s : State) : Bool :=
  match running s with
  | some .copy | some .remap | some .xform => true
  | _ => false

/-- Is the command in execution one that is writing a destination region (R230)? -/
def writingRegion (s : State) : Bool :=
  match running s with
  | some .copy => reachesPlanes .copy s
  | some .remap => reachesPlanes .remap s
  | some .xform => reachesPlanes .xform s
  | _ => false

end Sys2Proof.Machine
end

