-- ==== Sys2Proof/Machine/Port.lean ====
section
/-! DEFINITION. Machine/Port.lean: what each event at the block's boundary does (R22, R94, R110, R230, R233 to
R236). -/

namespace Sys2Proof.Machine

/-- A register access the spec defines goes on to the register at its offset; a reserved offset has none (R22, R66). -/
def portAccess (width : PortWidth) (off : Nat) (k : Option Reg → Host.Outcome State Fault Refusal) :
    Host.Outcome State Fault Refusal :=
  if portBytes ≤ off then .refused .outsidePort
  else if portAccessWf width off = false then .refused .portAccess
  else k (regAt off)

/-- A write to `CMD`: dropped while busy, else the whole command as one atomic step (R110, R239). -/
def writeCmd (w : Word) (s : State) : Host.Outcome State Fault Refusal :=
  if s.status.busy then .next s else runWord w s

/-- `WR off, v` (R22, R94): while busy a write to a RW register is a hazard (R233). -/
def portWrite (width : PortWidth) (off : Nat) (v : Word) (s : State) : Host.Outcome State Fault Refusal :=
  portAccess width off fun r =>
    match r with
    | none => .next s
    | some .cmd => writeCmd v s
    | some r =>
      if s.status.busy = true ∧ accessOf r = .rw then .refused .busyRegisterWrite else .next (writeRegister r v s)

/-- `RD off` (R22, R94): a reserved offset reads 0. -/
def portRead (width : PortWidth) (off : Nat) (s : State) : Host.Outcome State Fault Refusal :=
  portAccess width off fun r =>
    match r with
    | none => .next { s with rdata := 0#32 }
    | some r => .next (readRegister r s)

/-- A write to `CMD` whose busy interval the host can see: dropped while busy; an illegal word completes at once; any
other is accepted and left running (R110). -/
def issueCmd (w : Word) (s : State) : Host.Outcome State Fault Refusal :=
  if s.status.busy then .next s
  else
    match decode w with
    | .ok i => .next { accept s with seq := startSequencer i w s }
    | .error _ => runWord w s

/-- The sequencer moves on by one position, and the command ends after its last one (R46); while the block is idle
nothing happens (R215). A tick past a cell the platform does not back goes on, and the command is stuck at its end
(R68; the model's choice, log entry 10). -/
def tickSequencer (s : State) : Host.Outcome State Fault Refusal :=
  match s.seq.word with
  | none => .next s
  | some w =>
    match nextSequencer w s with
    | some q => .next { s with seq := q }
    | none => runWord w s

/-- `WAIT` (R96): the command in execution runs to its end; while the block is idle it is empty. -/
def waitDone (s : State) : Host.Outcome State Fault Refusal :=
  match s.seq.word with
  | none => .next s
  | some w => runWord w s

/-- The hardware reset input (R230): a command that was writing a destination region leaves it unspecified. It is accepted
as well where the command would be stuck on a cell the platform does not back (R68; the model's choice, log entry
14). -/
def hardwareReset (s : State) : State :=
  blockReset (if writingRegion s then scrambleRegion s else s)

/-- May the host not write this plane byte now? The source and the destination region of a command in execution are
the block's (R234, R236). -/
def writeForbidden (p : PlaneId) (a : Nat) (s : State) : Bool :=
  match p with
  | .src => runningReads s && inSrcRegion s a
  | .dst => runningWrites s && inDstRegion s a

/-- May the host not read this plane byte now (R236)? -/
def readForbidden (p : PlaneId) (a : Nat) (s : State) : Bool :=
  match p with
  | .src => false
  | .dst => runningWrites s && inDstRegion s a

/-- The plane memory a host access names. -/
def planeOf (p : PlaneId) (s : State) : Plane :=
  match p with
  | .src => s.src
  | .dst => s.dst

/-- The fault of an unbacked byte of a plane memory (R68). -/
def unbackedFault : PlaneId → Fault
  | .src => .unbackedSource
  | .dst => .unbackedDestination

/-- A host access to a plane byte: inside the space, backed, and not one the hazards forbid. -/
def planeAccess (p : PlaneId) (a : Nat) (forbidden : Bool) (s t : State) : Host.Outcome State Fault Refusal :=
  if planeBytes ≤ a then .fault .outsidePlane
  else if Plane.byteBacked (planeOf p s) a = false then .fault (unbackedFault p)
  else if forbidden then .refused .busyPlaneAccess
  else .next t

/-- The host writes a plane byte through the platform (R60, R65). The block sees it at once: that the platform has made the
write visible to the block's read port, its duty by R72 (4), is the model's premise (log entry 16). -/
def pokeByte (p : PlaneId) (a : Nat) (b : Byte) (s : State) : State :=
  match p with
  | .src => { s with src := Plane.writeByte s.src a b }
  | .dst => { s with dst := Plane.writeByte s.dst a b }

/-- The host reads a plane byte through the platform (R60, R65). -/
def peekByte (p : PlaneId) (a : Nat) (s : State) : State :=
  { s with rdata := (Plane.readByte (planeOf p s) a).setWidth 32 }

/-- What an event does. -/
def hostStep (op : HostOp) (s : State) : Host.Outcome State Fault Refusal :=
  match op with
  | .write width off v => portWrite width off v s
  | .read width off => portRead width off s
  | .issue w => issueCmd w s
  | .tick => tickSequencer s
  | .wait => waitDone s
  | .rst => .next (hardwareReset s)
  | .poke p a b => planeAccess p a (writeForbidden p a s) s (pokeByte p a b s)
  | .peek p a => planeAccess p a (readForbidden p a s) s (peekByte p a s)

/-- The next event, if one waits; with none the block keeps all its state (R215). -/
def stepInbox (s : State) : Host.Outcome State Fault Refusal :=
  match s.inbox with
  | [] => .next s
  | op :: rest => hostStep op { s with inbox := rest }

/-- The host's next event is a write of the word to `CMD`, and no command is in execution. -/
def withCommand (s : State) (w : Word) : State :=
  { s with
    status := { s.status with busy := false }
    seq    := Sequencer.idle
    inbox  := .write .word 0x04 w :: s.inbox }

end Sys2Proof.Machine
end

