-- ==== Sys2Proof/Machine/Step.lean ====
section
/-! DEFINITION. Machine/Step.lean: one step of the machine, and how the host's tests place a command where the next
step meets it. The block fetches nothing (R46, R75): its next command is the next host write to `CMD`. -/

namespace Sys2Proof.Machine

/-- One step: the block meets the oldest waiting event. -/
def step (s : State) : Host.Outcome State Fault Refusal := stepInbox s

/-- The command word, as the opcode table numbers its bits, becomes the host's next write to `CMD`. -/
def State.withFetchWord (s : State) (nbits w : Nat) : State := withCommand s (BitVec.ofNat 32 (w % 2 ^ nbits))

end Sys2Proof.Machine
end

