-- ==== Sys2Proof/Machine/Script.lean ====
section
/-! DEFINITION. Machine/Script.lean: the host script notation (R96): each statement as the events it makes. -/

namespace Sys2Proof.Machine

/-- The byte offset of a register: its place in the map (R22). -/
def offsetOf (r : Reg) : Nat := 4 * regMap.idxOf r

/-- `WR <REG>, <value>`. -/
def scriptWR (r : Reg) (v : Word) : HostOp := .write .word (offsetOf r) v

/-- `RD <REG>`. -/
def scriptRD (r : Reg) : HostOp := .read .word (offsetOf r)

/-- `CMD <MNEMONIC>`: `WR CMD` with the command's word. -/
def scriptCMD (i : Instr) : HostOp := scriptWR .cmd (encode i)

/-- `SETUP bits, flt, fade, ls`; `ls` is the binary32 pattern. -/
def scriptSETUP (bits : Nat) (flt fade : Bool) (ls : Word) : List HostOp :=
  [scriptWR .format (BitVec.ofNat 32 (bits + if flt then 64 else 0)), scriptWR .mode (modeWord fade),
   scriptWR .lumaScaling ls, scriptCMD .init, .wait]

/-- `FRAME w, h, sb, ss, db, ds`. -/
def scriptFRAME (w h sb ss db ds : Word) : List HostOp :=
  [scriptWR .width w, scriptWR .height h, scriptWR .srcBase sb, scriptWR .srcStride ss, scriptWR .dstBase db,
   scriptWR .dstStride ds]

/-- `RUN <MNEMONIC>`. -/
def scriptRUN (i : Instr) : List HostOp := [scriptCMD i, .wait]

end Sys2Proof.Machine
end

