-- ==== Sys2Proof/Safety.lean ====
section
/-! DEFINITION. Safety.lean: what the claims call a safe state and a safe run. The host's hazards (R233 to R236) are
refusals of `step`, so a step that answers a next state is one in which the host kept them (R239). -/

namespace Sys2Proof.Safety

open Sys2Proof.Machine

/-- The machine goes on. -/
def StepsSafely (s : State) : Prop := ∃ t, step s = .next t

/-- The plane memories are in canonical form. -/
def MemoriesCanonical (s : State) : Prop := Memory.wf s.src.bytes = true ∧ Memory.wf s.dst.bytes = true

/-- `STATUS.ERROR` says that `ERR` is not zero (R24), and no reserved code stands in `ERR` (R201). -/
def ErrorFlagTracksCode (s : State) : Prop := (s.status.error = true ↔ s.err ≠ 0#8) ∧ s.err.toNat ≤ 9

/-- `READY = 1`: the active configuration is a legal one, and the descriptor, `TBL_VALID` and the table are the ones
that belong to it. `READY = 0`: all of them are cleared, and no other validity flag stands (R24, R41, R43, R44). -/
structure FilterConsistent (s : State) : Prop where
  cleared : s.status.ready = false →
    s.act = ActiveConfig.none ∧ s.desc = Descriptor.none ∧ s.table = [] ∧ s.status.tblValid = false ∧
    s.status.avgValid = false ∧ s.status.expValid = false ∧ s.status.frameValid = false
  integer : s.status.ready = true → s.act.flt = false →
    integerDepth s.act.bits = true ∧ s.desc = descriptorRow s.params s.act.bits ∧
    s.table = buildTable s.desc.peak.toNat ∧ s.status.tblValid = true
  float : s.status.ready = true → s.act.flt = true →
    s.act.bits = 32#6 ∧ s.desc = Descriptor.none ∧ s.table = [] ∧ s.status.tblValid = false
  scaling : s.status.ready = true → isfinite32 s.act.ls = true

/-- `EXP_VALID` stands only beside `AVG_VALID`, and a valid exponent is finite (R24, R159). -/
def ExponentSound (s : State) : Prop :=
  s.status.expValid = true → s.status.avgValid = true ∧ isfinite32 s.exp = true

/-- On the integer path a valid average lies in `[0, 1]` (R151, R159). -/
def IntegerAverageInUnit (s : State) : Prop :=
  s.status.avgValid = true → s.act.flt = false →
    le32 0x00000000#32 s.avg = true ∧ le32 s.avg 0x3F800000#32 = true

/-- The sequencer: a command word stands in it exactly while `BUSY = 1`, `DONE` is clear then, and between commands
it is `IDLE` (R46, R49, R110). -/
def SequencerTracksBusy (s : State) : Prop :=
  (s.status.busy = true ↔ s.seq.word.isSome = true) ∧ (s.status.busy = true → s.status.done = false) ∧
  (s.status.busy = false → s.seq = Sequencer.idle)

/-- The sequencer's counters stay inside the region in every phase that visits positions (and while `XFORM` stands
between two of them), and inside the table in the build phase (R46). -/
def SequencerInRange (s : State) : Prop :=
  ((s.seq.phase = .copy ∨ s.seq.phase = .sum ∨ s.seq.phase = .remap ∨
      (s.seq.phase = .expo ∧ running s = some .xform)) →
    s.seq.row < regionHeight s.geom ∧ s.seq.col < regionWidth s.geom) ∧
  (s.seq.phase = .build → s.seq.index ≤ (descriptorRow s.params s.req.format.bits).peak.toNat)

/-- A command has ended from this state: `BUSY` clear, `DONE` set, the sequencer `IDLE` (its zeros are
log entry 10), nothing else. -/
def completed (s : State) : State :=
  { s with status := { s.status with busy := false, done := true }, seq := Sequencer.idle }

/-- A command has ended with a first error from this state: as `completed`, with the code in `ERR` and `ERROR` set. -/
def failed (code : BitVec 8) (s : State) : State :=
  { s with
    err    := code
    status := { s.status with busy := false, done := true, error := true }
    seq    := Sequencer.idle }

/-- No filter is constructed: what a failed `INIT` leaves of the active state (R112). -/
def unconstructed (s : State) : State :=
  { s with
    status := { s.status with
      ready := false, tblValid := false, avgValid := false, expValid := false, frameValid := false }
    act    := ⟨0#6, false, false, 0#32⟩
    desc   := ⟨0#16, 0#16, 0#16, 0#16, 0#16, 0#16, 0#16⟩
    table  := [] }

/-- The writable bits of a RW register (R22, R26 to R35, R40). -/
def writableBits : Reg → Word
  | .irqEn => 0x00000003#32
  | .format => 0x0000037F#32
  | .mode => 0x00000001#32
  | .width | .height => 0x0000FFFF#32
  | .lumaScaling | .srcBase | .srcStride | .dstBase | .dstStride | .arg => 0xFFFFFFFF#32
  | .id | .cmd | .status | .err | .result | .avg | .exponent | .sumLo | .sumHi | .actFormat | .actLs | .fdPeak
  | .fdYmin | .fdY1 | .fdY2 | .fdYmax | .fdD0 | .fdD1 => 0#32

/-- The largest sample values of the integer formats (R5). -/
def peaks : List Nat := [255, 1023, 4095, 16383, 65535]

/-- Every sample of the active region is one the active format admits (R150, R152). -/
def SamplesValid (s : State) : Prop := ∀ p ∈ positions s.geom, sampleValid s (srcCell s p) = true

/-- The cell at sample address `a`, cells being `n` bytes wide, has a byte that the platform does not back (R68). -/
def CellUnbacked (p : Plane) (n a : Nat) : Prop :=
  ∃ k < n, ∃ r ∈ p.unbacked, r.1 ≤ a * n + k ∧ a * n + k < r.1 + r.2

/-- A plane differs from another in no byte outside the cells of the active destination region (R64). -/
def SameOutsideRegion (s : State) (d e : Plane) : Prop :=
  d.unbacked = e.unbacked ∧
  ∀ a, (∀ y < s.geom.height.toNat, ∀ x < s.geom.width.toNat,
      a / cellBytes s ≠ s.geom.dstBase.toNat + y * s.geom.dstStride.toNat + x) →
    Plane.readByte d a = Plane.readByte e a

/-- The value of a binary32 pattern without its sign; the pattern of `+inf` counts as `2^128`, so that overflow is
rounding to it. -/
def patternValue (n : Nat) : ℚ := (magOfPattern binary32 n : ℚ) / (unitMag binary32 : ℚ)

/-- The signed value of a finite binary32 datum. -/
def datumValue : Fp → ℚ
  | .nan => 0
  | .inf _ => 0
  | .fin neg mag => (if neg then -1 else 1) * (mag : ℚ) / (unitMag binary32 : ℚ)

/-- The pattern `r` is the binary32 value nearest the non-negative real `x`, ties to even. -/
def NearestPattern (r : Nat) (x : ℝ) : Prop :=
  r ≤ infPattern binary32 ∧ ∀ n, n ≤ infPattern binary32 →
    |(patternValue r : ℝ) - x| ≤ |(patternValue n : ℝ) - x| ∧
      (|(patternValue r : ℝ) - x| = |(patternValue n : ℝ) - x| → n = r ∨ r % 2 = 0)

/-- The recommended instance of the power unit: correctly rounded (R137). It is a premise a claim may carry (D10); the
model does not assume it. -/
def PowCorrectlyRounded : Prop :=
  ∀ b e : Word, isfinite32 b = true → gt32 b f32Zero = true → b ≠ f32One → isfinite32 e = true →
    eq32 e f32Zero = false →
    NearestPattern (POW b e).toNat ((datumValue (fp32 b) : ℝ) ^ (datumValue (fp32 e) : ℝ))

end Sys2Proof.Safety
end

