-- ==== Sys2Proof/Certificates/Slice0/Obligations.lean ====
section
/-! DEFINITION. Certificates/Slice0/Obligations.lean: the statements about the model.
Where a statement says that the sequencer is idle, the phase is R49's, and the zeros of its position and index are the
model's choice (log entry 10). -/

open Sys2Proof Sys2Proof.Machine Sys2Proof.Safety

/-- R91: the twelve words of the opcode map, and one word of each kind of illegal command (R92). -/
def Obligations.DecodeReadsTheOpcodeMap : Prop :=
  decode 0x00000000#32 = .ok .nop ∧ decode 0x00000001#32 = .ok .init ∧ decode 0x00000002#32 = .ok .clrerr ∧
  decode 0x00000003#32 = .ok .sreset ∧ decode 0x00000010#32 = .ok .poly ∧ decode 0x00000011#32 = .ok .lut ∧
  decode 0x00000020#32 = .ok .avg ∧ decode 0x00000021#32 = .ok .expo ∧ decode 0x00000030#32 = .ok .copy ∧
  decode 0x00000031#32 = .ok .pixel ∧ decode 0x00000032#32 = .ok .remap ∧ decode 0x00000033#32 = .ok .xform ∧
  decode 0x00000004#32 = .error .unassignedOpcode ∧ decode 0x00000133#32 = .error .reservedBits

/-- Decoding an encoded command gives it back, as a word and as bytes (R90, R91). -/
def Obligations.DecodeEncodeRoundTrip : Prop :=
  ∀ i : Instr, i.wf = true → decode (encode i) = .ok i ∧ decodeBytes (encodeBytes i) = .ok (i, [])

/-- R90: a word either is the word of exactly one command or is illegal, with its reason. -/
def Obligations.EveryOtherWordIsRejected : Prop :=
  (∀ (w : Word) (i : Instr), decode w = .ok i → w = encode i) ∧
  ∀ w : Word, (∀ i, w ≠ encode i) →
    decode w = .error (if w.toNat < 256 then .unassignedOpcode else .reservedBits)

/-- R110, its outer shell: a write to `CMD` while `BUSY = 1` is dropped, and any other legal one runs its command. A
command placed by `withFetchWord` is met by the very next step (the model's form of a program, log entry 1). The events
that show the busy interval are the model's (log entry 10): an issued command is accepted and left running with the
sequencer started, a tick moves the sequencer alone, and the last tick, or a wait, runs the command. -/
def Obligations.StepRunsTheDecodedCommand : Prop :=
  (∀ (s : State) (w : Word) (rest : List HostOp), s.inbox = .write .word 0x04 w :: rest →
    (s.status.busy = true → step s = .next { s with inbox := rest }) ∧
    (s.status.busy = false → ∀ i : Instr, i.wf = true → decode w = .ok i → step s = exec i { s with inbox := rest })) ∧
  (∀ (s : State) (i : Instr),
    step (s.withFetchWord 32 (encode i).toNat) =
      exec i { s with status := { s.status with busy := false }, seq := Sequencer.idle }) ∧
  (∀ (s : State) (w : Word) (rest : List HostOp), s.inbox = .issue w :: rest →
    (s.status.busy = true → step s = .next { s with inbox := rest }) ∧
    (s.status.busy = false → ∀ i : Instr, decode w = .ok i →
      ∃ p : Phase, step s = .next { s with
        inbox := rest
        status := { s.status with busy := true, done := false }
        seq := ⟨p, 0, 0, 0, some w⟩ })) ∧
  (∀ (s : State) (rest : List HostOp) (w : Word) (i : Instr), s.seq.word = some w → decode w = .ok i →
    (s.inbox = .wait :: rest → step s = exec i { s with inbox := rest }) ∧
    (s.inbox = .tick :: rest →
      (nextSequencer w s = none → step s = exec i { s with inbox := rest }) ∧
      ∀ q, nextSequencer w s = some q → step s = .next { s with inbox := rest, seq := q })) ∧
  ∀ (s : State) (rest : List HostOp), s.seq.word = none → s.inbox = .wait :: rest ∨ s.inbox = .tick :: rest →
    step s = .next { s with inbox := rest }

/-- R92: an illegal word executes nothing and raises `ERR_ILLEGAL_CMD`; a pending code stays. -/
def Obligations.IllegalWordRaisesIllegalCommand : Prop :=
  ∀ (s : State) (w : Word) (rest : List HostOp), s.inbox = .write .word 0x04 w :: rest → s.status.busy = false →
    w.toNat ∉ [0x00, 0x01, 0x02, 0x03, 0x10, 0x11, 0x20, 0x21, 0x30, 0x31, 0x32, 0x33] →
    step s = .next (failed (if s.err = 0#8 then 1#8 else s.err) { s with inbox := rest })

/-- R203: `ERR.CODE` is written only when it is 0; while it is not, every command but `NOP`, `CLRERR` and `SRESET` is
rejected without effect, and an illegal word leaves the first code. -/
def Obligations.FirstErrorSticks : Prop :=
  (∀ (i : Instr) (s : State), i ≠ .nop → i ≠ .clrerr → i ≠ .sreset → s.err ≠ 0#8 →
    exec i s = .next (completed s)) ∧
  (∀ (i : Instr) (s t : State), i ≠ .clrerr → i ≠ .sreset → s.err ≠ 0#8 → exec i s = .next t → t.err = s.err) ∧
  (∀ (w : Word) (s t : State), (∀ i, w ≠ encode i) → s.err ≠ 0#8 → runWord w s = .next t → t.err = s.err)

/-- R110: every command ends with `BUSY = 0`, `DONE = 1` and the sequencer `IDLE`, with or without error. -/
def Obligations.CommandsEndIdle : Prop :=
  ∀ (i : Instr) (s t : State), exec i s = .next t →
    t.status.busy = false ∧ t.status.done = true ∧ t.seq = Sequencer.idle

/-- R205: no command but `SRESET` changes a request register, and so no error does. -/
def Obligations.CommandsKeepRequestRegisters : Prop :=
  ∀ (i : Instr) (s t : State), i ≠ .sreset → exec i s = .next t →
    t.req = s.req ∧ t.geom = s.geom ∧ t.arg = s.arg ∧ t.irqEn = s.irqEn

/-- R60, R64: no command writes `S`; only `COPY`, `REMAP` and `XFORM` write `D`. -/
def Obligations.OnlyPlaneCommandsWritePlanes : Prop :=
  (∀ (i : Instr) (s t : State), exec i s = .next t → t.src = s.src) ∧
  (∀ (i : Instr) (s t : State), i ≠ .copy → i ≠ .remap → i ≠ .xform → exec i s = .next t → t.dst = s.dst)

/-- R41, R44: the active configuration, the descriptor, the table and `READY` change at `INIT` and reset only. R231: the
implementation's parameters change at no command. -/
def Obligations.OnlyInitAndResetChangeTheFilter : Prop :=
  (∀ (i : Instr) (s t : State), i ≠ .init → i ≠ .sreset → exec i s = .next t →
    t.act = s.act ∧ t.desc = s.desc ∧ t.table = s.table ∧ t.status.ready = s.status.ready ∧
    t.status.tblValid = s.status.tblValid) ∧
  ∀ (i : Instr) (s t : State), exec i s = .next t → t.params = s.params

/-- R36, R45: `RESULT` is written by the probes alone, `SUM` and `AVG` by `AVG` and `XFORM`, `EXP` by `EXPO` and
`XFORM`, and `SRESET` clears them. -/
def Obligations.DatapathRegistersHaveTheirWriters : Prop :=
  (∀ (i : Instr) (s t : State), i ≠ .poly → i ≠ .lut → i ≠ .pixel → i ≠ .sreset → exec i s = .next t →
    t.result = s.result) ∧
  (∀ (i : Instr) (s t : State), i ≠ .avg → i ≠ .xform → i ≠ .sreset → exec i s = .next t →
    t.sum = s.sum ∧ t.avg = s.avg) ∧
  (∀ (i : Instr) (s t : State), i ≠ .expo → i ≠ .xform → i ≠ .sreset → exec i s = .next t → t.exp = s.exp)

/-- R64, with R206: whatever its end, a plane command changes no byte of `D` outside the cells of the region. -/
def Obligations.DestinationOutsideRegionUnchanged : Prop :=
  ∀ (i : Instr) (s t : State), i = .copy ∨ i = .remap ∨ i = .xform → exec i s = .next t →
    SameOutsideRegion s t.dst s.dst

/-- R111: `NOP`, word 0, changes `BUSY` and `DONE` alone, with or without a pending error. -/
def Obligations.NopChangesOnlyBusyAndDone : Prop :=
  encode .nop = 0x00000000#32 ∧ ∀ s : State, exec .nop s = .next (completed s)

/-- R113: `CLRERR`, word 2, clears the code and the flag and restores nothing. -/
def Obligations.ClrerrClearsTheError : Prop :=
  encode .clrerr = 0x00000002#32 ∧
  ∀ s : State,
    exec .clrerr s = .next { s with
      err    := 0#8
      status := { s.status with busy := false, done := true, error := false }
      seq    := Sequencer.idle }

/-- R114: `SRESET`, word 3, gives the reset state with `DONE = 1`; the planes and the parameters stay (R231), and while a
command runs the write is dropped. That `SUM`, `AVG` and `EXP` are 0 is the model's choice (log entry 8), and so is what
stays of its own fields: `inbox` (log entry 1), `rdata` (15), `draws` (3), `params` (7). -/
def Obligations.SresetGivesTheResetState : Prop :=
  encode .sreset = 0x00000003#32 ∧
  (∀ s : State,
    exec .sreset s = .next { State.reset with
      status := { State.reset.status with done := true }
      src := s.src, dst := s.dst, inbox := s.inbox, rdata := s.rdata, params := s.params, draws := s.draws }) ∧
  (∀ (s : State) (rest : List HostOp), s.inbox = .write .word 0x04 (encode .sreset) :: rest →
    s.status.busy = true → step s = .next { s with inbox := rest })

/-- R230, R231: the hardware reset is accepted in every state, gives the reset values, and leaves `S`, the parameters and
the bytes of `D` outside the region of the command it abandoned; if that command was writing no region, or none was in
execution, it leaves all of `D`. The model's choices in it: `SUM`, `AVG` and `EXP` are 0 (log entry 8), `inbox`, `rdata`
and `params` stay (1, 15, 7), `draws` is free (3), and `rst` is accepted also during a command on a region that the
platform does not back (14). -/
def Obligations.HardwareResetAtAnyTime : Prop :=
  ∀ (s : State) (rest : List HostOp), s.inbox = .rst :: rest →
    ∃ (d : Plane) (draws : Nat),
      step s = .next { State.reset with
        src := s.src, dst := d, inbox := rest, rdata := s.rdata, params := s.params, draws := draws } ∧
      SameOutsideRegion s d s.dst ∧ (writingRegion s = false → d = s.dst) ∧
      (s.seq.word ∉ [some 0x00000030#32, some 0x00000032#32, some 0x00000033#32] ∨ s.err ≠ 0#8 ∨
        s.status.ready = false → d = s.dst)

/-- R112, R132: `INIT` of an integer format latches the request, loads the descriptor row and builds the table. The rows
of 10, 12 and 14 bits are those of the implementation's parameters, whatever they are (log entry 7). -/
def Obligations.InitConstructsIntegerFilter : Prop :=
  ∀ s : State, s.err = 0#8 → s.req.format.family = 0#2 → s.req.format.flt = false →
    s.req.format.bits ∈ [8#6, 10#6, 12#6, 14#6, 16#6] → isfinite32 s.req.ls = true →
    exec .init s = .next { s with
      status := { s.status with
        busy := false, done := true, ready := true, tblValid := true, avgValid := false, expValid := false,
        frameValid := false }
      act   := ⟨s.req.format.bits, false, s.req.fade, s.req.ls⟩
      desc  := descriptorRow s.params s.req.format.bits
      table := (List.range (2 ^ s.req.format.bits.toNat)).map fun i =>
        poly (fdiv32 (u2f32 i) (u2f32 (2 ^ s.req.format.bits.toNat - 1)))
      seq   := Sequencer.idle }

/-- R112, R43: `INIT` of the float format latches the request and has neither a descriptor nor a table. -/
def Obligations.InitConstructsFloatFilter : Prop :=
  ∀ s : State, s.err = 0#8 → s.req.format.family = 0#2 → s.req.format.flt = true → s.req.format.bits = 32#6 →
    isfinite32 s.req.ls = true →
    exec .init s = .next { s with
      status := { s.status with
        busy := false, done := true, ready := true, tblValid := false, avgValid := false, expValid := false,
        frameValid := false }
      act   := ⟨32#6, true, s.req.fade, s.req.ls⟩
      desc  := ⟨0#16, 0#16, 0#16, 0#16, 0#16, 0#16, 0#16⟩
      table := []
      seq   := Sequencer.idle }

/-- R112, R204: a failing `INIT` reports the family, then the depth, then the scaling, and constructs nothing. -/
def Obligations.InitReportsTheFirstError : Prop :=
  ∀ s : State, s.err = 0#8 →
    (s.req.format.family ≠ 0#2 → exec .init s = .next (failed 2#8 (unconstructed s))) ∧
    (s.req.format.family = 0#2 →
      (s.req.format.flt = false ∧ s.req.format.bits ∉ [8#6, 10#6, 12#6, 14#6, 16#6] ∨
        s.req.format.flt = true ∧ s.req.format.bits ≠ 32#6) →
      exec .init s = .next (failed 3#8 (unconstructed s))) ∧
    (s.req.format.family = 0#2 →
      (s.req.format.flt = false ∧ s.req.format.bits ∈ [8#6, 10#6, 12#6, 14#6, 16#6] ∨
        s.req.format.flt = true ∧ s.req.format.bits = 32#6) →
      isfinite32 s.req.ls = false → exec .init s = .next (failed 4#8 (unconstructed s)))

/-- R42: whatever the parameters, the printed 8-bit and 16-bit rows and the peak of all five depths; with the values that
the spec decides for 10, 12 and 14 bits (log entry 7), those three rows and the order of the constants of every row. -/
def Obligations.DescriptorRowsAreOrdered : Prop :=
  (∀ p : Params,
    descriptorRow p 8#6 = ⟨255#16, 16#16, 17#16, 18#16, 235#16, 85#16, 170#16⟩ ∧
    descriptorRow p 16#6 = ⟨65535#16, 4096#16, 4352#16, 4608#16, 60160#16, 21760#16, 43520#16⟩ ∧
    ∀ b ∈ [8#6, 10#6, 12#6, 14#6, 16#6], (descriptorRow p b).peak.toNat = 2 ^ b.toNat - 1) ∧
  descriptorRow Params.decided 10#6 = ⟨1023#16, 64#16, 68#16, 72#16, 940#16, 340#16, 680#16⟩ ∧
  descriptorRow Params.decided 12#6 = ⟨4095#16, 256#16, 272#16, 288#16, 3760#16, 1360#16, 2720#16⟩ ∧
  descriptorRow Params.decided 14#6 = ⟨16383#16, 1024#16, 1088#16, 1152#16, 15040#16, 5440#16, 10880#16⟩ ∧
  ∀ b ∈ [8#6, 10#6, 12#6, 14#6, 16#6],
    let row := descriptorRow Params.decided b
    0 < row.ymin.toNat ∧ row.ymin.toNat < row.y1.toNat ∧ row.y1.toNat < row.y2.toNat ∧
    row.y2.toNat < row.ymax.toNat ∧ row.ymax.toNat ≤ row.peak.toNat ∧ row.d0.toNat ≤ row.peak.toNat ∧
    row.d1.toNat ≤ row.peak.toNat

/-- R134: `POLY`, word 0x10, needs no filter and writes the polynomial of `ARG`, nothing else; for a NaN it writes some
NaN (its sign and payload are a free value, drawn with the model's own counter, log entry 3). -/
def Obligations.PolyWritesThePolynomial : Prop :=
  encode .poly = 0x00000010#32 ∧
  ∀ s : State, s.err = 0#8 →
    let t1 := fsub32 (fmul32 s.arg 0x41918106#32) 0x4235E148#32
    let t2 := fadd32 (fmul32 s.arg t1) 0x42127EFA#32
    let t3 := fsub32 (fmul32 s.arg t2) 0x411774BC#32
    let t4 := fadd32 (fmul32 s.arg t3) 0x3F8FDF3B#32
    let y := fsub32 0x3F800000#32 (fmul32 s.arg t4)
    (isnan32 s.arg = false → exec .poly s = .next (completed { s with result := y })) ∧
    (isnan32 s.arg = true →
      ∃ (v : Word) (d : Nat), isnan32 v = true ∧
        exec .poly s = .next (completed { s with result := v, draws := d }))

/-- R131: the polynomial is a NaN exactly on a NaN. -/
def Obligations.PolyIsNaNExactlyOnNaN : Prop := ∀ x : Word, isnan32 (poly x) = isnan32 x

/-- R135: `LUT`, word 0x11, reads the table entry; it needs an integer filter and an index at most `PEAK`. -/
def Obligations.LutReadsTheTable : Prop :=
  encode .lut = 0x00000011#32 ∧
  ∀ s : State, s.err = 0#8 →
    (s.status.ready = false ∨ s.status.tblValid = false → exec .lut s = .next (failed 5#8 s)) ∧
    (s.status.ready = true → s.status.tblValid = true → s.desc.peak.toNat < s.arg.toNat →
      exec .lut s = .next (failed 8#8 s)) ∧
    (s.status.ready = true → s.status.tblValid = true → s.arg.toNat ≤ s.desc.peak.toNat →
      ∀ v, s.table[s.arg.toNat]? = some v → exec .lut s = .next (completed { s with result := v }))

/-- R150, R151, R156: `AVG` of a valid integer plane writes the exact sum and the normalised average. -/
def Obligations.AvgOfIntegerPlane : Prop :=
  ∀ s : State, s.err = 0#8 → s.status.ready = true → s.act.flt = false → geomCheck false s.geom = none →
    srcRegionBacked s = true → SamplesValid s →
    let samples := (List.range s.geom.height.toNat).flatMap fun y => (List.range s.geom.width.toNat).map fun x =>
      Plane.readCell s.src (cellBytes s) (s.geom.srcBase.toNat + y * s.geom.srcStride.toNat + x)
    exec .avg s = .next { s with
      status := { s.status with
        busy := false, done := true, avgValid := true, expValid := false }
      sum := BitVec.ofNat 64 (samples.map BitVec.toNat).sum
      avg := f64to32 (fdiv64 (fdiv64 (u2f64 (samples.map BitVec.toNat).sum)
        (u2f64 (s.geom.width.toNat * s.geom.height.toNat))) (u2f64 s.desc.peak.toNat))
      seq := Sequencer.idle }

/-- R152 to R154, R156: `AVG` of a valid float plane writes the sum that `FSUM` gives and its quotient: with the default
`FSUM` the left-to-right binary64 sum, and with any other one an average within `AVG_ULP_TOL` of the default's. Samples
in `[0, 1]` average to `[+0.0, 1.0]`, and samples `+0.0` to `+0.0`. The measure of the tolerance, and that R153's bounds
hold of every `FSUM`, are log entry 5. That `AVG` keeps its bits on failure is the pseudocode's (log entry 19). -/
def Obligations.AvgOfFloatPlane : Prop :=
  ∀ s : State, s.err = 0#8 → s.status.ready = true → s.act.flt = true → geomCheck false s.geom = none →
    srcRegionBacked s = true → SamplesValid s →
    let samples := (List.range s.geom.height.toNat).flatMap fun y => (List.range s.geom.width.toNat).map fun x =>
      Plane.readCell s.src (cellBytes s) (s.geom.srcBase.toNat + y * s.geom.srcStride.toNat + x)
    let left := samples.foldl (fun acc c => fadd64 acc (f32to64 c)) 0#64
    let total := FSUM s.params.fsum samples
    let n := u2f64 (s.geom.width.toNat * s.geom.height.toNat)
    let a := f64to32 (fdiv64 total n)
    (s.params.fsum = .leftToRight → total = left) ∧
    ulpDistance a (f64to32 (fdiv64 left n)) ≤ Config.avgUlpTol ∧
    ((∀ c ∈ samples, le32 0x00000000#32 c = true ∧ le32 c 0x3F800000#32 = true) → a.toNat ≤ 0x3F800000) ∧
    ((∀ c ∈ samples, c = 0x00000000#32) → a = 0x00000000#32) ∧
    (isfinite32 a = true →
      exec .avg s = .next { s with
        status := { s.status with busy := false, done := true, avgValid := true, expValid := false }
        sum := total
        avg := a
        seq := Sequencer.idle }) ∧
    (isfinite32 a = false →
      ∃ t, exec .avg s = .next t ∧ t.err = 9#8 ∧ t.status.error = true ∧ t.status.avgValid = false ∧
        t.status.expValid = false ∧ t.avg = s.avg)

/-- R156, R204: what `AVG` reports first, and the two flags it clears past its readiness test. That the fields of `SUM` and
`AVG` then keep their bits, which the flags hide, is the model's (log entry 19). R68: past its geometry check it is stuck
on a source region with a cell the platform does not back (log entry 14). -/
def Obligations.AvgReportsTheFirstError : Prop :=
  ∀ s : State, s.err = 0#8 →
    (s.status.ready = false → exec .avg s = .next (failed 5#8 s)) ∧
    (s.status.ready = true → ∀ c, geomCheck false s.geom = some c →
      exec .avg s = .next (failed (errNumber c)
        { s with status := { s.status with avgValid := false, expValid := false } })) ∧
    (s.status.ready = true → geomCheck false s.geom = none → srcRegionBacked s = true → ¬ SamplesValid s →
      exec .avg s = .next (failed 8#8
        { s with status := { s.status with avgValid := false, expValid := false } })) ∧
    (s.status.ready = true → geomCheck false s.geom = none →
      (∃ y < s.geom.height.toNat, ∃ x < s.geom.width.toNat,
        CellUnbacked s.src (cellBytes s) (s.geom.srcBase.toNat + y * s.geom.srcStride.toNat + x)) →
      exec .avg s = .fault .unbackedSource)

/-- R69: the order and the codes of the geometry check (6 and 7, R201), and what it lets pass. -/
def Obligations.GeometryCheckOrder : Prop :=
  errNumber .dim = 6#8 ∧ errNumber .bounds = 7#8 ∧
  ∀ (needDst : Bool) (g : Geometry),
    let w := g.width.toNat
    let h := g.height.toNat
    let lastS := g.srcBase.toNat + (h - 1) * g.srcStride.toNat + (w - 1)
    let lastD := g.dstBase.toNat + (h - 1) * g.dstStride.toNat + (w - 1)
    let short := w = 0 ∨ h = 0 ∨ g.srcStride.toNat < w ∨ (needDst = true ∧ g.dstStride.toNat < w)
    let beyond := 4294967296 ≤ lastS ∨ (needDst = true ∧ 4294967296 ≤ lastD)
    (geomCheck needDst g = some .dim ↔ short) ∧
    (geomCheck needDst g = some .bounds ↔ ¬ short ∧ beyond) ∧
    (geomCheck needDst g = none ↔ ¬ short ∧ ¬ beyond)

/-- R69, R201, R206: the plane commands report a missing filter or exponent, then the geometry, and touch no plane. That a
`REMAP` rejected for a missing exponent keeps `FRAME_VALID` is the model's reading of R24, R176 and R205 (log entry 25);
R206's words, that a `REMAP` that ends with an error leaves it 0, can be read against it. R68: past these tests a command
is stuck on a source region with a cell the platform does not back, and on a destination cell it would write that is not
backed (log entry 14). -/
def Obligations.EarlyErrorsTouchNoPlane : Prop :=
  ∀ s : State, s.err = 0#8 →
    (s.status.ready = false → exec .copy s = .next (failed 5#8 s) ∧ exec .xform s = .next (failed 5#8 s)) ∧
    (s.status.ready = false ∨ s.status.expValid = false → exec .remap s = .next (failed 5#8 s)) ∧
    (s.status.ready = true → ∀ c, geomCheck true s.geom = some c →
      exec .copy s = .next (failed (errNumber c) { s with status := { s.status with frameValid := false } }) ∧
      exec .xform s = .next (failed (errNumber c)
        { s with status := { s.status with avgValid := false, expValid := false, frameValid := false } }) ∧
      (s.status.expValid = true →
        exec .remap s = .next (failed (errNumber c) { s with status := { s.status with frameValid := false } }))) ∧
    (s.status.ready = true → geomCheck true s.geom = none →
      ((∃ y < s.geom.height.toNat, ∃ x < s.geom.width.toNat,
          CellUnbacked s.src (cellBytes s) (s.geom.srcBase.toNat + y * s.geom.srcStride.toNat + x)) →
        exec .copy s = .fault .unbackedSource ∧ exec .xform s = .fault .unbackedSource ∧
        (s.status.expValid = true → exec .remap s = .fault .unbackedSource)) ∧
      (srcRegionBacked s = true → ∀ y < s.geom.height.toNat, ∀ x < s.geom.width.toNat,
        let c := Plane.readCell s.src (cellBytes s) (s.geom.srcBase.toNat + y * s.geom.srcStride.toNat + x)
        CellUnbacked s.dst (cellBytes s) (s.geom.dstBase.toNat + y * s.geom.dstStride.toNat + x) →
        exec .copy s = .fault .unbackedDestination ∧ exec .xform s = .fault .unbackedDestination ∧
        (s.status.expValid = true → sampleValid s c = true → remapCell s c ≠ .keep →
          exec .remap s = .fault .unbackedDestination)))

/-- R150: on valid samples the accumulator holds the exact sum, below `2^48`, and the order of addition does not
matter. -/
def Obligations.IntegerSumIsExact : Prop :=
  (∀ s : State, s.act.flt = false → SamplesValid s →
    (regionSum s).toNat = ((positions s.geom).map fun p => (srcCell s p).toNat).sum ∧
    (regionSum s).toNat < 2 ^ 48) ∧
  ∀ l l' : List Word, l.Perm l' → sumInt l = sumInt l'

/-- R151: a region of zeros averages to exactly `+0.0`, a region of `PEAK` to exactly 1.0. -/
def Obligations.UniformPlanesAverageExactly : Prop :=
  ∀ n peak : Nat, 0 < n → n < 2 ^ 32 → peak ∈ peaks →
    avgInt 0 n peak = 0x00000000#32 ∧ avgInt (n * peak) n peak = 0x3F800000#32

/-- R158: `EXPO` needs a filter and an average, and writes `EXP` when the exponent is finite. On the integer path, where a
valid average lies in `[0, 1]`, it is always finite (R159); that every step keeps the two invariants assumed there is
stated by `StepKeepsFilterConsistent` and `StepKeepsExponentSound`. -/
def Obligations.ExpoDerivesTheExponent : Prop :=
  encode .expo = 0x00000021#32 ∧
  ∀ s : State, s.err = 0#8 →
    (s.status.ready = false ∨ s.status.avgValid = false → exec .expo s = .next (failed 5#8 s)) ∧
    (s.status.ready = true → s.status.avgValid = true →
      isfinite32 (fmul32 (fmul32 s.avg s.avg) s.act.ls) = false →
      exec .expo s = .next (failed 9#8 { s with status := { s.status with expValid := false } })) ∧
    (s.status.ready = true → s.status.avgValid = true →
      isfinite32 (fmul32 (fmul32 s.avg s.avg) s.act.ls) = true →
      exec .expo s = .next { s with
        status := { s.status with busy := false, done := true, expValid := true }
        exp := fmul32 (fmul32 s.avg s.avg) s.act.ls
        seq := Sequencer.idle }) ∧
    (FilterConsistent s → IntegerAverageInUnit s → s.status.ready = true → s.status.avgValid = true →
      s.act.flt = false →
      ∃ t, exec .expo s = .next t ∧ t.err = 0#8 ∧ t.status.expValid = true ∧ isfinite32 t.exp = true)

/-- R157: a zero average gives a zero exponent with the sign of the scaling; a zero scaling gives a zero exponent where
the square of the average is finite (R159; the model's reading, log entry 21). -/
def Obligations.ZeroAverageGivesZeroExponent : Prop :=
  (∀ ls : Word, isfinite32 ls = true →
    expoOf 0x00000000#32 ls = if ls.getLsbD 31 then 0x80000000#32 else 0x00000000#32) ∧
  (∀ avg ls : Word, isfinite32 (fmul32 avg avg) = true → eq32 ls 0x00000000#32 = true →
    eq32 (expoOf avg ls) 0x00000000#32 = true)

/-- R175: `COPY` copies every cell of the region bit for bit and writes nothing else of `D`. R61: the width of a cell. R65: a
cell is its bytes, the least significant at the lowest address. -/
def Obligations.CopyCopiesTheRegion : Prop :=
  (∀ s : State, s.err = 0#8 → s.status.ready = true → geomCheck true s.geom = none → srcRegionBacked s = true →
    dstRegionBacked s = true → Memory.wf s.dst.bytes = true →
    ∃ d : Plane,
      exec .copy s = .next { s with
        status := { s.status with busy := false, done := true, frameValid := false }
        dst := d
        seq := Sequencer.idle } ∧
      (∀ y < s.geom.height.toNat, ∀ x < s.geom.width.toNat,
        Plane.readCell d (cellBytes s) (s.geom.dstBase.toNat + y * s.geom.dstStride.toNat + x) =
          Plane.readCell s.src (cellBytes s) (s.geom.srcBase.toNat + y * s.geom.srcStride.toNat + x)) ∧
      SameOutsideRegion s d s.dst) ∧
  (∀ s : State,
    (s.act.flt = true → cellBytes s = 4) ∧ (s.act.flt = false → s.act.bits = 8#6 → cellBytes s = 1) ∧
    (s.act.flt = false → s.act.bits ∈ [10#6, 12#6, 14#6, 16#6] → cellBytes s = 2)) ∧
  ∀ (p : Plane) (n a : Nat), n ≤ 4 →
    (Plane.readCell p n a).toNat =
      ((List.range n).map fun k => (Plane.readByte p (a * n + k)).toNat * 256 ^ k).sum

/-- R170, R174: `PIXEL` on an integer sample: its errors, and with fade on the ladder in order. -/
def Obligations.PixelFollowsTheFadeLadder : Prop :=
  ∀ s : State, s.err = 0#8 → s.act.flt = false →
    (s.status.ready = false ∨ s.status.expValid = false → exec .pixel s = .next (failed 5#8 s)) ∧
    (s.status.ready = true → s.status.expValid = true → s.desc.peak.toNat < s.arg.toNat →
      exec .pixel s = .next (failed 8#8 s)) ∧
    (s.status.ready = true → s.status.expValid = true → s.arg.toNat ≤ s.desc.peak.toNat →
      ∀ v, s.table[s.arg.toNat]? = some v →
      let out : Word :=
        if s.act.fade = true ∧ s.arg.toNat ≤ s.desc.ymin.toNat then s.arg
        else if s.act.fade = true ∧ s.arg.toNat ≤ s.desc.y1.toNat then s.desc.d0.setWidth 32
        else if s.act.fade = true ∧ s.arg.toNat ≤ s.desc.y2.toNat then s.desc.d1.setWidth 32
        else if s.act.fade = true ∧ s.desc.ymax.toNat ≤ s.arg.toNat then 0#32
        else BitVec.ofNat 32 (quant (curve v s.exp) s.desc.peak.toNat)
      exec .pixel s = .next (completed { s with result := out }))

/-- R172, R174: `PIXEL` on a float sample: its errors, the two exact values with fade on, and the general case. -/
def Obligations.PixelFollowsTheFloatRule : Prop :=
  ∀ s : State, s.err = 0#8 → s.act.flt = true →
    (s.status.ready = false ∨ s.status.expValid = false → exec .pixel s = .next (failed 5#8 s)) ∧
    (s.status.ready = true → s.status.expValid = true → isfinite32 s.arg = false →
      exec .pixel s = .next (failed 8#8 s)) ∧
    (s.status.ready = true → s.status.expValid = true → isfinite32 s.arg = true →
      let out : Word :=
        if s.act.fade = true ∧ eq32 s.arg 0x00000000#32 = true then s.arg
        else if s.act.fade = true ∧ eq32 s.arg 0x3F800000#32 = true then 0x00000000#32
        else clamp01 (curve (poly s.arg) s.exp)
      exec .pixel s = .next (completed { s with result := out }))

/-- R171: the quantised value is the scaled curve value rounded half up and clamped; it is at most `PEAK` whatever the
curve value, 1.0 and `+inf` give `PEAK`, and `+0.0` gives 0. That a NaN, which no curve value is, gives such a value too
is the model's (log entry 20). -/
def Obligations.QuantStaysInRange : Prop :=
  ∀ peak ∈ peaks,
    (∀ p : Word,
      let r := floor32 (fadd32 (fmul32 p (u2f32 peak)) 0x3F000000#32)
      quant p peak =
        if lt32 r 0x00000000#32 = true then 0 else if gt32 r (u2f32 peak) = true then peak else f2u r) ∧
    (∀ p : Word, quant p peak ≤ peak) ∧ quant 0x3F800000#32 peak = peak ∧ quant 0x7F800000#32 peak = peak ∧
    quant 0x00000000#32 peak = 0

/-- R173: the output clamp, and the range of what it gives. -/
def Obligations.OutputClampStaysInUnitRange : Prop :=
  ∀ p : Word,
    (lt32 p 0x00000000#32 = true → clamp01 p = 0x00000000#32) ∧
    (gt32 p 0x3F800000#32 = true → clamp01 p = 0x3F800000#32) ∧
    (lt32 p 0x00000000#32 = false → gt32 p 0x3F800000#32 = false → clamp01 p = p) ∧
    (isnan32 p = false →
      le32 0x00000000#32 (clamp01 p) = true ∧ le32 (clamp01 p) 0x3F800000#32 = true)

/-- R137: the laws P1 to P5 of the power unit, on its domain: a base that is not negative and not a NaN, a finite
exponent. They hold whatever the implementation's own function is; P2 to P4 are from general knowledge (log entry
2). -/
def Obligations.PowerUnitLaws : Prop :=
  ∀ b e : Word, ge32 b 0x00000000#32 = true → isfinite32 e = true →
    (eq32 e 0x00000000#32 = true → POW b e = 0x3F800000#32) ∧
    (eq32 b 0x00000000#32 = true → gt32 e 0x00000000#32 = true → POW b e = 0x00000000#32) ∧
    (eq32 b 0x00000000#32 = true → lt32 e 0x00000000#32 = true → POW b e = 0x7F800000#32) ∧
    (b = 0x7F800000#32 → gt32 e 0x00000000#32 = true → POW b e = 0x7F800000#32) ∧
    (b = 0x7F800000#32 → lt32 e 0x00000000#32 = true → POW b e = 0x00000000#32) ∧
    (b = 0x3F800000#32 → POW b e = 0x3F800000#32) ∧
    isnan32 (POW b e) = false ∧ ge32 (POW b e) 0x00000000#32 = true

/-- R136, R138: the corrected curve value is the power of the curve value, of `+0.0` where that is negative. It is never a
NaN and never negative, and is 1.0 at a zero exponent. That this holds off the domain of R137 as well, for a NaN curve
value or an exponent that is not finite, is the model's (log entry 2). -/
def Obligations.CurveIsNeverNegativeOrNaN : Prop :=
  ∀ c e : Word,
    curve c e = POW (clamp0 c) e ∧ isnan32 (curve c e) = false ∧ ge32 (curve c e) 0x00000000#32 = true ∧
    (eq32 e 0x00000000#32 = true → curve c e = 0x3F800000#32) ∧
    (lt32 c 0x00000000#32 = true → curve c e = POW 0x00000000#32 e) ∧
    (lt32 c 0x00000000#32 = false → curve c e = POW c e)

/-- R179: with a zero exponent every sample that the ladder does not catch becomes `PEAK`, or 1.0. A sample is not caught
when it is above `YMIN`, `Y1` and `Y2` and below `YMAX`, whatever row the parameters hold (log entry 7). -/
def Obligations.ZeroExponentGivesPeak : Prop :=
  ∀ s : State, FilterConsistent s → s.status.ready = true → eq32 s.exp 0x00000000#32 = true →
    (s.act.flt = false → ∀ c : Word, c.toNat ≤ s.desc.peak.toNat →
      (s.act.fade = false ∨
        (s.desc.ymin.toNat < c.toNat ∧ s.desc.y1.toNat < c.toNat ∧ s.desc.y2.toNat < c.toNat ∧
          c.toNat < s.desc.ymax.toNat)) →
      remapCell s c = .out (s.desc.peak.setWidth 32)) ∧
    (s.act.flt = true → ∀ c : Word, isfinite32 c = true →
      (s.act.fade = false ∨ (eq32 c 0x00000000#32 = false ∧ eq32 c 0x3F800000#32 = false)) →
      remapCell s c = .out 0x3F800000#32)

/-- R176: `REMAP` writes `cell(v)` where the remap function answers a value, leaves the other cells of the region and
every byte outside it, and clears `FRAME_VALID`. -/
def Obligations.RemapWritesTheRegion : Prop :=
  ∀ s : State, s.err = 0#8 → s.status.ready = true → s.status.expValid = true → geomCheck true s.geom = none →
    srcRegionBacked s = true → SamplesValid s →
    (∀ p ∈ positions s.geom, remapCell s (srcCell s p) ≠ .keep → dstCellBacked s p = true) →
    Memory.wf s.dst.bytes = true →
    ∃ d : Plane,
      exec .remap s = .next { s with
        status := { s.status with busy := false, done := true, frameValid := false }
        dst := d
        seq := Sequencer.idle } ∧
      (∀ y < s.geom.height.toNat, ∀ x < s.geom.width.toNat,
        let c := Plane.readCell s.src (cellBytes s) (s.geom.srcBase.toNat + y * s.geom.srcStride.toNat + x)
        let a := s.geom.dstBase.toNat + y * s.geom.dstStride.toNat + x
        (remapCell s c = .keep → Plane.readCell d (cellBytes s) a = Plane.readCell s.dst (cellBytes s) a) ∧
        ∀ v, remapCell s c = .out v →
          Plane.readCell d (cellBytes s) a = BitVec.ofNat 32 (v.toNat % 256 ^ cellBytes s)) ∧
      SameOutsideRegion s d s.dst

/-- R176, R206: `REMAP` on a bad sample reports `ERR_SAMPLE` and clears `FRAME_VALID`; the region's cells are then free
values (log entry 14), the bytes outside it stay. -/
def Obligations.RemapReportsABadSample : Prop :=
  ∀ s : State, s.err = 0#8 → s.status.ready = true → s.status.expValid = true → geomCheck true s.geom = none →
    srcRegionBacked s = true → dstRegionBacked s = true → ¬ SamplesValid s →
    ∃ t, exec .remap s = .next t ∧ t.err = 8#8 ∧ t.status.error = true ∧ t.status.frameValid = false ∧
      t.status.expValid = true ∧ SameOutsideRegion s t.dst s.dst

/-- R177: `XFORM` on success: the frame's own average and exponent, every cell of the region remapped from its source
sample (kept samples bit for bit), every byte outside the region as before. `FSUM` gives the float sum (log entry
5). -/
def Obligations.XformWritesTheFrame : Prop :=
  ∀ s : State, s.err = 0#8 → s.status.ready = true → geomCheck true s.geom = none → srcRegionBacked s = true →
    dstRegionBacked s = true → SamplesValid s → Memory.wf s.dst.bytes = true →
    let a := averageOf s (regionSum s)
    let e := fmul32 (fmul32 a a) s.act.ls
    (s.act.flt = true → isfinite32 a = true) → isfinite32 e = true →
    ∃ d : Plane,
      exec .xform s = .next { s with
        status := { s.status with
          busy := false, done := true, avgValid := true, expValid := true, frameValid := true }
        sum := regionSum s
        avg := a
        exp := e
        dst := d
        seq := Sequencer.idle } ∧
      (∀ y < s.geom.height.toNat, ∀ x < s.geom.width.toNat,
        let c := Plane.readCell s.src (cellBytes s) (s.geom.srcBase.toNat + y * s.geom.srcStride.toNat + x)
        Plane.readCell d (cellBytes s) (s.geom.dstBase.toNat + y * s.geom.dstStride.toNat + x) =
          BitVec.ofNat 32 ((remappedValue { s with exp := e } c).toNat % 256 ^ cellBytes s)) ∧
      SameOutsideRegion s d s.dst

/-- R177, R206: an `XFORM` that fails past its geometry check reports `ERR_SAMPLE` or `ERR_NUMERIC` and vouches for no
frame. -/
def Obligations.XformFailureVouchesForNoFrame : Prop :=
  ∀ s t : State, s.err = 0#8 → s.status.ready = true → geomCheck true s.geom = none → exec .xform s = .next t →
    t.err ≠ 0#8 →
    (t.err = 8#8 ∨ t.err = 9#8) ∧ (t.err = 8#8 ↔ ¬ SamplesValid s) ∧ t.status.error = true ∧
    t.status.frameValid = false ∧ t.status.expValid = false ∧ t.status.ready = true

/-- R177: `XFORM` is the sequence `COPY`, `AVG`, `EXPO`, `REMAP`, and alone vouches for the frame. -/
def Obligations.XformEqualsItsSteps : Prop :=
  ∀ s t : State, exec .xform s = .next t → t.err = 0#8 →
    ∃ s1 s2 s3 : State,
      exec .copy s = .next s1 ∧ exec .avg s1 = .next s2 ∧ exec .expo s2 = .next s3 ∧
      exec .remap s3 = .next { t with status := { t.status with frameValid := false } }

/-- R21: a successful `XFORM` does not depend on what earlier frame commands left in the datapath registers and their
flags. -/
def Obligations.XformIgnoresEarlierFrames : Prop :=
  ∀ (s t : State) (sum : Dword) (avg exp : Word) (av ev fv : Bool),
    exec .xform s = .next t → t.err = 0#8 →
    exec .xform { s with
      sum := sum, avg := avg, exp := exp
      status := { s.status with avgValid := av, expValid := ev, frameValid := fv } } = .next t

/-- R63: no command's result depends on a source cell outside the active region. -/
def Obligations.PaddingIsNeverRead : Prop :=
  ∀ (i : Instr) (s t : State) (p' : Plane), p'.unbacked = s.src.unbacked →
    (∀ p ∈ positions s.geom,
      Plane.readCell p' (cellBytes s) (srcAddr s.geom p) = Plane.readCell s.src (cellBytes s) (srcAddr s.geom p)) →
    exec i s = .next t → exec i { s with src := p' } = .next { t with src := p' }

/-- R159, R216: on a constructed integer filter, a legal geometry, backed regions and valid samples, `XFORM` raises no
error: the exponent is always finite. -/
def Obligations.IntegerTransformIsTotal : Prop :=
  ∀ s : State, FilterConsistent s → s.err = 0#8 → s.status.ready = true → s.act.flt = false →
    geomCheck true s.geom = none → srcRegionBacked s = true → dstRegionBacked s = true → SamplesValid s →
    ∃ t, exec .xform s = .next t ∧ t.err = 0#8 ∧ t.status.frameValid = true ∧
      le32 0x00000000#32 t.avg = true ∧ le32 t.avg 0x3F800000#32 = true

/-- R237: the request registers have no effect on any command but `INIT`. -/
def Obligations.ConfigurationTakesEffectAtInit : Prop :=
  ∀ (i : Instr) (s t : State) (r : Request), i ≠ .init → i ≠ .sreset → exec i s = .next t →
    exec i { s with req := r } = .next { t with req := r }

/-- Every step keeps both plane memories in canonical form (the model's form of a memory, log entry 6). -/
def Obligations.StepKeepsMemoriesCanonical : Prop :=
  ∀ s t : State, MemoriesCanonical s → step s = .next t → MemoriesCanonical t

/-- R24, R201: every step keeps `STATUS.ERROR` equal to `ERR != 0`, and no reserved code ever stands in `ERR`. -/
def Obligations.StepKeepsErrorFlag : Prop :=
  ∀ s t : State, ErrorFlagTracksCode s → step s = .next t → ErrorFlagTracksCode t

/-- R24, R41, R43, R44: every step keeps the active configuration, the descriptor, the table and the validity flags
consistent. R231: no step changes the implementation's parameters. -/
def Obligations.StepKeepsFilterConsistent : Prop :=
  (∀ s t : State, FilterConsistent s → step s = .next t → FilterConsistent t) ∧
  ∀ s t : State, step s = .next t → t.params = s.params

/-- R24, R159: every step keeps a valid exponent finite and beside a valid average. R151: every step keeps a valid average
of an integer filter in `[0, 1]`. -/
def Obligations.StepKeepsExponentSound : Prop :=
  (∀ s t : State, ExponentSound s → step s = .next t → ExponentSound t) ∧
  ∀ s t : State, FilterConsistent s → IntegerAverageInUnit s → step s = .next t → IntegerAverageInUnit t

/-- R46: every step keeps the sequencer in step with `BUSY` and its counters in range (the model's sequencer, log entry
10). -/
def Obligations.StepKeepsSequencer : Prop :=
  ∀ s t : State, SequencerTracksBusy s → SequencerInRange s → step s = .next t →
    SequencerTracksBusy t ∧ SequencerInRange t

/-- Every invariant holds after reset. -/
def Obligations.ResetMeetsTheInvariants : Prop :=
  MemoriesCanonical State.reset ∧ ErrorFlagTracksCode State.reset ∧ FilterConsistent State.reset ∧
  ExponentSound State.reset ∧ IntegerAverageInUnit State.reset ∧ SequencerTracksBusy State.reset ∧ SequencerInRange State.reset

/-- R22, R26 to R35, R40: an idle block stores what the host writes to a RW register, reserved bits dropped, and the
host reads it back. The write changes no other register and nothing else of the state, and the read changes nothing of
the block. `rdata`, `inbox` and `draws` are the model's host side (log entries 1, 3, 15). -/
def Obligations.RegisterWritesReadBack : Prop :=
  ∀ (s : State) (r : Reg) (v : Word) (rest : List HostOp), s.status.busy = false → accessOf r = .rw →
    s.inbox = scriptWR r v :: scriptRD r :: rest →
    ∃ t u, step s = .next t ∧ step t = .next u ∧ u.rdata = v &&& writableBits r ∧
      (∀ q : Reg, q ≠ r → readIdle t q = readIdle s q) ∧
      t = { s with inbox := scriptRD r :: rest, req := t.req, geom := t.geom, irqEn := t.irqEn, arg := t.arg } ∧
      u = { t with inbox := rest, rdata := u.rdata, draws := u.draws }

/-- R22, R23: a write to a read-only register or to a reserved offset is ignored, `ID` always reads its constant, and
`CMD` and every reserved offset read 0. What holds of this while a command runs is the model's (log entries 11, 12). -/
def Obligations.ReadOnlyRegistersIgnoreWrites : Prop :=
  (∀ (s : State) (r : Reg) (v : Word) (rest : List HostOp), accessOf r = .ro →
    s.inbox = scriptWR r v :: rest → step s = .next { s with inbox := rest }) ∧
  (∀ (s : State) (rest : List HostOp), s.inbox = .read .word 0x00 :: rest →
    ∃ t, step s = .next t ∧ t.rdata = 0x41474D11#32) ∧
  (∀ (s : State) (rest : List HostOp), s.inbox = .read .word 0x04 :: rest → s.status.busy = false →
    ∃ d, step s = .next { s with inbox := rest, rdata := 0x00000000#32, draws := d }) ∧
  ∀ (s : State) (off : Nat) (v : Word) (rest : List HostOp), 0x74 ≤ off → off ≤ 0xFC → off % 4 = 0 →
    (s.inbox = .write .word off v :: rest → step s = .next { s with inbox := rest }) ∧
    (s.inbox = .read .word off :: rest →
      ∃ d, step s = .next { s with inbox := rest, rdata := 0x00000000#32, draws := d })

/-- R22 to R41, R43, R49: what an idle host reads after reset at every register whose value is specified; the byte
offset of every register; what it reads at each of them in any idle state, field by field; the bit layout of `STATUS`;
what of `STATUS` is fixed while a command runs (R233, log entry 11); and that a read changes nothing of the block
(`rdata`, `inbox` and `draws` are the model's host side, log entries 1, 3, 15). -/
def Obligations.ResetValuesRead : Prop :=
  (∀ r : Reg, r ≠ .avg → r ≠ .exponent → r ≠ .sumLo → r ≠ .sumHi →
    readIdle State.reset r = some (resetValue r)) ∧
  (∀ r : Reg, regAt (offsetOf r) = some r) ∧
  (offsetOf .id = 0x00 ∧ offsetOf .cmd = 0x04 ∧ offsetOf .status = 0x08 ∧ offsetOf .err = 0x0C ∧
    offsetOf .irqEn = 0x10 ∧ offsetOf .format = 0x14 ∧ offsetOf .mode = 0x18 ∧ offsetOf .lumaScaling = 0x1C ∧
    offsetOf .width = 0x20 ∧ offsetOf .height = 0x24 ∧ offsetOf .srcBase = 0x28 ∧ offsetOf .srcStride = 0x2C ∧
    offsetOf .dstBase = 0x30 ∧ offsetOf .dstStride = 0x34 ∧ offsetOf .arg = 0x38 ∧ offsetOf .result = 0x3C ∧
    offsetOf .avg = 0x40 ∧ offsetOf .exponent = 0x44 ∧ offsetOf .sumLo = 0x48 ∧ offsetOf .sumHi = 0x4C ∧
    offsetOf .actFormat = 0x50 ∧ offsetOf .actLs = 0x54 ∧ offsetOf .fdPeak = 0x58 ∧ offsetOf .fdYmin = 0x5C ∧
    offsetOf .fdY1 = 0x60 ∧ offsetOf .fdY2 = 0x64 ∧ offsetOf .fdYmax = 0x68 ∧ offsetOf .fdD0 = 0x6C ∧
    offsetOf .fdD1 = 0x70) ∧
  (∀ (s : State) (rest : List HostOp), s.status.busy = true → s.inbox = .read .word 0x08 :: rest →
    ∃ v d, step s = .next { s with inbox := rest, rdata := v, draws := d } ∧ v.getLsbD 0 = true ∧
      v.getLsbD 1 = false ∧ v.toNat < 256) ∧
  (∀ (s : State) (r : Reg) (rest : List HostOp), s.status.busy = false → s.inbox = scriptRD r :: rest →
    (∀ v, readIdle s r = some v → ∃ d, step s = .next { s with inbox := rest, rdata := v, draws := d }) ∧
    ∃ v d, step s = .next { s with inbox := rest, rdata := v, draws := d }) ∧
  (∀ s : State,
    readIdle s .status = some (statusWord s.status) ∧
    (∃ v, readIdle s .err = some v ∧ v.toNat = s.err.toNat) ∧
    readIdle s .result = some s.result ∧
    (∃ v, readIdle s .irqEn = some v ∧ v.toNat = s.irqEn.ieDone.toNat + 2 * s.irqEn.ieErr.toNat) ∧
    (∃ v, readIdle s .format = some v ∧
      v.toNat = s.req.format.bits.toNat + 2 ^ 6 * s.req.format.flt.toNat + 2 ^ 8 * s.req.format.family.toNat) ∧
    (∃ v, readIdle s .mode = some v ∧ v.toNat = s.req.fade.toNat) ∧
    readIdle s .lumaScaling = some s.req.ls ∧
    (∃ v, readIdle s .width = some v ∧ v.toNat = s.geom.width.toNat) ∧
    (∃ v, readIdle s .height = some v ∧ v.toNat = s.geom.height.toNat) ∧
    readIdle s .srcBase = some s.geom.srcBase ∧ readIdle s .srcStride = some s.geom.srcStride ∧
    readIdle s .dstBase = some s.geom.dstBase ∧ readIdle s .dstStride = some s.geom.dstStride ∧
    readIdle s .arg = some s.arg ∧
    (s.status.avgValid = true →
      readIdle s .avg = some s.avg ∧
      (∃ v, readIdle s .sumLo = some v ∧ v.toNat = s.sum.toNat % 2 ^ 32) ∧
      ∃ v, readIdle s .sumHi = some v ∧ v.toNat = s.sum.toNat / 2 ^ 32) ∧
    (s.status.expValid = true → readIdle s .exponent = some s.exp) ∧
    (s.status.ready = true →
      (∃ v, readIdle s .actFormat = some v ∧
        v.toNat = s.act.bits.toNat + 2 ^ 6 * s.act.flt.toNat + 2 ^ 16 * s.act.fade.toNat) ∧
      readIdle s .actLs = some s.act.ls ∧
      (∃ v, readIdle s .fdPeak = some v ∧ v.toNat = s.desc.peak.toNat) ∧
      (∃ v, readIdle s .fdYmin = some v ∧ v.toNat = s.desc.ymin.toNat) ∧
      (∃ v, readIdle s .fdY1 = some v ∧ v.toNat = s.desc.y1.toNat) ∧
      (∃ v, readIdle s .fdY2 = some v ∧ v.toNat = s.desc.y2.toNat) ∧
      (∃ v, readIdle s .fdYmax = some v ∧ v.toNat = s.desc.ymax.toNat) ∧
      (∃ v, readIdle s .fdD0 = some v ∧ v.toNat = s.desc.d0.toNat) ∧
      ∃ v, readIdle s .fdD1 = some v ∧ v.toNat = s.desc.d1.toNat) ∧
    (s.status.ready = false → ∀ r ∈ [Reg.actFormat, .actLs, .fdPeak, .fdYmin, .fdY1, .fdY2, .fdYmax, .fdD0, .fdD1],
      readIdle s r = some 0x00000000#32)) ∧
  ∀ t : Status,
    (statusWord t).getLsbD 0 = t.busy ∧ (statusWord t).getLsbD 1 = t.done ∧ (statusWord t).getLsbD 2 = t.ready ∧
    (statusWord t).getLsbD 3 = t.tblValid ∧ (statusWord t).getLsbD 4 = t.avgValid ∧
    (statusWord t).getLsbD 5 = t.expValid ∧ (statusWord t).getLsbD 6 = t.frameValid ∧
    (statusWord t).getLsbD 7 = t.error ∧ (statusWord t).toNat < 256

/-- R66, R233: what the register port refuses: an access that is not an aligned 32-bit one, and a write to a RW register
while a command runs (the refusals are the model's, log entry 12). -/
def Obligations.UndefinedPortAccessesAreRefused : Prop :=
  ∀ (s : State) (width : PortWidth) (off : Nat) (v : Word) (rest : List HostOp), off < 256 →
    (width ≠ .word ∨ off % 4 ≠ 0 →
      (s.inbox = .write width off v :: rest → step s = .refused .portAccess) ∧
      (s.inbox = .read width off :: rest → step s = .refused .portAccess)) ∧
    (width = .word → off % 4 = 0 → s.status.busy = true → ∀ r, regAt off = some r → accessOf r = .rw →
      s.inbox = .write width off v :: rest → step s = .refused .busyRegisterWrite)

/-- R208: the interrupt output, low after reset, pending after every completed command whose enable is set. -/
def Obligations.IrqFollowsStatus : Prop :=
  (∀ s : State, irq s = true ↔
    (s.irqEn.ieDone = true ∧ s.status.done = true) ∨ (s.irqEn.ieErr = true ∧ s.status.error = true)) ∧
  irq State.reset = false ∧
  (∀ (i : Instr) (s t : State), i ≠ .sreset → s.irqEn.ieDone = true → exec i s = .next t → irq t = true)
end

