-- ==== Sys2Proof/Laws/Memory.lean ====
section
/-! SUPPORT. Laws/Memory.lean: the laws of a plane memory: read after write, writes leave other bytes alone, and every
operation keeps the canonical form. -/

namespace Sys2Proof.Machine

theorem Memory.read_nil (a : Nat) : Memory.read [] a = background := rfl

/-- No listed address is below a bound that all of them exceed. -/
theorem Memory.read_of_all_above {m : Memory} {k a : Nat} (h : m.all (fun c => decide (k < c.1)) = true)
    (ha : a ≤ k) : Memory.read m a = background := by
  induction m with
  | nil => rfl
  | cons c m ih =>
    simp only [List.all_cons, Bool.and_eq_true, decide_eq_true_eq] at h
    simp only [Memory.read]
    rw [if_neg (by omega)]
    exact ih h.2

theorem Memory.read_write_same {m : Memory} (hm : Memory.wf m = true) (a : Nat) (b : Byte) :
    Memory.read (Memory.write m a b) a = b := by
  induction m with
  | nil =>
    simp only [Memory.write]
    split
    · simp [Memory.read, *]
    · simp [Memory.read]
  | cons c m ih =>
    obtain ⟨k, v⟩ := c
    simp only [Memory.wf, Bool.and_eq_true] at hm
    obtain ⟨⟨-, hall⟩, hwf⟩ := hm
    simp only [Memory.write]
    split_ifs with h1 h2 h3 h4
    · simp only [Memory.read]
      rw [if_neg (by omega), Memory.read_of_all_above hall (by omega), h2]
    · simp [Memory.read]
    · rw [Memory.read_of_all_above hall (by omega), h4]
    · simp [Memory.read]
    · simp only [Memory.read]
      rw [if_neg (by omega)]
      exact ih hwf

theorem Memory.read_write_other (m : Memory) {a a' : Nat} (b : Byte) (h : a' ≠ a) :
    Memory.read (Memory.write m a b) a' = Memory.read m a' := by
  induction m with
  | nil =>
    simp only [Memory.write]
    split <;> simp [Memory.read, h]
  | cons c m ih =>
    obtain ⟨k, v⟩ := c
    simp only [Memory.write]
    split_ifs with h1 h2 h3 h4
    · rfl
    · simp [Memory.read, h]
    · simp only [Memory.read]
      rw [if_neg (by omega)]
    · simp only [Memory.read]
      rw [if_neg h, if_neg (by omega)]
    · simp only [Memory.read, ih]

theorem Memory.all_above_write {m : Memory} {k a : Nat} {b : Byte}
    (h : m.all (fun c => decide (k < c.1)) = true) (ha : k < a) :
    (Memory.write m a b).all (fun c => decide (k < c.1)) = true := by
  induction m with
  | nil => simp only [Memory.write]; split <;> simp [ha]
  | cons c m ih =>
    obtain ⟨k', v⟩ := c
    simp only [List.all_cons, Bool.and_eq_true, decide_eq_true_eq] at h
    simp only [Memory.write]
    split_ifs <;> simp only [List.all_cons, Bool.and_eq_true, decide_eq_true_eq, h.1, h.2, ha, ih h.2, and_self]

theorem Memory.all_above_trans {m : Memory} {j k : Nat} (h : m.all (fun c => decide (k < c.1)) = true) (hjk : j ≤ k) :
    m.all (fun c => decide (j < c.1)) = true := by
  simp only [List.all_eq_true, decide_eq_true_eq] at h ⊢
  intro c hc
  have := h c hc
  omega

theorem Memory.write_wf {m : Memory} (hm : Memory.wf m = true) (a : Nat) (b : Byte) :
    Memory.wf (Memory.write m a b) = true := by
  induction m with
  | nil =>
    simp only [Memory.write]
    split
    · rfl
    · simp [Memory.wf, *]
  | cons c m ih =>
    obtain ⟨k, v⟩ := c
    have hkv := hm
    simp only [Memory.wf, Bool.and_eq_true] at hm
    obtain ⟨⟨hv, hall⟩, hwf⟩ := hm
    simp only [Memory.write]
    split_ifs with h1 h2 h3 h4
    · exact hkv
    · simp only [Memory.wf, Bool.and_eq_true, List.all_cons, bne_iff_ne, ne_eq, decide_eq_true_eq]
      exact ⟨⟨h2, h1, Memory.all_above_trans hall (by omega)⟩, ⟨by simpa using hv, hall⟩, hwf⟩
    · exact hwf
    · subst h3
      simp only [Memory.wf, Bool.and_eq_true, bne_iff_ne, ne_eq]
      exact ⟨⟨h4, hall⟩, hwf⟩
    · simp only [Memory.wf, Bool.and_eq_true]
      exact ⟨⟨hv, Memory.all_above_write hall (by omega)⟩, ih hwf⟩

theorem Memory.writeLE_wf {m : Memory} (hm : Memory.wf m = true) (a n v : Nat) :
    Memory.wf (Memory.writeLE m a n v) = true := by
  induction n generalizing m a v with
  | zero => exact hm
  | succ n ih => exact ih (Memory.write_wf hm _ _) _ _

theorem Memory.read_writeLE_outside (m : Memory) (a n v : Nat) {a' : Nat} (h : a' < a ∨ a + n ≤ a') :
    Memory.read (Memory.writeLE m a n v) a' = Memory.read m a' := by
  induction n generalizing m a v with
  | zero => rfl
  | succ n ih =>
    simp only [Memory.writeLE]
    rw [ih _ _ _ (by omega), Memory.read_write_other _ _ (by omega)]

/-- A wide read depends on its own bytes alone. -/
theorem Memory.readLE_congr {m m' : Memory} (a n : Nat)
    (h : ∀ k, a ≤ k → k < a + n → Memory.read m k = Memory.read m' k) :
    Memory.readLE m a n = Memory.readLE m' a n := by
  induction n generalizing a with
  | zero => rfl
  | succ n ih =>
    simp only [Memory.readLE]
    rw [h a (by omega) (by omega), ih (a + 1) fun k h1 h2 => h k (by omega) (by omega)]

/-- A wide read after the same wide write gives the stored value, cut to its bytes. -/
theorem Memory.readLE_writeLE_same {m : Memory} (hm : Memory.wf m = true) (a n v : Nat) :
    Memory.readLE (Memory.writeLE m a n v) a n = v % 256 ^ n := by
  induction n generalizing m a v with
  | zero => simp [Memory.readLE, Nat.mod_one]
  | succ n ih =>
    simp only [Memory.readLE, Memory.writeLE]
    rw [Memory.read_writeLE_outside _ _ _ _ (by omega), Memory.read_write_same hm,
      ih (Memory.write_wf hm _ _), BitVec.toNat_ofNat]
    rw [pow_succ' 256 n, Nat.mod_mul]

@[simp] theorem Plane.writeCell_unbacked (p : Plane) (n a : Nat) (v : Word) :
    (Plane.writeCell p n a v).unbacked = p.unbacked := rfl

theorem Plane.writeCell_wf {p : Plane} (hp : Memory.wf p.bytes = true) (n a : Nat) (v : Word) :
    Memory.wf (Plane.writeCell p n a v).bytes = true := Memory.writeLE_wf hp _ _ _

theorem Plane.writeByte_wf {p : Plane} (hp : Memory.wf p.bytes = true) (a : Nat) (b : Byte) :
    Memory.wf (Plane.writeByte p a b).bytes = true := Memory.write_wf hp _ _

/-- Cells of one width never share a byte. -/
theorem cell_bytes_disjoint {n a a' k : Nat} (hk : k < n) (h : a ≠ a') : a * n + k < a' * n ∨ a' * n + n ≤ a * n + k := by
  rcases Nat.lt_or_gt_of_ne h with h | h
  · left
    have := Nat.mul_le_mul_right n h
    rw [Nat.succ_mul] at this
    omega
  · right
    have := Nat.mul_le_mul_right n h
    rw [Nat.succ_mul] at this
    omega

theorem Plane.readByte_writeCell_outside (p : Plane) {n : Nat} (a : Nat) (v : Word) {b : Nat} (hn : 0 < n)
    (h : b / n ≠ a) : Plane.readByte (Plane.writeCell p n a v) b = Plane.readByte p b := by
  apply Memory.read_writeLE_outside
  have hb := Nat.div_add_mod b n
  have hlt := Nat.mod_lt b hn
  have := cell_bytes_disjoint (a := b / n) (a' := a) hlt h
  rw [Nat.mul_comm] at hb
  omega

theorem Plane.readCell_writeCell_same {p : Plane} (hp : Memory.wf p.bytes = true) (n a : Nat) (v : Word) :
    Plane.readCell (Plane.writeCell p n a v) n a = BitVec.ofNat 32 (v.toNat % 256 ^ n) := by
  simp only [Plane.readCell, Plane.writeCell, Memory.readLE_writeLE_same hp]

theorem Plane.readCell_writeCell_other (p : Plane) (n : Nat) {a a' : Nat} (v : Word) (h : a' ≠ a) :
    Plane.readCell (Plane.writeCell p n a v) n a' = Plane.readCell p n a' := by
  simp only [Plane.readCell, Plane.writeCell]
  congr 1
  apply Memory.readLE_congr
  intro k h1 h2
  apply Memory.read_writeLE_outside
  have := cell_bytes_disjoint (n := n) (k := k - a' * n) (a := a') (a' := a) (by omega) h
  omega

@[simp] theorem Plane.writeCells_nil (p : Plane) (n : Nat) : Plane.writeCells p n [] = p := rfl

@[simp] theorem Plane.writeCells_cons (p : Plane) (n : Nat) (c : Nat × Word) (l : List (Nat × Word)) :
    Plane.writeCells p n (c :: l) = Plane.writeCells (Plane.writeCell p n c.1 c.2) n l := rfl

@[simp] theorem Plane.writeCells_unbacked (p : Plane) (n : Nat) (l : List (Nat × Word)) :
    (Plane.writeCells p n l).unbacked = p.unbacked := by
  induction l generalizing p with
  | nil => rfl
  | cons c l ih => rw [Plane.writeCells_cons, ih, Plane.writeCell_unbacked]

theorem Plane.writeCells_wf {p : Plane} (hp : Memory.wf p.bytes = true) (n : Nat) (l : List (Nat × Word)) :
    Memory.wf (Plane.writeCells p n l).bytes = true := by
  induction l generalizing p with
  | nil => exact hp
  | cons c l ih => exact ih (Plane.writeCell_wf hp _ _ _)

theorem Plane.readByte_writeCells_outside (p : Plane) {n : Nat} (l : List (Nat × Word)) {b : Nat} (hn : 0 < n)
    (h : ∀ c ∈ l, b / n ≠ c.1) : Plane.readByte (Plane.writeCells p n l) b = Plane.readByte p b := by
  induction l generalizing p with
  | nil => rfl
  | cons c l ih =>
    rw [Plane.writeCells_cons, ih _ fun d hd => h d (List.mem_cons_of_mem _ hd),
      Plane.readByte_writeCell_outside _ _ _ hn (h c List.mem_cons_self)]

theorem Plane.readCell_writeCells_other (p : Plane) (n : Nat) (l : List (Nat × Word)) {a : Nat}
    (h : ∀ c ∈ l, a ≠ c.1) : Plane.readCell (Plane.writeCells p n l) n a = Plane.readCell p n a := by
  induction l generalizing p with
  | nil => rfl
  | cons c l ih =>
    rw [Plane.writeCells_cons, ih _ fun d hd => h d (List.mem_cons_of_mem _ hd),
      Plane.readCell_writeCell_other _ _ _ (h c List.mem_cons_self)]

/-- A cell written once, among writes to distinct addresses, holds what was stored, cut to its width. -/
theorem Plane.readCell_writeCells_mem {p : Plane} (hp : Memory.wf p.bytes = true) (n : Nat) {l : List (Nat × Word)}
    (hl : (l.map Prod.fst).Nodup) {a : Nat} {v : Word} (h : (a, v) ∈ l) :
    Plane.readCell (Plane.writeCells p n l) n a = BitVec.ofNat 32 (v.toNat % 256 ^ n) := by
  induction l generalizing p with
  | nil => cases h
  | cons c l ih =>
    rw [List.map_cons, List.nodup_cons] at hl
    rw [Plane.writeCells_cons]
    rcases List.mem_cons.1 h with rfl | h
    · rw [Plane.readCell_writeCells_other _ _ _ ?_, Plane.readCell_writeCell_same hp]
      intro d hd heq
      exact hl.1 (List.mem_map.2 ⟨d, hd, heq.symm⟩)
    · exact ih (Plane.writeCell_wf hp _ _ _) hl.2 h

/-- What a cell read gives is below the cell's range. -/
theorem Memory.readLE_lt (m : Memory) (a n : Nat) : Memory.readLE m a n < 256 ^ n := by
  induction n generalizing a with
  | zero => simp [Memory.readLE]
  | succ n ih =>
    have h1 := ih (a + 1)
    have h2 := (Memory.read m a).isLt
    simp only [Memory.readLE, Nat.pow_succ]
    omega

theorem Plane.readCell_lt (p : Plane) (n a : Nat) : (Plane.readCell p n a).toNat < 256 ^ n := by
  simp only [Plane.readCell, BitVec.toNat_ofNat]
  exact Nat.lt_of_le_of_lt (Nat.mod_le _ _) (Memory.readLE_lt _ _ _)

/-- A little-endian read is the sum of its bytes, each weighted by its place (R65). -/
theorem Memory.readLE_eq_sum (m : Memory) (a n : Nat) :
    Memory.readLE m a n = ((List.range n).map fun k => (Memory.read m (a + k)).toNat * 256 ^ k).sum := by
  induction n generalizing a with
  | zero => rfl
  | succ n ih =>
    rw [Memory.readLE, ih, List.range_succ_eq_map, List.map_cons, List.sum_cons, List.map_map, ← List.sum_map_mul_left]
    simp only [Function.comp_def, Nat.add_zero, Nat.pow_zero, Nat.mul_one, Nat.succ_eq_add_one, Nat.pow_succ]
    congr 2
    exact List.map_congr_left fun k _ => by rw [show a + 1 + k = a + (k + 1) by omega]; ring

/-- A cell is unbacked when one of its bytes lies in a range that the platform does not back (R68). -/
theorem Plane.cellBacked_eq_false {p : Plane} {n a : Nat} :
    Plane.cellBacked p n a = false ↔
      ∃ k < n, ∃ r ∈ p.unbacked, r.1 ≤ a * n + k ∧ a * n + k < r.1 + r.2 := by
  simp [Plane.cellBacked, Plane.byteBacked]

theorem Plane.empty_wf : Memory.wf Plane.empty.bytes = true := rfl

end Sys2Proof.Machine
end

