-- ==== Sys2Proof/Laws/State.lean ====
section
/-! SUPPORT. Laws/State.lean: one lemma per field of State and per shared update, so that no proof unfolds a record
update. -/

namespace Sys2Proof.Machine

@[simp] theorem accept_status (s : State) : (accept s).status = flagsAccept s.status := rfl
@[simp] theorem accept_err (s : State) : (accept s).err = s.err := rfl
@[simp] theorem accept_irqEn (s : State) : (accept s).irqEn = s.irqEn := rfl
@[simp] theorem accept_req (s : State) : (accept s).req = s.req := rfl
@[simp] theorem accept_geom (s : State) : (accept s).geom = s.geom := rfl
@[simp] theorem accept_arg (s : State) : (accept s).arg = s.arg := rfl
@[simp] theorem accept_result (s : State) : (accept s).result = s.result := rfl
@[simp] theorem accept_act (s : State) : (accept s).act = s.act := rfl
@[simp] theorem accept_desc (s : State) : (accept s).desc = s.desc := rfl
@[simp] theorem accept_table (s : State) : (accept s).table = s.table := rfl
@[simp] theorem accept_sum (s : State) : (accept s).sum = s.sum := rfl
@[simp] theorem accept_avg (s : State) : (accept s).avg = s.avg := rfl
@[simp] theorem accept_exp (s : State) : (accept s).exp = s.exp := rfl
@[simp] theorem accept_seq (s : State) : (accept s).seq = s.seq := rfl
@[simp] theorem accept_src (s : State) : (accept s).src = s.src := rfl
@[simp] theorem accept_dst (s : State) : (accept s).dst = s.dst := rfl
@[simp] theorem accept_inbox (s : State) : (accept s).inbox = s.inbox := rfl
@[simp] theorem accept_rdata (s : State) : (accept s).rdata = s.rdata := rfl
@[simp] theorem accept_params (s : State) : (accept s).params = s.params := rfl
@[simp] theorem accept_draws (s : State) : (accept s).draws = s.draws := rfl

@[simp] theorem complete_status (s : State) : (complete s).status = flagsComplete s.status := rfl
@[simp] theorem complete_err (s : State) : (complete s).err = s.err := rfl
@[simp] theorem complete_irqEn (s : State) : (complete s).irqEn = s.irqEn := rfl
@[simp] theorem complete_req (s : State) : (complete s).req = s.req := rfl
@[simp] theorem complete_geom (s : State) : (complete s).geom = s.geom := rfl
@[simp] theorem complete_arg (s : State) : (complete s).arg = s.arg := rfl
@[simp] theorem complete_result (s : State) : (complete s).result = s.result := rfl
@[simp] theorem complete_act (s : State) : (complete s).act = s.act := rfl
@[simp] theorem complete_desc (s : State) : (complete s).desc = s.desc := rfl
@[simp] theorem complete_table (s : State) : (complete s).table = s.table := rfl
@[simp] theorem complete_sum (s : State) : (complete s).sum = s.sum := rfl
@[simp] theorem complete_avg (s : State) : (complete s).avg = s.avg := rfl
@[simp] theorem complete_exp (s : State) : (complete s).exp = s.exp := rfl
@[simp] theorem complete_seq (s : State) : (complete s).seq = Sequencer.idle := rfl
@[simp] theorem complete_src (s : State) : (complete s).src = s.src := rfl
@[simp] theorem complete_dst (s : State) : (complete s).dst = s.dst := rfl
@[simp] theorem complete_inbox (s : State) : (complete s).inbox = s.inbox := rfl
@[simp] theorem complete_rdata (s : State) : (complete s).rdata = s.rdata := rfl
@[simp] theorem complete_params (s : State) : (complete s).params = s.params := rfl
@[simp] theorem complete_draws (s : State) : (complete s).draws = s.draws := rfl

@[simp] theorem raiseError_status (c : ErrCode) (s : State) : (raiseError c s).status = flagsComplete (flagsError s.status) := rfl
@[simp] theorem raiseError_err (c : ErrCode) (s : State) : (raiseError c s).err = if s.err = 0#8 then errNumber c else s.err := rfl
@[simp] theorem raiseError_irqEn (c : ErrCode) (s : State) : (raiseError c s).irqEn = s.irqEn := rfl
@[simp] theorem raiseError_req (c : ErrCode) (s : State) : (raiseError c s).req = s.req := rfl
@[simp] theorem raiseError_geom (c : ErrCode) (s : State) : (raiseError c s).geom = s.geom := rfl
@[simp] theorem raiseError_arg (c : ErrCode) (s : State) : (raiseError c s).arg = s.arg := rfl
@[simp] theorem raiseError_result (c : ErrCode) (s : State) : (raiseError c s).result = s.result := rfl
@[simp] theorem raiseError_act (c : ErrCode) (s : State) : (raiseError c s).act = s.act := rfl
@[simp] theorem raiseError_desc (c : ErrCode) (s : State) : (raiseError c s).desc = s.desc := rfl
@[simp] theorem raiseError_table (c : ErrCode) (s : State) : (raiseError c s).table = s.table := rfl
@[simp] theorem raiseError_sum (c : ErrCode) (s : State) : (raiseError c s).sum = s.sum := rfl
@[simp] theorem raiseError_avg (c : ErrCode) (s : State) : (raiseError c s).avg = s.avg := rfl
@[simp] theorem raiseError_exp (c : ErrCode) (s : State) : (raiseError c s).exp = s.exp := rfl
@[simp] theorem raiseError_seq (c : ErrCode) (s : State) : (raiseError c s).seq = Sequencer.idle := rfl
@[simp] theorem raiseError_src (c : ErrCode) (s : State) : (raiseError c s).src = s.src := rfl
@[simp] theorem raiseError_dst (c : ErrCode) (s : State) : (raiseError c s).dst = s.dst := rfl
@[simp] theorem raiseError_inbox (c : ErrCode) (s : State) : (raiseError c s).inbox = s.inbox := rfl
@[simp] theorem raiseError_rdata (c : ErrCode) (s : State) : (raiseError c s).rdata = s.rdata := rfl
@[simp] theorem raiseError_params (c : ErrCode) (s : State) : (raiseError c s).params = s.params := rfl
@[simp] theorem raiseError_draws (c : ErrCode) (s : State) : (raiseError c s).draws = s.draws := rfl

@[simp] theorem clearError_status (s : State) : (clearError s).status = flagsClearError s.status := rfl
@[simp] theorem clearError_err (s : State) : (clearError s).err = 0#8 := rfl
@[simp] theorem clearError_irqEn (s : State) : (clearError s).irqEn = s.irqEn := rfl
@[simp] theorem clearError_req (s : State) : (clearError s).req = s.req := rfl
@[simp] theorem clearError_geom (s : State) : (clearError s).geom = s.geom := rfl
@[simp] theorem clearError_arg (s : State) : (clearError s).arg = s.arg := rfl
@[simp] theorem clearError_result (s : State) : (clearError s).result = s.result := rfl
@[simp] theorem clearError_act (s : State) : (clearError s).act = s.act := rfl
@[simp] theorem clearError_desc (s : State) : (clearError s).desc = s.desc := rfl
@[simp] theorem clearError_table (s : State) : (clearError s).table = s.table := rfl
@[simp] theorem clearError_sum (s : State) : (clearError s).sum = s.sum := rfl
@[simp] theorem clearError_avg (s : State) : (clearError s).avg = s.avg := rfl
@[simp] theorem clearError_exp (s : State) : (clearError s).exp = s.exp := rfl
@[simp] theorem clearError_seq (s : State) : (clearError s).seq = s.seq := rfl
@[simp] theorem clearError_src (s : State) : (clearError s).src = s.src := rfl
@[simp] theorem clearError_dst (s : State) : (clearError s).dst = s.dst := rfl
@[simp] theorem clearError_inbox (s : State) : (clearError s).inbox = s.inbox := rfl
@[simp] theorem clearError_rdata (s : State) : (clearError s).rdata = s.rdata := rfl
@[simp] theorem clearError_params (s : State) : (clearError s).params = s.params := rfl
@[simp] theorem clearError_draws (s : State) : (clearError s).draws = s.draws := rfl

@[simp] theorem unconstruct_status (s : State) : (unconstruct s).status = flagsUnconstruct s.status := rfl
@[simp] theorem unconstruct_err (s : State) : (unconstruct s).err = s.err := rfl
@[simp] theorem unconstruct_irqEn (s : State) : (unconstruct s).irqEn = s.irqEn := rfl
@[simp] theorem unconstruct_req (s : State) : (unconstruct s).req = s.req := rfl
@[simp] theorem unconstruct_geom (s : State) : (unconstruct s).geom = s.geom := rfl
@[simp] theorem unconstruct_arg (s : State) : (unconstruct s).arg = s.arg := rfl
@[simp] theorem unconstruct_result (s : State) : (unconstruct s).result = s.result := rfl
@[simp] theorem unconstruct_act (s : State) : (unconstruct s).act = ActiveConfig.none := rfl
@[simp] theorem unconstruct_desc (s : State) : (unconstruct s).desc = Descriptor.none := rfl
@[simp] theorem unconstruct_table (s : State) : (unconstruct s).table = [] := rfl
@[simp] theorem unconstruct_sum (s : State) : (unconstruct s).sum = s.sum := rfl
@[simp] theorem unconstruct_avg (s : State) : (unconstruct s).avg = s.avg := rfl
@[simp] theorem unconstruct_exp (s : State) : (unconstruct s).exp = s.exp := rfl
@[simp] theorem unconstruct_seq (s : State) : (unconstruct s).seq = s.seq := rfl
@[simp] theorem unconstruct_src (s : State) : (unconstruct s).src = s.src := rfl
@[simp] theorem unconstruct_dst (s : State) : (unconstruct s).dst = s.dst := rfl
@[simp] theorem unconstruct_inbox (s : State) : (unconstruct s).inbox = s.inbox := rfl
@[simp] theorem unconstruct_rdata (s : State) : (unconstruct s).rdata = s.rdata := rfl
@[simp] theorem unconstruct_params (s : State) : (unconstruct s).params = s.params := rfl
@[simp] theorem unconstruct_draws (s : State) : (unconstruct s).draws = s.draws := rfl

@[simp] theorem construct_status (s : State) : (construct s).status = flagsConstructed (!s.req.format.flt) s.status := rfl
@[simp] theorem construct_err (s : State) : (construct s).err = s.err := rfl
@[simp] theorem construct_irqEn (s : State) : (construct s).irqEn = s.irqEn := rfl
@[simp] theorem construct_req (s : State) : (construct s).req = s.req := rfl
@[simp] theorem construct_geom (s : State) : (construct s).geom = s.geom := rfl
@[simp] theorem construct_arg (s : State) : (construct s).arg = s.arg := rfl
@[simp] theorem construct_result (s : State) : (construct s).result = s.result := rfl
@[simp] theorem construct_act (s : State) : (construct s).act = ⟨s.req.format.bits, s.req.format.flt, s.req.fade, s.req.ls⟩ := rfl
@[simp] theorem construct_desc (s : State) : (construct s).desc = if s.req.format.flt then Descriptor.none else descriptorRow s.params s.req.format.bits := rfl
@[simp] theorem construct_sum (s : State) : (construct s).sum = s.sum := rfl
@[simp] theorem construct_avg (s : State) : (construct s).avg = s.avg := rfl
@[simp] theorem construct_exp (s : State) : (construct s).exp = s.exp := rfl
@[simp] theorem construct_seq (s : State) : (construct s).seq = s.seq := rfl
@[simp] theorem construct_src (s : State) : (construct s).src = s.src := rfl
@[simp] theorem construct_dst (s : State) : (construct s).dst = s.dst := rfl
@[simp] theorem construct_inbox (s : State) : (construct s).inbox = s.inbox := rfl
@[simp] theorem construct_rdata (s : State) : (construct s).rdata = s.rdata := rfl
@[simp] theorem construct_params (s : State) : (construct s).params = s.params := rfl
@[simp] theorem construct_draws (s : State) : (construct s).draws = s.draws := rfl

@[simp] theorem scrambleRegion_status (s : State) : (scrambleRegion s).status = s.status := rfl
@[simp] theorem scrambleRegion_err (s : State) : (scrambleRegion s).err = s.err := rfl
@[simp] theorem scrambleRegion_irqEn (s : State) : (scrambleRegion s).irqEn = s.irqEn := rfl
@[simp] theorem scrambleRegion_req (s : State) : (scrambleRegion s).req = s.req := rfl
@[simp] theorem scrambleRegion_geom (s : State) : (scrambleRegion s).geom = s.geom := rfl
@[simp] theorem scrambleRegion_arg (s : State) : (scrambleRegion s).arg = s.arg := rfl
@[simp] theorem scrambleRegion_result (s : State) : (scrambleRegion s).result = s.result := rfl
@[simp] theorem scrambleRegion_act (s : State) : (scrambleRegion s).act = s.act := rfl
@[simp] theorem scrambleRegion_desc (s : State) : (scrambleRegion s).desc = s.desc := rfl
@[simp] theorem scrambleRegion_table (s : State) : (scrambleRegion s).table = s.table := rfl
@[simp] theorem scrambleRegion_sum (s : State) : (scrambleRegion s).sum = s.sum := rfl
@[simp] theorem scrambleRegion_avg (s : State) : (scrambleRegion s).avg = s.avg := rfl
@[simp] theorem scrambleRegion_exp (s : State) : (scrambleRegion s).exp = s.exp := rfl
@[simp] theorem scrambleRegion_seq (s : State) : (scrambleRegion s).seq = s.seq := rfl
@[simp] theorem scrambleRegion_src (s : State) : (scrambleRegion s).src = s.src := rfl
@[simp] theorem scrambleRegion_inbox (s : State) : (scrambleRegion s).inbox = s.inbox := rfl
@[simp] theorem scrambleRegion_rdata (s : State) : (scrambleRegion s).rdata = s.rdata := rfl
@[simp] theorem scrambleRegion_params (s : State) : (scrambleRegion s).params = s.params := rfl
@[simp] theorem scrambleRegion_draws (s : State) : (scrambleRegion s).draws = s.draws + 1 := rfl

@[simp] theorem copyPlane_status (s : State) : (copyPlane s).status = s.status := rfl
@[simp] theorem copyPlane_err (s : State) : (copyPlane s).err = s.err := rfl
@[simp] theorem copyPlane_irqEn (s : State) : (copyPlane s).irqEn = s.irqEn := rfl
@[simp] theorem copyPlane_req (s : State) : (copyPlane s).req = s.req := rfl
@[simp] theorem copyPlane_geom (s : State) : (copyPlane s).geom = s.geom := rfl
@[simp] theorem copyPlane_arg (s : State) : (copyPlane s).arg = s.arg := rfl
@[simp] theorem copyPlane_result (s : State) : (copyPlane s).result = s.result := rfl
@[simp] theorem copyPlane_act (s : State) : (copyPlane s).act = s.act := rfl
@[simp] theorem copyPlane_desc (s : State) : (copyPlane s).desc = s.desc := rfl
@[simp] theorem copyPlane_table (s : State) : (copyPlane s).table = s.table := rfl
@[simp] theorem copyPlane_sum (s : State) : (copyPlane s).sum = s.sum := rfl
@[simp] theorem copyPlane_avg (s : State) : (copyPlane s).avg = s.avg := rfl
@[simp] theorem copyPlane_exp (s : State) : (copyPlane s).exp = s.exp := rfl
@[simp] theorem copyPlane_seq (s : State) : (copyPlane s).seq = s.seq := rfl
@[simp] theorem copyPlane_src (s : State) : (copyPlane s).src = s.src := rfl
@[simp] theorem copyPlane_dst (s : State) : (copyPlane s).dst = Plane.writeCells s.dst (cellBytes s) (copyWrites s) := rfl
@[simp] theorem copyPlane_inbox (s : State) : (copyPlane s).inbox = s.inbox := rfl
@[simp] theorem copyPlane_rdata (s : State) : (copyPlane s).rdata = s.rdata := rfl
@[simp] theorem copyPlane_params (s : State) : (copyPlane s).params = s.params := rfl
@[simp] theorem copyPlane_draws (s : State) : (copyPlane s).draws = s.draws := rfl

@[simp] theorem blockReset_status (s : State) : (blockReset s).status = State.reset.status := rfl
@[simp] theorem blockReset_err (s : State) : (blockReset s).err = State.reset.err := rfl
@[simp] theorem blockReset_irqEn (s : State) : (blockReset s).irqEn = State.reset.irqEn := rfl
@[simp] theorem blockReset_req (s : State) : (blockReset s).req = State.reset.req := rfl
@[simp] theorem blockReset_geom (s : State) : (blockReset s).geom = State.reset.geom := rfl
@[simp] theorem blockReset_arg (s : State) : (blockReset s).arg = State.reset.arg := rfl
@[simp] theorem blockReset_result (s : State) : (blockReset s).result = State.reset.result := rfl
@[simp] theorem blockReset_act (s : State) : (blockReset s).act = State.reset.act := rfl
@[simp] theorem blockReset_desc (s : State) : (blockReset s).desc = State.reset.desc := rfl
@[simp] theorem blockReset_table (s : State) : (blockReset s).table = State.reset.table := rfl
@[simp] theorem blockReset_sum (s : State) : (blockReset s).sum = State.reset.sum := rfl
@[simp] theorem blockReset_avg (s : State) : (blockReset s).avg = State.reset.avg := rfl
@[simp] theorem blockReset_exp (s : State) : (blockReset s).exp = State.reset.exp := rfl
@[simp] theorem blockReset_seq (s : State) : (blockReset s).seq = State.reset.seq := rfl
@[simp] theorem blockReset_src (s : State) : (blockReset s).src = s.src := rfl
@[simp] theorem blockReset_dst (s : State) : (blockReset s).dst = s.dst := rfl
@[simp] theorem blockReset_inbox (s : State) : (blockReset s).inbox = s.inbox := rfl
@[simp] theorem blockReset_rdata (s : State) : (blockReset s).rdata = s.rdata := rfl
@[simp] theorem blockReset_params (s : State) : (blockReset s).params = s.params := rfl
@[simp] theorem blockReset_draws (s : State) : (blockReset s).draws = s.draws := rfl

@[simp] theorem flagsAccept_busy (t : Status) : (flagsAccept t).busy = true := rfl
@[simp] theorem flagsAccept_done (t : Status) : (flagsAccept t).done = false := rfl
@[simp] theorem flagsAccept_ready (t : Status) : (flagsAccept t).ready = t.ready := rfl
@[simp] theorem flagsAccept_tblValid (t : Status) : (flagsAccept t).tblValid = t.tblValid := rfl
@[simp] theorem flagsAccept_avgValid (t : Status) : (flagsAccept t).avgValid = t.avgValid := rfl
@[simp] theorem flagsAccept_expValid (t : Status) : (flagsAccept t).expValid = t.expValid := rfl
@[simp] theorem flagsAccept_frameValid (t : Status) : (flagsAccept t).frameValid = t.frameValid := rfl
@[simp] theorem flagsAccept_error (t : Status) : (flagsAccept t).error = t.error := rfl

@[simp] theorem flagsComplete_busy (t : Status) : (flagsComplete t).busy = false := rfl
@[simp] theorem flagsComplete_done (t : Status) : (flagsComplete t).done = true := rfl
@[simp] theorem flagsComplete_ready (t : Status) : (flagsComplete t).ready = t.ready := rfl
@[simp] theorem flagsComplete_tblValid (t : Status) : (flagsComplete t).tblValid = t.tblValid := rfl
@[simp] theorem flagsComplete_avgValid (t : Status) : (flagsComplete t).avgValid = t.avgValid := rfl
@[simp] theorem flagsComplete_expValid (t : Status) : (flagsComplete t).expValid = t.expValid := rfl
@[simp] theorem flagsComplete_frameValid (t : Status) : (flagsComplete t).frameValid = t.frameValid := rfl
@[simp] theorem flagsComplete_error (t : Status) : (flagsComplete t).error = t.error := rfl

@[simp] theorem flagsError_busy (t : Status) : (flagsError t).busy = t.busy := rfl
@[simp] theorem flagsError_done (t : Status) : (flagsError t).done = t.done := rfl
@[simp] theorem flagsError_ready (t : Status) : (flagsError t).ready = t.ready := rfl
@[simp] theorem flagsError_tblValid (t : Status) : (flagsError t).tblValid = t.tblValid := rfl
@[simp] theorem flagsError_avgValid (t : Status) : (flagsError t).avgValid = t.avgValid := rfl
@[simp] theorem flagsError_expValid (t : Status) : (flagsError t).expValid = t.expValid := rfl
@[simp] theorem flagsError_frameValid (t : Status) : (flagsError t).frameValid = t.frameValid := rfl
@[simp] theorem flagsError_error (t : Status) : (flagsError t).error = true := rfl

@[simp] theorem flagsClearError_busy (t : Status) : (flagsClearError t).busy = t.busy := rfl
@[simp] theorem flagsClearError_done (t : Status) : (flagsClearError t).done = t.done := rfl
@[simp] theorem flagsClearError_ready (t : Status) : (flagsClearError t).ready = t.ready := rfl
@[simp] theorem flagsClearError_tblValid (t : Status) : (flagsClearError t).tblValid = t.tblValid := rfl
@[simp] theorem flagsClearError_avgValid (t : Status) : (flagsClearError t).avgValid = t.avgValid := rfl
@[simp] theorem flagsClearError_expValid (t : Status) : (flagsClearError t).expValid = t.expValid := rfl
@[simp] theorem flagsClearError_frameValid (t : Status) : (flagsClearError t).frameValid = t.frameValid := rfl
@[simp] theorem flagsClearError_error (t : Status) : (flagsClearError t).error = false := rfl

@[simp] theorem flagsUnconstruct_busy (t : Status) : (flagsUnconstruct t).busy = t.busy := rfl
@[simp] theorem flagsUnconstruct_done (t : Status) : (flagsUnconstruct t).done = t.done := rfl
@[simp] theorem flagsUnconstruct_ready (t : Status) : (flagsUnconstruct t).ready = false := rfl
@[simp] theorem flagsUnconstruct_tblValid (t : Status) : (flagsUnconstruct t).tblValid = false := rfl
@[simp] theorem flagsUnconstruct_avgValid (t : Status) : (flagsUnconstruct t).avgValid = false := rfl
@[simp] theorem flagsUnconstruct_expValid (t : Status) : (flagsUnconstruct t).expValid = false := rfl
@[simp] theorem flagsUnconstruct_frameValid (t : Status) : (flagsUnconstruct t).frameValid = false := rfl
@[simp] theorem flagsUnconstruct_error (t : Status) : (flagsUnconstruct t).error = t.error := rfl

@[simp] theorem flagsConstructed_busy (b : Bool) (t : Status) : (flagsConstructed b t).busy = t.busy := rfl
@[simp] theorem flagsConstructed_done (b : Bool) (t : Status) : (flagsConstructed b t).done = t.done := rfl
@[simp] theorem flagsConstructed_ready (b : Bool) (t : Status) : (flagsConstructed b t).ready = true := rfl
@[simp] theorem flagsConstructed_tblValid (b : Bool) (t : Status) : (flagsConstructed b t).tblValid = b := rfl
@[simp] theorem flagsConstructed_avgValid (b : Bool) (t : Status) : (flagsConstructed b t).avgValid = t.avgValid := rfl
@[simp] theorem flagsConstructed_expValid (b : Bool) (t : Status) : (flagsConstructed b t).expValid = t.expValid := rfl
@[simp] theorem flagsConstructed_frameValid (b : Bool) (t : Status) : (flagsConstructed b t).frameValid = t.frameValid := rfl
@[simp] theorem flagsConstructed_error (b : Bool) (t : Status) : (flagsConstructed b t).error = t.error := rfl

@[simp] theorem flagsAvgStart_busy (t : Status) : (flagsAvgStart t).busy = t.busy := rfl
@[simp] theorem flagsAvgStart_done (t : Status) : (flagsAvgStart t).done = t.done := rfl
@[simp] theorem flagsAvgStart_ready (t : Status) : (flagsAvgStart t).ready = t.ready := rfl
@[simp] theorem flagsAvgStart_tblValid (t : Status) : (flagsAvgStart t).tblValid = t.tblValid := rfl
@[simp] theorem flagsAvgStart_avgValid (t : Status) : (flagsAvgStart t).avgValid = false := rfl
@[simp] theorem flagsAvgStart_expValid (t : Status) : (flagsAvgStart t).expValid = false := rfl
@[simp] theorem flagsAvgStart_frameValid (t : Status) : (flagsAvgStart t).frameValid = t.frameValid := rfl
@[simp] theorem flagsAvgStart_error (t : Status) : (flagsAvgStart t).error = t.error := rfl

@[simp] theorem flagsAvgDone_busy (t : Status) : (flagsAvgDone t).busy = t.busy := rfl
@[simp] theorem flagsAvgDone_done (t : Status) : (flagsAvgDone t).done = t.done := rfl
@[simp] theorem flagsAvgDone_ready (t : Status) : (flagsAvgDone t).ready = t.ready := rfl
@[simp] theorem flagsAvgDone_tblValid (t : Status) : (flagsAvgDone t).tblValid = t.tblValid := rfl
@[simp] theorem flagsAvgDone_avgValid (t : Status) : (flagsAvgDone t).avgValid = true := rfl
@[simp] theorem flagsAvgDone_expValid (t : Status) : (flagsAvgDone t).expValid = t.expValid := rfl
@[simp] theorem flagsAvgDone_frameValid (t : Status) : (flagsAvgDone t).frameValid = t.frameValid := rfl
@[simp] theorem flagsAvgDone_error (t : Status) : (flagsAvgDone t).error = t.error := rfl

@[simp] theorem flagsExpStart_busy (t : Status) : (flagsExpStart t).busy = t.busy := rfl
@[simp] theorem flagsExpStart_done (t : Status) : (flagsExpStart t).done = t.done := rfl
@[simp] theorem flagsExpStart_ready (t : Status) : (flagsExpStart t).ready = t.ready := rfl
@[simp] theorem flagsExpStart_tblValid (t : Status) : (flagsExpStart t).tblValid = t.tblValid := rfl
@[simp] theorem flagsExpStart_avgValid (t : Status) : (flagsExpStart t).avgValid = t.avgValid := rfl
@[simp] theorem flagsExpStart_expValid (t : Status) : (flagsExpStart t).expValid = false := rfl
@[simp] theorem flagsExpStart_frameValid (t : Status) : (flagsExpStart t).frameValid = t.frameValid := rfl
@[simp] theorem flagsExpStart_error (t : Status) : (flagsExpStart t).error = t.error := rfl

@[simp] theorem flagsExpDone_busy (t : Status) : (flagsExpDone t).busy = t.busy := rfl
@[simp] theorem flagsExpDone_done (t : Status) : (flagsExpDone t).done = t.done := rfl
@[simp] theorem flagsExpDone_ready (t : Status) : (flagsExpDone t).ready = t.ready := rfl
@[simp] theorem flagsExpDone_tblValid (t : Status) : (flagsExpDone t).tblValid = t.tblValid := rfl
@[simp] theorem flagsExpDone_avgValid (t : Status) : (flagsExpDone t).avgValid = t.avgValid := rfl
@[simp] theorem flagsExpDone_expValid (t : Status) : (flagsExpDone t).expValid = true := rfl
@[simp] theorem flagsExpDone_frameValid (t : Status) : (flagsExpDone t).frameValid = t.frameValid := rfl
@[simp] theorem flagsExpDone_error (t : Status) : (flagsExpDone t).error = t.error := rfl

@[simp] theorem flagsPlaneStart_busy (t : Status) : (flagsPlaneStart t).busy = t.busy := rfl
@[simp] theorem flagsPlaneStart_done (t : Status) : (flagsPlaneStart t).done = t.done := rfl
@[simp] theorem flagsPlaneStart_ready (t : Status) : (flagsPlaneStart t).ready = t.ready := rfl
@[simp] theorem flagsPlaneStart_tblValid (t : Status) : (flagsPlaneStart t).tblValid = t.tblValid := rfl
@[simp] theorem flagsPlaneStart_avgValid (t : Status) : (flagsPlaneStart t).avgValid = t.avgValid := rfl
@[simp] theorem flagsPlaneStart_expValid (t : Status) : (flagsPlaneStart t).expValid = t.expValid := rfl
@[simp] theorem flagsPlaneStart_frameValid (t : Status) : (flagsPlaneStart t).frameValid = false := rfl
@[simp] theorem flagsPlaneStart_error (t : Status) : (flagsPlaneStart t).error = t.error := rfl

@[simp] theorem flagsXformStart_busy (t : Status) : (flagsXformStart t).busy = t.busy := rfl
@[simp] theorem flagsXformStart_done (t : Status) : (flagsXformStart t).done = t.done := rfl
@[simp] theorem flagsXformStart_ready (t : Status) : (flagsXformStart t).ready = t.ready := rfl
@[simp] theorem flagsXformStart_tblValid (t : Status) : (flagsXformStart t).tblValid = t.tblValid := rfl
@[simp] theorem flagsXformStart_avgValid (t : Status) : (flagsXformStart t).avgValid = false := rfl
@[simp] theorem flagsXformStart_expValid (t : Status) : (flagsXformStart t).expValid = false := rfl
@[simp] theorem flagsXformStart_frameValid (t : Status) : (flagsXformStart t).frameValid = false := rfl
@[simp] theorem flagsXformStart_error (t : Status) : (flagsXformStart t).error = t.error := rfl

@[simp] theorem flagsFrameDone_busy (t : Status) : (flagsFrameDone t).busy = t.busy := rfl
@[simp] theorem flagsFrameDone_done (t : Status) : (flagsFrameDone t).done = t.done := rfl
@[simp] theorem flagsFrameDone_ready (t : Status) : (flagsFrameDone t).ready = t.ready := rfl
@[simp] theorem flagsFrameDone_tblValid (t : Status) : (flagsFrameDone t).tblValid = t.tblValid := rfl
@[simp] theorem flagsFrameDone_avgValid (t : Status) : (flagsFrameDone t).avgValid = t.avgValid := rfl
@[simp] theorem flagsFrameDone_expValid (t : Status) : (flagsFrameDone t).expValid = t.expValid := rfl
@[simp] theorem flagsFrameDone_frameValid (t : Status) : (flagsFrameDone t).frameValid = true := rfl
@[simp] theorem flagsFrameDone_error (t : Status) : (flagsFrameDone t).error = t.error := rfl

end Sys2Proof.Machine
end

