-- ==== Sys2Proof/Laws/Ops.lean ====
section
/-! SUPPORT. Laws/Ops.lean: what the shared operations can do, said once: inversion lemmas for `runCommand` and the
combinators of a command's rule, and the geometry check in closed form. -/

namespace Sys2Proof.Machine

/-- Every state the result of a command's rule carries, completed or raised from, has the property. -/
def reaches (P : State → Prop) : CmdResult → Prop
  | .ok s => P s
  | .raised _ s => P s
  | .stuck _ => True

@[simp] theorem reaches_ok (P : State → Prop) (s : State) : reaches P (.ok s) = P s := rfl
@[simp] theorem reaches_raised (P : State → Prop) (c : ErrCode) (s : State) : reaches P (.raised c s) = P s := rfl
@[simp] theorem reaches_stuck (P : State → Prop) (f : Fault) : reaches P (.stuck f) = True := rfl

@[simp] theorem andThen_ok (s : State) (k : State → CmdResult) : andThen (.ok s) k = k s := rfl
@[simp] theorem andThen_raised (c : ErrCode) (s : State) (k : State → CmdResult) :
    andThen (.raised c s) k = .raised c s := rfl
@[simp] theorem andThen_stuck (f : Fault) (k : State → CmdResult) : andThen (.stuck f) k = .stuck f := rfl
@[simp] theorem onRaise_ok (f : State → State) (s : State) : onRaise f (.ok s) = .ok s := rfl
@[simp] theorem onRaise_raised (f : State → State) (c : ErrCode) (s : State) :
    onRaise f (.raised c s) = .raised c (f s) := rfl
@[simp] theorem onRaise_stuck (f : State → State) (e : Fault) : onRaise f (.stuck e) = .stuck e := rfl

theorem reaches_mono {P Q : State → Prop} (h : ∀ s, P s → Q s) {r : CmdResult} (hr : reaches P r) : reaches Q r := by
  cases r with
  | ok s => exact h s hr
  | raised c s => exact h s hr
  | stuck f => trivial

theorem reaches_andThen {P Q : State → Prop} {r : CmdResult} {k : State → CmdResult} (hr : reaches P r)
    (hPQ : ∀ s, P s → Q s) (hk : ∀ s, P s → reaches Q (k s)) : reaches Q (andThen r k) := by
  cases r with
  | ok s => exact hk s hr
  | raised c s => exact hPQ s hr
  | stuck f => trivial

theorem reaches_onRaise {P : State → Prop} {f : State → State} {r : CmdResult} (hr : reaches P r)
    (hf : ∀ s, P s → P (f s)) : reaches P (onRaise f r) := by
  cases r with
  | ok s => exact hr
  | raised c s => exact hf s hr
  | stuck e => trivial

/-- The geometry check either raises from the state it is made in, or goes on. -/
theorem checkGeometry_cases (needDst : Bool) (k : State → CmdResult) (s : State) :
    (∃ c, geomCheck needDst s.geom = some c ∧ checkGeometry needDst k s = .raised c s) ∨
      (geomCheck needDst s.geom = none ∧ checkGeometry needDst k s = k s) := by
  unfold checkGeometry
  cases h : geomCheck needDst s.geom with
  | some c => exact .inl ⟨c, rfl, rfl⟩
  | none => exact .inr ⟨rfl, rfl⟩

/-- The backing test either goes on or is stuck. -/
theorem needBacked_cases (backed : State → Bool) (f : Fault) (k : State → CmdResult) (s : State) :
    (backed s = true ∧ needBacked backed f k s = k s) ∨ (backed s = false ∧ needBacked backed f k s = .stuck f) := by
  unfold needBacked
  cases h : backed s
  · exact .inr ⟨rfl, rfl⟩
  · exact .inl ⟨rfl, rfl⟩

theorem reaches_checkGeometry {P : State → Prop} {b : Bool} {k : State → CmdResult} {s : State} (hs : P s)
    (hk : reaches P (k s)) : reaches P (checkGeometry b k s) := by
  rcases checkGeometry_cases b k s with ⟨c, -, h⟩ | ⟨-, h⟩ <;> rw [h]
  · exact hs
  · exact hk

theorem reaches_needBacked {P : State → Prop} {b : State → Bool} {f : Fault} {k : State → CmdResult} {s : State}
    (hk : reaches P (k s)) : reaches P (needBacked b f k s) := by
  rcases needBacked_cases b f k s with ⟨-, h⟩ | ⟨-, h⟩ <;> rw [h]
  · exact hk
  · trivial

/-- `runCommand` inverted: rejected because an error is pending, completed, or ended by an error. -/
theorem runCommand_next {exempt : Bool} {body : State → CmdResult} {s t : State}
    (h : runCommand exempt body s = .next t) :
    (s.err ≠ 0#8 ∧ exempt = false ∧ t = complete (accept s)) ∨
      ((s.err = 0#8 ∨ exempt = true) ∧
        ((∃ u, body (accept s) = .ok u ∧ t = complete u) ∨
          ∃ c u, body (accept s) = .raised c u ∧ t = raiseError c u)) := by
  unfold runCommand at h
  split_ifs at h with hp
  · exact .inl ⟨hp.1, hp.2, by injection h with h; exact h.symm⟩
  · refine .inr ⟨by
      by_contra hc
      simp only [not_or, Bool.not_eq_true] at hc
      exact hp hc, ?_⟩
    revert h
    cases hb : body (accept s) with
    | ok u => intro h; injection h with h; exact .inl ⟨u, rfl, h.symm⟩
    | raised c u => intro h; injection h with h; exact .inr ⟨c, u, rfl, h.symm⟩
    | stuck f => intro h; cases h

theorem runCommand_rejected {body : State → CmdResult} {s : State} (h : s.err ≠ 0#8) :
    runCommand false body s = .next (complete (accept s)) := by
  simp [runCommand, h]

theorem runCommand_ok {exempt : Bool} {body : State → CmdResult} {s u : State} (h : s.err = 0#8 ∨ exempt = true)
    (hb : body (accept s) = .ok u) : runCommand exempt body s = .next (complete u) := by
  unfold runCommand
  rw [if_neg, hb]
  rintro ⟨h1, h2⟩
  rcases h with h | h
  · exact h1 h
  · rw [h] at h2; cases h2

theorem runCommand_raised {exempt : Bool} {body : State → CmdResult} {s u : State} {c : ErrCode}
    (h : s.err = 0#8 ∨ exempt = true) (hb : body (accept s) = .raised c u) :
    runCommand exempt body s = .next (raiseError c u) := by
  unfold runCommand
  rw [if_neg, hb]
  rintro ⟨h1, h2⟩
  rcases h with h | h
  · exact h1 h
  · rw [h] at h2; cases h2

/-- `runCommand` never refuses. -/
theorem runCommand_not_refused (exempt : Bool) (body : State → CmdResult) (s : State) (r : Refusal) :
    runCommand exempt body s ≠ .refused r := by
  unfold runCommand
  split_ifs
  · exact fun h => by cases h
  · cases body (accept s) <;> exact fun h => by cases h

/-- A property of every state a command's rule reaches, kept by completion and error entry, holds after the command. -/
theorem runCommand_reaches {P : State → Prop} {exempt : Bool} {body : State → CmdResult} {s t : State}
    (h : runCommand exempt body s = .next t) (hs : P (accept s)) (hb : reaches P (body (accept s)))
    (hc : ∀ u, P u → P (complete u)) (hr : ∀ c u, P u → P (raiseError c u)) : P t := by
  rcases runCommand_next h with ⟨-, -, rfl⟩ | ⟨-, ⟨u, hu, rfl⟩ | ⟨c, u, hu, rfl⟩⟩
  · exact hc _ hs
  · rw [hu] at hb; exact hc _ hb
  · rw [hu] at hb; exact hr _ _ hb

/-- What a passed geometry check guarantees (R69). -/
theorem geomCheck_none {needDst : Bool} {g : Geometry} :
    geomCheck needDst g = none ↔
      0 < regionWidth g ∧ 0 < regionHeight g ∧ regionWidth g ≤ g.srcStride.toNat ∧
        lastAddr g.srcBase.toNat g.srcStride.toNat g < 2 ^ 32 ∧
        (needDst = true → regionWidth g ≤ g.dstStride.toNat ∧ lastAddr g.dstBase.toNat g.dstStride.toNat g < 2 ^ 32) := by
  unfold geomCheck
  cases needDst <;> split_ifs <;> simp_all <;> omega

/-- The positions of the active region. -/
theorem mem_positions {g : Geometry} {p : Nat × Nat} :
    p ∈ positions g ↔ p.1 < regionHeight g ∧ p.2 < regionWidth g := by
  obtain ⟨y, x⟩ := p
  simp only [positions, List.mem_flatMap, List.mem_map, List.mem_range, Prod.mk.injEq]
  constructor
  · rintro ⟨y', hy, x', hx, rfl, rfl⟩; exact ⟨hy, hx⟩
  · rintro ⟨hy, hx⟩; exact ⟨y, hy, x, hx, rfl, rfl⟩

theorem length_positions (g : Geometry) : (positions g).length = regionSize g := by
  simp [positions, regionSize, List.length_flatMap, Nat.mul_comm]

theorem nodup_positions (g : Geometry) : (positions g).Nodup := by
  unfold positions
  rw [List.nodup_flatMap]
  refine ⟨fun y _ => List.Nodup.map (fun _ _ h => (Prod.mk.inj h).2) List.nodup_range, ?_⟩
  refine List.nodup_range.pairwise_of_forall_ne fun a _ b _ hab => ?_
  simp only [Function.onFun, List.disjoint_left, List.mem_map]
  rintro _ ⟨x, -, rfl⟩ ⟨x', -, h⟩
  exact hab (Prod.mk.inj h).1.symm

/-- Distinct positions of a row length that holds them have distinct addresses. -/
theorem rowMajor_injective {w stride base y x y' x' : Nat} (hw : w ≤ stride) (hx : x < w) (hx' : x' < w)
    (h : base + y * stride + x = base + y' * stride + x') : y = y' ∧ x = x' := by
  have hy : y = y' := by
    rcases Nat.lt_trichotomy y y' with hlt | heq | hgt
    · have := Nat.mul_le_mul_right stride (Nat.succ_le_of_lt hlt)
      rw [Nat.succ_mul] at this
      omega
    · exact heq
    · have := Nat.mul_le_mul_right stride (Nat.succ_le_of_lt hgt)
      rw [Nat.succ_mul] at this
      omega
  subst hy
  exact ⟨rfl, by omega⟩

theorem dstAddr_injOn {g : Geometry} (hw : regionWidth g ≤ g.dstStride.toNat) {p q : Nat × Nat}
    (hp : p ∈ positions g) (hq : q ∈ positions g) (h : dstAddr g p = dstAddr g q) : p = q := by
  have := rowMajor_injective hw (mem_positions.1 hp).2 (mem_positions.1 hq).2 h
  exact Prod.ext this.1 this.2

theorem cellBytes_pos (s : State) : 0 < cellBytes s := by unfold cellBytes; split_ifs <;> omega

end Sys2Proof.Machine
end

