-- ==== Sys2Proof/Laws/Commands.lean ====
section
/-! SUPPORT. Laws/Commands.lean: what each command's rule can do, said once. -/

namespace Sys2Proof.Machine

/-- The rule of each command, as its meaning hands it to `runCommand`. -/
def bodyOf : Instr → State → CmdResult
  | .nop => CmdResult.ok
  | .init => initBody
  | .clrerr => fun t => .ok (clearError t)
  | .sreset => fun t => .ok (blockReset t)
  | .poly => polyBody
  | .lut => lutBody
  | .avg => avgBody
  | .expo => expoBody
  | .copy => copyBody
  | .pixel => pixelBody
  | .remap => remapBody
  | .xform => xformBody

/-- Every command is its rule inside the shell of R110. -/
theorem exec_eq_runCommand (i : Instr) (s : State) : exec i s = runCommand (exemptFromError i) (bodyOf i) s := by
  cases i <;> rfl

/-- A command inverted: rejected because an error is pending, completed, or ended by an error. -/
theorem exec_next {i : Instr} {s t : State} (h : exec i s = .next t) :
    (s.err ≠ 0#8 ∧ exemptFromError i = false ∧ t = complete (accept s)) ∨
      ((s.err = 0#8 ∨ exemptFromError i = true) ∧
        ((∃ u, bodyOf i (accept s) = .ok u ∧ t = complete u) ∨
          ∃ c u, bodyOf i (accept s) = .raised c u ∧ t = raiseError c u)) :=
  runCommand_next (exec_eq_runCommand i s ▸ h)

/-- A property of every state a command's rule reaches, kept by completion and error entry, holds after the command. -/
theorem exec_reaches {P : State → Prop} {i : Instr} {s t : State} (h : exec i s = .next t) (hs : P (accept s))
    (hb : reaches P (bodyOf i (accept s))) (hc : ∀ u, P u → P (complete u)) (hr : ∀ c u, P u → P (raiseError c u)) :
    P t :=
  runCommand_reaches (exec_eq_runCommand i s ▸ h) hs hb hc hr

theorem exec_rejected {i : Instr} {s : State} (hi : exemptFromError i = false) (h : s.err ≠ 0#8) :
    exec i s = .next (complete (accept s)) := by
  rw [exec_eq_runCommand, hi]; exact runCommand_rejected h

theorem exec_ok {i : Instr} {s u : State} (h : s.err = 0#8 ∨ exemptFromError i = true)
    (hb : bodyOf i (accept s) = .ok u) : exec i s = .next (complete u) := by
  rw [exec_eq_runCommand]; exact runCommand_ok h hb

theorem exec_raised {i : Instr} {s u : State} {c : ErrCode} (h : s.err = 0#8 ∨ exemptFromError i = true)
    (hb : bodyOf i (accept s) = .raised c u) : exec i s = .next (raiseError c u) := by
  rw [exec_eq_runCommand]; exact runCommand_raised h hb

theorem regionSum_int {s : State} (h : s.act.flt = false) :
    regionSum s = BitVec.ofNat 64 (sumInt (srcSamples s)) := by rw [regionSum, h]; exact if_neg Bool.false_ne_true

theorem regionSum_flt {s : State} (h : s.act.flt = true) : regionSum s = FSUM s.params.fsum (srcSamples s) := by
  rw [regionSum, h]; exact if_pos rfl

/-- The default `FSUM` is the left-to-right sum (R152). -/
@[simp] theorem FSUM_leftToRight (l : List Word) : FSUM .leftToRight l = sumFlt l := rfl

@[simp] theorem ulpDistance_self (w : Word) : ulpDistance w w = 0 := by simp [ulpDistance]

/-- Whatever the implementation, `FSUM`'s average is within the tolerance of the default's (R154). -/
theorem FSUM_within (choice : Summation) (l : List Word) :
    ulpDistance (avgFlt (FSUM choice l) l.length) (avgFlt (sumFlt l) l.length) ≤ Config.avgUlpTol := by
  cases choice with
  | leftToRight => rw [FSUM_leftToRight, ulpDistance_self]; exact Nat.zero_le _
  | implementation =>
    unfold FSUM
    dsimp only
    split_ifs with h
    · unfold fsumAdmissible at h
      rw [Bool.and_eq_true] at h
      exact of_decide_eq_true h.2
    · rw [ulpDistance_self]; exact Nat.zero_le _

theorem averageOf_int {s : State} (h : s.act.flt = false) (d : Dword) :
    averageOf s d = avgInt d.toNat (regionSize s.geom) s.desc.peak.toNat := by
  rw [averageOf, h]; exact if_neg Bool.false_ne_true

theorem averageOf_flt {s : State} (h : s.act.flt = true) (d : Dword) :
    averageOf s d = avgFlt d (regionSize s.geom) := by rw [averageOf, h]; exact if_pos rfl

/-- The integer sum as a list sum. -/
theorem sumInt_eq (l : List Word) : sumInt l = (l.map BitVec.toNat).sum := by
  have h : ∀ (l : List Word) a, l.foldl (fun acc c => acc + c.toNat) a = a + (l.map BitVec.toNat).sum := by
    intro l
    induction l with
    | nil => simp
    | cons c l ih => intro a; simp [ih, Nat.add_assoc]
  exact (h l 0).trans (Nat.zero_add _)

/-- The average: a bad sample, a non-finite float average, or `SUM`, `AVG` and `AVG_VALID` written (R156). -/
theorem averagePlane_cases (s : State) :
    ((srcSamples s).all (sampleValid s) = false ∧ averagePlane s = .raised .sample s) ∨
      ((srcSamples s).all (sampleValid s) = true ∧ s.act.flt = true ∧
        isfinite32 (averageOf s (regionSum s)) = false ∧
        averagePlane s = .raised .numeric { s with sum := regionSum s }) ∨
      ((srcSamples s).all (sampleValid s) = true ∧
        (s.act.flt = true → isfinite32 (averageOf s (regionSum s)) = true) ∧
        averagePlane s = .ok { s with
          sum := regionSum s, avg := averageOf s (regionSum s), status := flagsAvgDone s.status }) := by
  unfold averagePlane
  cases hv : (srcSamples s).all (sampleValid s)
  · exact .inl ⟨rfl, rfl⟩
  · right
    by_cases hc : s.act.flt = true ∧ isfinite32 (averageOf s (regionSum s)) = false
    · exact .inl ⟨rfl, hc.1, hc.2, by simp [hc.1, hc.2]⟩
    · refine .inr ⟨rfl, fun hf => ?_, by simp only [Bool.true_eq_false, if_false, if_neg hc]⟩
      by_contra hn
      exact hc ⟨hf, by simpa using hn⟩

/-- The exponent: not finite, or `EXP` and `EXP_VALID` written (R158). -/
theorem deriveExponent_cases (s : State) :
    (isfinite32 (expoOf s.avg s.act.ls) = false ∧
        deriveExponent s = .raised .numeric { s with status := flagsExpStart s.status }) ∨
      (isfinite32 (expoOf s.avg s.act.ls) = true ∧
        deriveExponent s = .ok { s with
          exp := expoOf s.avg s.act.ls, status := flagsExpDone (flagsExpStart s.status) }) := by
  unfold deriveExponent
  cases h : isfinite32 (expoOf s.avg s.act.ls)
  · exact .inl ⟨rfl, by simp [h]⟩
  · exact .inr ⟨rfl, by simp [h]⟩

/-- The remap loop: a bad sample, or the writes of the region (R176). -/
theorem remapPlane_cases (s : State) :
    ((srcSamples s).all (sampleValid s) = false ∧ remapPlane s = .raised .sample s) ∨
      ((srcSamples s).all (sampleValid s) = true ∧
        remapPlane s = .ok { s with dst := Plane.writeCells s.dst (cellBytes s) (remapWrites s) }) := by
  unfold remapPlane
  cases h : (srcSamples s).all (sampleValid s)
  · exact .inl ⟨rfl, by simp⟩
  · exact .inr ⟨rfl, by simp⟩

/-- `INIT`: the first failing test's error from the un-constructed state, or the constructed one (R112). -/
theorem initBody_cases (s : State) :
    (∃ c, requestError s.req = some c ∧ initBody s = .raised c (unconstruct s)) ∨
      (requestError s.req = none ∧ initBody s = .ok (construct (unconstruct s))) := by
  unfold initBody
  cases h : requestError s.req with
  | some c => exact .inl ⟨c, rfl, rfl⟩
  | none => exact .inr ⟨rfl, rfl⟩

/-- `POLY`: the polynomial's value, or some NaN (R134). -/
theorem polyBody_cases (s : State) :
    (isnan32 (poly s.arg) = false ∧ polyBody s = .ok { s with result := poly s.arg }) ∨
      (isnan32 (poly s.arg) = true ∧
        polyBody s = .ok { s with result := nanOf (Config.freeWord s.draws), draws := s.draws + 1 }) := by
  unfold polyBody polyOperand
  cases h : isnan32 (poly s.arg)
  · exact .inl ⟨rfl, by simp [h]⟩
  · exact .inr ⟨rfl, by simp [h]⟩

/-- `LUT`: not ready, an index above `PEAK`, or the entry (R135). -/
theorem lutBody_cases (s : State) :
    ((s.status.ready = false ∨ s.status.tblValid = false) ∧ lutBody s = .raised .notReady s) ∨
      (s.status.ready = true ∧ s.status.tblValid = true ∧ s.desc.peak.toNat < s.arg.toNat ∧
        lutBody s = .raised .sample s) ∨
      (s.status.ready = true ∧ s.status.tblValid = true ∧ s.arg.toNat ≤ s.desc.peak.toNat ∧
        lutBody s = .ok { s with result := tableRead s s.arg.toNat }) := by
  unfold lutBody lutIndex
  cases h1 : s.status.ready <;> cases h2 : s.status.tblValid <;> simp
  by_cases h3 : s.desc.peak.toNat < s.arg.toNat
  · simp [h3]
  · simp only [h3, false_or, not_lt.1 h3]

/-- `EXPO`: not ready, or the exponent step (R158). -/
theorem expoBody_cases (s : State) :
    ((s.status.ready = false ∨ s.status.avgValid = false) ∧ expoBody s = .raised .notReady s) ∨
      (s.status.ready = true ∧ s.status.avgValid = true ∧ expoBody s = deriveExponent s) := by
  unfold expoBody
  cases h1 : s.status.ready <;> cases h2 : s.status.avgValid <;> simp

/-- `PIXEL`: not ready, a bad sample, or the remapped value (R174). -/
theorem pixelBody_cases (s : State) :
    ((s.status.ready = false ∨ s.status.expValid = false) ∧ pixelBody s = .raised .notReady s) ∨
      (s.status.ready = true ∧ s.status.expValid = true ∧ sampleValid s s.arg = false ∧
        pixelBody s = .raised .sample s) ∨
      (s.status.ready = true ∧ s.status.expValid = true ∧ sampleValid s s.arg = true ∧
        pixelBody s = .ok { s with result := remappedValue s s.arg }) := by
  unfold pixelBody pixelSample
  cases h1 : s.status.ready <;> cases h2 : s.status.expValid <;> cases h3 : sampleValid s s.arg <;> simp

/-- `AVG`: not ready; a geometry error; stuck; or the average, the two flags cleared first (R156). -/
theorem avgBody_cases (s : State) :
    (s.status.ready = false ∧ avgBody s = .raised .notReady s) ∨
      (∃ c, s.status.ready = true ∧ geomCheck false s.geom = some c ∧
        avgBody s = .raised c { s with status := flagsAvgStart s.status }) ∨
      (s.status.ready = true ∧ geomCheck false s.geom = none ∧ srcRegionBacked s = false ∧
        avgBody s = .stuck .unbackedSource) ∨
      (s.status.ready = true ∧ geomCheck false s.geom = none ∧ srcRegionBacked s = true ∧
        avgBody s = averagePlane { s with status := flagsAvgStart s.status }) := by
  unfold avgBody
  cases hr : s.status.ready
  · exact .inl ⟨rfl, rfl⟩
  · right
    simp only [Bool.true_eq_false, if_false, true_and]
    rcases checkGeometry_cases false (needBacked srcRegionBacked .unbackedSource averagePlane)
      { s with status := flagsAvgStart s.status } with ⟨c, hc, h⟩ | ⟨hc, h⟩
    · exact .inl ⟨c, hc, h⟩
    · rcases needBacked_cases srcRegionBacked .unbackedSource averagePlane
        { s with status := flagsAvgStart s.status } with ⟨hb, h'⟩ | ⟨hb, h'⟩
      · exact .inr (.inr ⟨hc, hb, h.trans h'⟩)
      · exact .inr (.inl ⟨hc, hb, h.trans h'⟩)

/-- `COPY`: not ready; a geometry error; stuck, on which plane; or the copied region (R175). -/
theorem copyBody_cases (s : State) :
    (s.status.ready = false ∧ copyBody s = .raised .notReady s) ∨
      (∃ c, s.status.ready = true ∧ geomCheck true s.geom = some c ∧
        copyBody s = .raised c { s with status := flagsPlaneStart s.status }) ∨
      (∃ f, s.status.ready = true ∧ geomCheck true s.geom = none ∧
        (srcRegionBacked s = false ∧ f = .unbackedSource ∨
          srcRegionBacked s = true ∧ dstRegionBacked s = false ∧ f = .unbackedDestination) ∧
        copyBody s = .stuck f) ∨
      (s.status.ready = true ∧ geomCheck true s.geom = none ∧ srcRegionBacked s = true ∧
        dstRegionBacked s = true ∧
        copyBody s = .ok { s with
          status := flagsPlaneStart s.status
          dst := Plane.writeCells s.dst (cellBytes s) (copyWrites s) }) := by
  unfold copyBody
  cases hr : s.status.ready
  · exact .inl ⟨rfl, rfl⟩
  · right
    simp only [Bool.true_eq_false, if_false, true_and]
    rcases checkGeometry_cases true (needBacked srcRegionBacked .unbackedSource
        (needBacked dstRegionBacked .unbackedDestination (fun t => .ok (copyPlane t))))
      { s with status := flagsPlaneStart s.status } with ⟨c, hc, h⟩ | ⟨hc, h⟩
    · exact .inl ⟨c, hc, h⟩
    · rcases needBacked_cases srcRegionBacked .unbackedSource
          (needBacked dstRegionBacked .unbackedDestination (fun t => .ok (copyPlane t)))
        { s with status := flagsPlaneStart s.status } with ⟨hb, h'⟩ | ⟨hb, h'⟩
      · rcases needBacked_cases dstRegionBacked .unbackedDestination (fun t => .ok (copyPlane t))
          { s with status := flagsPlaneStart s.status } with ⟨hd, h''⟩ | ⟨hd, h''⟩
        · exact .inr (.inr ⟨hc, hb, hd, h.trans (h'.trans h'')⟩)
        · exact .inr (.inl ⟨_, hc, .inr ⟨hb, hd, rfl⟩, h.trans (h'.trans h'')⟩)
      · exact .inr (.inl ⟨_, hc, .inl ⟨hb, rfl⟩, h.trans h'⟩)

/-- `REMAP`: not ready; a geometry error; stuck, on which plane; a bad sample, the region unspecified; or the remapped
region (R176, R206). -/
theorem remapBody_cases (s : State) :
    ((s.status.ready = false ∨ s.status.expValid = false) ∧ remapBody s = .raised .notReady s) ∨
      (∃ c, s.status.ready = true ∧ s.status.expValid = true ∧ geomCheck true s.geom = some c ∧
        remapBody s = .raised c { s with status := flagsPlaneStart s.status }) ∨
      (∃ f, s.status.ready = true ∧ s.status.expValid = true ∧ geomCheck true s.geom = none ∧
        (srcRegionBacked s = false ∧ f = .unbackedSource ∨
          srcRegionBacked s = true ∧ remapTargetsBacked s = false ∧ f = .unbackedDestination) ∧
        remapBody s = .stuck f) ∨
      (s.status.ready = true ∧ s.status.expValid = true ∧ geomCheck true s.geom = none ∧
        srcRegionBacked s = true ∧ remapTargetsBacked s = true ∧
        (srcSamples s).all (sampleValid s) = false ∧
        remapBody s = .raised .sample (scrambleRegion { s with status := flagsPlaneStart s.status })) ∨
      (s.status.ready = true ∧ s.status.expValid = true ∧ geomCheck true s.geom = none ∧
        srcRegionBacked s = true ∧ remapTargetsBacked s = true ∧
        (srcSamples s).all (sampleValid s) = true ∧
        remapBody s = .ok { s with
          status := flagsPlaneStart s.status
          dst := Plane.writeCells s.dst (cellBytes s) (remapWrites s) }) := by
  unfold remapBody
  cases hr : s.status.ready
  · exact .inl ⟨.inl rfl, by simp⟩
  cases he : s.status.expValid
  · exact .inl ⟨.inr rfl, by simp⟩
  right
  simp only [Bool.true_eq_false, or_self, if_false, true_and]
  rcases checkGeometry_cases true (needBacked srcRegionBacked .unbackedSource
      (needBacked remapTargetsBacked .unbackedDestination (fun t => onRaise scrambleRegion (remapPlane t))))
    { s with status := flagsPlaneStart s.status } with ⟨c, hc, h⟩ | ⟨hc, h⟩
  · exact .inl ⟨c, hc, h⟩
  · rcases needBacked_cases srcRegionBacked .unbackedSource
        (needBacked remapTargetsBacked .unbackedDestination (fun t => onRaise scrambleRegion (remapPlane t)))
      { s with status := flagsPlaneStart s.status } with ⟨hb, h'⟩ | ⟨hb, h'⟩
    · rcases needBacked_cases remapTargetsBacked .unbackedDestination
          (fun t => onRaise scrambleRegion (remapPlane t))
        { s with status := flagsPlaneStart s.status } with ⟨hd, h''⟩ | ⟨hd, h''⟩
      · refine .inr (.inr ?_)
        rcases remapPlane_cases { s with status := flagsPlaneStart s.status } with ⟨hv, h3⟩ | ⟨hv, h3⟩
        · exact .inl ⟨hc, hb, hd, hv, h.trans (h'.trans (h''.trans (by rw [h3]; rfl)))⟩
        · exact .inr ⟨hc, hb, hd, hv, h.trans (h'.trans (h''.trans (by rw [h3]; rfl)))⟩
      · exact .inr (.inl ⟨_, hc, .inr ⟨hb, hd, rfl⟩, h.trans (h'.trans h'')⟩)
    · exact .inr (.inl ⟨_, hc, .inl ⟨hb, rfl⟩, h.trans h'⟩)

/-- What steps 1 to 4 of `XFORM` do past its checks: a bad sample, a non-finite average, a non-finite exponent, or the
frame (R177). -/
theorem xformSteps_cases (s : State) :
    ((srcSamples s).all (sampleValid s) = false ∧ xformSteps s = .raised .sample (copyPlane s)) ∨
      ((srcSamples s).all (sampleValid s) = true ∧ s.act.flt = true ∧
        isfinite32 (averageOf s (regionSum s)) = false ∧
        xformSteps s = .raised .numeric { copyPlane s with sum := regionSum s }) ∨
      ((srcSamples s).all (sampleValid s) = true ∧
        (s.act.flt = true → isfinite32 (averageOf s (regionSum s)) = true) ∧
        isfinite32 (expoOf (averageOf s (regionSum s)) s.act.ls) = false ∧
        xformSteps s = .raised .numeric { copyPlane s with
          sum := regionSum s, avg := averageOf s (regionSum s)
          status := flagsExpStart (flagsAvgDone s.status) }) ∨
      ((srcSamples s).all (sampleValid s) = true ∧
        (s.act.flt = true → isfinite32 (averageOf s (regionSum s)) = true) ∧
        isfinite32 (expoOf (averageOf s (regionSum s)) s.act.ls) = true ∧
        xformSteps s = .ok { s with
          sum := regionSum s, avg := averageOf s (regionSum s)
          exp := expoOf (averageOf s (regionSum s)) s.act.ls
          status := flagsExpDone (flagsExpStart (flagsAvgDone s.status))
          dst := Plane.writeCells (Plane.writeCells s.dst (cellBytes s) (copyWrites s)) (cellBytes s)
            (remapWrites { s with exp := expoOf (averageOf s (regionSum s)) s.act.ls }) }) := by
  unfold xformSteps
  rcases averagePlane_cases (copyPlane s) with ⟨hv, h⟩ | ⟨hv, hf, ha, h⟩ | ⟨hv, ha, h⟩ <;> rw [h]
  · exact .inl ⟨hv, rfl⟩
  · exact .inr (.inl ⟨hv, hf, ha, rfl⟩)
  · rw [andThen_ok]
    rcases deriveExponent_cases { copyPlane s with
      sum := regionSum s, avg := averageOf s (regionSum s), status := flagsAvgDone s.status } with ⟨he, h⟩ | ⟨he, h⟩
    · exact .inr (.inr (.inl ⟨hv, ha, he, congrArg (andThen · remapPlane) h⟩))
    · refine .inr (.inr (.inr ⟨hv, ha, he, (congrArg (andThen · remapPlane) h).trans ?_⟩))
      rw [andThen_ok]
      rcases remapPlane_cases { copyPlane s with
        sum := regionSum s, avg := averageOf s (regionSum s)
        exp := expoOf (averageOf s (regionSum s)) s.act.ls
        status := flagsExpDone (flagsExpStart (flagsAvgDone s.status)) } with ⟨hv', _⟩ | ⟨_, h⟩
      · exact absurd (hv.symm.trans hv') (by simp)
      · exact h

/-- `XFORM`: not ready; a geometry error; stuck, on which plane; one of its three later errors, the region unspecified; or
the frame (R177, R206). -/
theorem xformBody_cases (s : State) :
    (s.status.ready = false ∧ xformBody s = .raised .notReady s) ∨
      (∃ c, s.status.ready = true ∧ geomCheck true s.geom = some c ∧
        xformBody s = .raised c { s with status := flagsXformStart s.status }) ∨
      (∃ f, s.status.ready = true ∧ geomCheck true s.geom = none ∧
        (srcRegionBacked s = false ∧ f = .unbackedSource ∨
          srcRegionBacked s = true ∧ dstRegionBacked s = false ∧ f = .unbackedDestination) ∧
        xformBody s = .stuck f) ∨
      (s.status.ready = true ∧ geomCheck true s.geom = none ∧ srcRegionBacked s = true ∧
        dstRegionBacked s = true ∧
        xformBody s = onRaise scrambleRegion (andThen (xformSteps { s with status := flagsXformStart s.status })
          fun u => .ok { u with status := flagsFrameDone u.status })) := by
  unfold xformBody
  cases hr : s.status.ready
  · exact .inl ⟨rfl, rfl⟩
  · right
    simp only [Bool.true_eq_false, if_false, true_and]
    generalize hk : (fun t => onRaise scrambleRegion
      (andThen (xformSteps t) fun u => CmdResult.ok { u with status := flagsFrameDone u.status })) = k
    rcases checkGeometry_cases true (needBacked srcRegionBacked .unbackedSource
        (needBacked dstRegionBacked .unbackedDestination k))
      { s with status := flagsXformStart s.status } with ⟨c, hc, h⟩ | ⟨hc, h⟩
    · exact .inl ⟨c, hc, h⟩
    · rcases needBacked_cases srcRegionBacked .unbackedSource (needBacked dstRegionBacked .unbackedDestination k)
        { s with status := flagsXformStart s.status } with ⟨hb, h'⟩ | ⟨hb, h'⟩
      · rcases needBacked_cases dstRegionBacked .unbackedDestination k
          { s with status := flagsXformStart s.status } with ⟨hd, h''⟩ | ⟨hd, h''⟩
        · exact .inr (.inr ⟨hc, hb, hd, h.trans (h'.trans (h''.trans (by rw [← hk])))⟩)
        · exact .inr (.inl ⟨_, hc, .inr ⟨hb, hd, rfl⟩, h.trans (h'.trans h'')⟩)
      · exact .inr (.inl ⟨_, hc, .inl ⟨hb, rfl⟩, h.trans h'⟩)

/-- What the average can change, whatever its end. -/
theorem averagePlane_frame (s : State) :
    reaches (fun t => ∃ sum avg status, t = { s with sum := sum, avg := avg, status := status }) (averagePlane s) := by
  rcases averagePlane_cases s with ⟨-, h⟩ | ⟨-, -, -, h⟩ | ⟨-, -, h⟩ <;> rw [h]
  · exact ⟨s.sum, s.avg, s.status, rfl⟩
  · exact ⟨_, s.avg, s.status, rfl⟩
  · exact ⟨_, _, _, rfl⟩

/-- What the exponent step can change, whatever its end. -/
theorem deriveExponent_frame (s : State) :
    reaches (fun t => ∃ exp status, t = { s with exp := exp, status := status }) (deriveExponent s) := by
  rcases deriveExponent_cases s with ⟨-, h⟩ | ⟨-, h⟩ <;> rw [h]
  · exact ⟨s.exp, _, rfl⟩
  · exact ⟨_, _, rfl⟩

/-- What the remap loop can change, whatever its end. -/
theorem remapPlane_frame (s : State) :
    reaches (fun t => t = s ∨ t = { s with dst := Plane.writeCells s.dst (cellBytes s) (remapWrites s) })
      (remapPlane s) := by
  rcases remapPlane_cases s with ⟨-, h⟩ | ⟨-, h⟩ <;> rw [h]
  · exact .inl rfl
  · exact .inr rfl

/-- A write of the remap goes to the destination address of a position of the region. -/
theorem mem_remapWrites {s : State} {c : Nat × Word} :
    c ∈ remapWrites s ↔
      ∃ p ∈ positions s.geom, remapCell s (srcCell s p) = .out c.2 ∧ c.1 = dstAddr s.geom p := by
  simp only [remapWrites, List.mem_filterMap, remapWrite]
  refine exists_congr fun p => and_congr_right fun _ => ?_
  cases h : remapCell s (srcCell s p) with
  | keep => simp
  | out v =>
    simp only [Option.some.injEq, Remapped.out.injEq, Prod.ext_iff]
    constructor
    · rintro ⟨h1, h2⟩; exact ⟨h2, h1.symm⟩
    · rintro ⟨h1, h2⟩; exact ⟨h2.symm, h1⟩

theorem mem_copyWrites {s : State} {c : Nat × Word} :
    c ∈ copyWrites s ↔ ∃ p ∈ positions s.geom, c = (dstAddr s.geom p, srcCell s p) := by
  simp only [copyWrites, List.mem_map]
  exact exists_congr fun p => and_congr_right fun _ => eq_comm

theorem copyWrites_nodup {s : State} (hw : regionWidth s.geom ≤ s.geom.dstStride.toNat) :
    ((copyWrites s).map Prod.fst).Nodup := by
  simp only [copyWrites, List.map_map]
  exact (nodup_positions s.geom).map_on fun p hp q hq h => dstAddr_injOn hw hp hq h

theorem remapWrites_nodup {s : State} (hw : regionWidth s.geom ≤ s.geom.dstStride.toNat) :
    ((remapWrites s).map Prod.fst).Nodup := by
  have hsub : ((remapWrites s).map Prod.fst).Sublist ((positions s.geom).map (dstAddr s.geom)) := by
    unfold remapWrites
    induction positions s.geom with
    | nil => exact List.Sublist.slnil
    | cons p l ih =>
      rw [List.filterMap_cons]
      cases h : remapWrite s p with
      | none => exact ih.cons _
      | some c =>
        have hc : c.1 = dstAddr s.geom p := by
          unfold remapWrite at h
          split at h
          · cases h
          · injection h with h; rw [← h]
        rw [List.map_cons, List.map_cons, hc]
        exact ih.cons_cons _
  exact hsub.nodup ((nodup_positions s.geom).map_on fun p hp q hq h => dstAddr_injOn hw hp hq h)

end Sys2Proof.Machine
end

