-- ==== Sys2Proof/Laws/Float.lean ====
section
/-! SUPPORT. Laws/Float.lean: the laws of the floating-point primitives: rounding stays between the representable
magnitudes that bound its argument, and reading back what was written gives the datum written. -/

namespace Sys2Proof.Machine

/-- A magnitude that a format holds exactly (overflow apart): it has at most `frac + 1` significant bits. -/
def IsMag (f : FloatFormat) (m : Nat) : Prop := 2 ^ (Nat.log2 m - f.frac) ∣ m

theorem isMag_zero (f : FloatFormat) : IsMag f 0 := Nat.dvd_zero _

/-- A magnitude below `2^(frac+1)` is held exactly. -/
theorem isMag_of_lt {f : FloatFormat} {m : Nat} (h : m < 2 ^ (f.frac + 1)) : IsMag f m := by
  rcases Nat.eq_zero_or_pos m with rfl | hm
  · exact isMag_zero f
  · have : Nat.log2 m < f.frac + 1 := (Nat.log2_lt hm.ne').2 h
    simp [IsMag, Nat.sub_eq_zero_of_le (Nat.lt_succ_iff.1 this)]

/-- The binary logarithm of a significand of full length, shifted. -/
theorem log2_shifted {p a j : Nat} (h1 : 2 ^ p ≤ a) (h2 : a < 2 ^ (p + 1)) : Nat.log2 (a * 2 ^ j) = p + j := by
  have hp : 0 < a := lt_of_lt_of_le (Nat.two_pow_pos p) h1
  rw [Nat.log2_eq_iff (Nat.mul_pos hp (Nat.two_pow_pos j)).ne']
  constructor
  · rw [pow_add]; exact Nat.mul_le_mul_right _ h1
  · rw [Nat.add_right_comm, pow_add]; exact Nat.mul_lt_mul_of_pos_right h2 (Nat.two_pow_pos j)

theorem isMag_shifted {f : FloatFormat} {a j : Nat} (h : a < 2 ^ (f.frac + 1)) (hj : 2 ^ f.frac ≤ a ∨ j = 0) :
    IsMag f (a * 2 ^ j) := by
  rcases hj with h1 | rfl
  · rw [IsMag, log2_shifted h1 h, Nat.add_sub_cancel_left]; exact Nat.dvd_mul_left _ _
  · simpa using isMag_of_lt h

/-- Every pattern denotes a representable magnitude. -/
theorem isMag_magOfPattern (f : FloatFormat) (n : Nat) : IsMag f (magOfPattern f n) := by
  unfold magOfPattern
  split_ifs with h
  · exact isMag_of_lt (h.trans (Nat.pow_lt_pow_right (by norm_num) (Nat.lt_succ_self _)))
  · refine isMag_shifted ?_ (.inl (Nat.le_add_right _ _))
    have := Nat.mod_lt n (Nat.two_pow_pos f.frac)
    rw [pow_succ]; omega

/-- The significand of a representable magnitude has at most `frac + 1` bits. -/
theorem significand_lt (f : FloatFormat) (m : Nat) : m / 2 ^ (Nat.log2 m - f.frac) < 2 ^ (f.frac + 1) := by
  rcases Nat.eq_zero_or_pos m with rfl | hm
  · simp
  · rw [Nat.div_lt_iff_lt_mul (Nat.two_pow_pos _), ← pow_add]
    refine lt_of_lt_of_le (Nat.lt_log2_self (n := m)) (Nat.pow_le_pow_right (by norm_num) ?_)
    omega

/-- A shifted significand is of full length. -/
theorem le_significand {f : FloatFormat} {m : Nat} (h : f.frac < Nat.log2 m) :
    2 ^ f.frac ≤ m / 2 ^ (Nat.log2 m - f.frac) := by
  have hm : m ≠ 0 := by rintro rfl; simp at h
  rw [Nat.le_div_iff_mul_le (Nat.two_pow_pos _), ← pow_add, Nat.add_sub_cancel' h.le]
  exact Nat.log2_self_le hm

theorem patternOfMag_le (f : FloatFormat) (m : Nat) : patternOfMag f m ≤ infPattern f := Nat.min_le_left _ _

/-- Writing a representable magnitude that does not overflow and reading it back gives it. -/
theorem magOfPattern_patternOfMag {f : FloatFormat} {m : Nat} (h : IsMag f m) (hlt : patternOfMag f m < infPattern f) :
    magOfPattern f (patternOfMag f m) = m := by
  have hp : patternOfMag f m = (Nat.log2 m - f.frac) * 2 ^ f.frac + m / 2 ^ (Nat.log2 m - f.frac) := by
    have e : patternOfMag f m =
        min (infPattern f) ((Nat.log2 m - f.frac) * 2 ^ f.frac + m / 2 ^ (Nat.log2 m - f.frac)) := rfl
    rw [e] at hlt ⊢
    refine min_eq_right (le_of_not_gt fun hn => ?_)
    rw [min_eq_left hn.le] at hlt
    exact lt_irrefl _ hlt
  have hs := significand_lt f m
  have hd := Nat.div_mul_cancel h
  rw [hp]
  by_cases hk : f.frac < Nat.log2 m
  · have hl := le_significand hk
    generalize Nat.log2 m - f.frac = k at hs hd hl ⊢
    generalize m / 2 ^ k = c at hs hd hl ⊢
    have hq : (k * 2 ^ f.frac + c) / 2 ^ f.frac = k + 1 := by
      rw [Nat.add_comm, Nat.add_mul_div_right _ _ (Nat.two_pow_pos _), Nat.add_comm]
      have h1 : c / 2 ^ f.frac = 1 := Nat.div_eq_of_lt_le (by simpa using hl) (by rw [pow_succ] at hs; omega)
      rw [h1]
    have hr : (k * 2 ^ f.frac + c) % 2 ^ f.frac = c - 2 ^ f.frac := by
      rw [Nat.add_comm, Nat.add_mul_mod_self_right, Nat.mod_eq_sub_mod hl, Nat.mod_eq_of_lt]
      rw [pow_succ] at hs; omega
    have hnl : ¬ k * 2 ^ f.frac + c < 2 ^ f.frac := by
      have := Nat.le_add_left c (k * 2 ^ f.frac); omega
    rw [magOfPattern, if_neg hnl, hq, hr, Nat.add_sub_cancel, Nat.add_sub_cancel' hl, hd]
  · have hk0 : Nat.log2 m - f.frac = 0 := by omega
    rw [hk0] at hs ⊢
    simp only [pow_zero, Nat.div_one, Nat.zero_mul, Nat.zero_add] at hs ⊢
    unfold magOfPattern
    split_ifs with hm
    · rfl
    · have hm' : 2 ^ f.frac ≤ m := not_lt.1 hm
      have hs' : m < 2 ^ f.frac * 2 := by rwa [pow_succ] at hs
      have h1 : m / 2 ^ f.frac = 1 := Nat.div_eq_of_lt_le (by simpa using hm') (by omega)
      rw [h1, Nat.mod_eq_sub_mod hm', Nat.mod_eq_of_lt (by omega)]
      omega

/-- Rounding to an integer stays between the integers around its argument. -/
theorem divNearestEven_le {num den c : Nat} (hd : 0 < den) (h : num ≤ c * den) : divNearestEven num den ≤ c := by
  unfold divNearestEven
  have hq : num / den ≤ c := Nat.div_le_of_le_mul (by rwa [Nat.mul_comm])
  rcases Nat.lt_or_ge (num / den) c with hlt | hge
  · simp only; split_ifs <;> omega
  · have he : num / den = c := le_antisymm hq hge
    have hm := Nat.div_add_mod num den
    rw [he, Nat.mul_comm] at hm
    have : num % den = 0 := by omega
    simp only [he, this]
    split_ifs <;> omega

theorem le_divNearestEven {num den c : Nat} (hd : 0 < den) (h : c * den ≤ num) : c ≤ divNearestEven num den := by
  unfold divNearestEven
  have hq : c ≤ num / den := (Nat.le_div_iff_mul_le hd).2 h
  simp only; split_ifs <;> omega

/-- Rounding never passes a representable magnitude, from below. -/
theorem roundMag_le {f : FloatFormat} {num den m : Nat} (hd : 0 < den) (hm : IsMag f m) (h : num ≤ m * den) :
    roundMag f num den ≤ m := by
  unfold roundMag
  have hq : num / den ≤ m := Nat.div_le_of_le_mul (by rwa [Nat.mul_comm])
  have hk : Nat.log2 (num / den) - f.frac ≤ Nat.log2 m - f.frac := by
    have : Nat.log2 (num / den) ≤ Nat.log2 m := by
      rw [Nat.log2_eq_log_two, Nat.log2_eq_log_two]; exact Nat.log_mono_right hq
    omega
  obtain ⟨c, hc⟩ := (pow_dvd_pow 2 hk).trans hm
  generalize Nat.log2 (num / den) - f.frac = k at hc ⊢
  have hpos := Nat.two_pow_pos k
  have hle : divNearestEven num (den * 2 ^ k) ≤ c := by
    refine divNearestEven_le (Nat.mul_pos hd hpos) (h.trans (le_of_eq ?_))
    rw [hc]; ring
  calc divNearestEven num (den * 2 ^ k) * 2 ^ k ≤ c * 2 ^ k := Nat.mul_le_mul_right _ hle
    _ = m := by rw [hc, Nat.mul_comm]

/-- Rounding never passes a representable magnitude, from above. -/
theorem le_roundMag {f : FloatFormat} {num den m : Nat} (hd : 0 < den) (hm : IsMag f m) (h : m * den ≤ num) :
    m ≤ roundMag f num den := by
  unfold roundMag
  have hq : m ≤ num / den := (Nat.le_div_iff_mul_le hd).2 h
  rcases Nat.lt_or_ge (Nat.log2 m - f.frac) (Nat.log2 (num / den) - f.frac) with hk | hk
  swap
  · obtain ⟨c, hc⟩ := (pow_dvd_pow 2 hk).trans hm
    generalize Nat.log2 (num / den) - f.frac = k at hc ⊢
    have hle : c ≤ divNearestEven num (den * 2 ^ k) := by
      refine le_divNearestEven (Nat.mul_pos hd (Nat.two_pow_pos k)) ((le_of_eq ?_).trans h)
      rw [hc]; ring
    calc m = c * 2 ^ k := by rw [hc, Nat.mul_comm]
      _ ≤ _ := Nat.mul_le_mul_right _ hle
  · have hm' : m < 2 ^ (f.frac + (Nat.log2 (num / den) - f.frac)) := by
      refine lt_of_lt_of_le (Nat.lt_log2_self (n := m)) (Nat.pow_le_pow_right (by norm_num) ?_)
      omega
    have hl : f.frac < Nat.log2 (num / den) := by omega
    have hq0 : num / den ≠ 0 := by intro h0; rw [h0] at hl; simp at hl
    have hle : 2 ^ f.frac ≤ divNearestEven num (den * 2 ^ (Nat.log2 (num / den) - f.frac)) := by
      refine le_divNearestEven (Nat.mul_pos hd (Nat.two_pow_pos _)) ?_
      have h2 := (Nat.le_div_iff_mul_le hd).1 (Nat.log2_self_le hq0)
      calc 2 ^ f.frac * (den * 2 ^ (Nat.log2 (num / den) - f.frac))
          = 2 ^ (f.frac + (Nat.log2 (num / den) - f.frac)) * den := by rw [pow_add]; ring
        _ = 2 ^ Nat.log2 (num / den) * den := by rw [Nat.add_sub_cancel' hl.le]
        _ ≤ num := h2
    calc m ≤ 2 ^ f.frac * 2 ^ (Nat.log2 (num / den) - f.frac) := by rw [← pow_add]; exact hm'.le
      _ ≤ _ := Nat.mul_le_mul_right _ hle

/-- A representable magnitude is its own rounding. -/
theorem roundMag_exact {f : FloatFormat} {den m : Nat} (hd : 0 < den) (hm : IsMag f m) :
    roundMag f (m * den) den = m :=
  le_antisymm (roundMag_le hd hm le_rfl) (le_roundMag hd hm le_rfl)

/-- What rounding gives is representable. -/
theorem isMag_roundMag (f : FloatFormat) (num den : Nat) : IsMag f (roundMag f num den) := by
  show IsMag f (divNearestEven num (den * 2 ^ (Nat.log2 (num / den) - f.frac)) *
    2 ^ (Nat.log2 (num / den) - f.frac))
  have hs := significand_lt f (num / den)
  rw [Nat.div_div_eq_div_mul] at hs
  have hle : divNearestEven num (den * 2 ^ (Nat.log2 (num / den) - f.frac)) ≤ 2 ^ (f.frac + 1) := by
    unfold divNearestEven
    simp only; split_ifs <;> omega
  rcases Nat.lt_or_ge f.frac (Nat.log2 (num / den)) with hk | hk
  · have hl := le_significand hk
    rw [Nat.div_div_eq_div_mul] at hl
    have hl' : 2 ^ f.frac ≤ divNearestEven num (den * 2 ^ (Nat.log2 (num / den) - f.frac)) := by
      unfold divNearestEven
      simp only; split_ifs <;> omega
    generalize divNearestEven num (den * 2 ^ (Nat.log2 (num / den) - f.frac)) = c at hle hl' ⊢
    rcases Nat.lt_or_eq_of_le hle with hlt | rfl
    · exact isMag_shifted hlt (.inl hl')
    · rw [← pow_add, Nat.add_assoc, pow_add]
      exact isMag_shifted (Nat.pow_lt_pow_right (by norm_num) (Nat.lt_succ_self _)) (.inl le_rfl)
  · have hk0 : Nat.log2 (num / den) - f.frac = 0 := by omega
    rw [hk0] at hle ⊢
    simp only [pow_zero, Nat.mul_one] at hle ⊢
    rcases Nat.lt_or_eq_of_le hle with hlt | heq
    · exact isMag_of_lt hlt
    · rw [heq, pow_succ]
      simpa using isMag_shifted (f := f) (a := 2 ^ f.frac) (j := 1)
        (Nat.pow_lt_pow_right (by norm_num) (Nat.lt_succ_self _)) (.inl le_rfl)

/-- A datum that the format holds: a finite magnitude is representable and does not overflow. -/
def Fp.held (f : FloatFormat) : Fp → Prop
  | .nan => True
  | .inf _ => True
  | .fin _ m => IsMag f m ∧ patternOfMag f m < infPattern f

theorem roundFp_held (f : FloatFormat) (neg : Bool) (num den : Nat) : Fp.held f (roundFp f neg num den) := by
  unfold roundFp
  simp only
  split_ifs with h
  · trivial
  · exact ⟨isMag_roundMag f num den, lt_of_le_of_ne (patternOfMag_le f _) h⟩

theorem roundFp_not_nan (f : FloatFormat) (neg : Bool) (num den : Nat) : roundFp f neg num den ≠ .nan := by
  unfold roundFp
  simp only
  split_ifs <;> exact fun h => by cases h

/-- Reading a pattern and writing its magnitude gives the pattern. -/
theorem patternOfMag_magOfPattern {f : FloatFormat} {n : Nat} (h : n ≤ infPattern f) :
    patternOfMag f (magOfPattern f n) = n := by
  have e : ∀ m, patternOfMag f m =
      min (infPattern f) ((Nat.log2 m - f.frac) * 2 ^ f.frac + m / 2 ^ (Nat.log2 m - f.frac)) := fun _ => rfl
  rw [e]
  unfold magOfPattern
  split_ifs with hn
  · have hk : Nat.log2 n - f.frac = 0 := by
      rcases Nat.eq_zero_or_pos n with rfl | h0
      · simp
      · exact Nat.sub_eq_zero_of_le ((Nat.log2_lt h0.ne').2 hn).le
    rw [hk]
    simpa using h
  · have hr := Nat.mod_lt n (Nat.two_pow_pos f.frac)
    have hq : 1 ≤ n / 2 ^ f.frac := (Nat.le_div_iff_mul_le (Nat.two_pow_pos _)).2 (by simpa using not_lt.1 hn)
    rw [log2_shifted (Nat.le_add_right _ _) (by rw [pow_succ]; omega), Nat.add_sub_cancel_left,
      Nat.mul_div_cancel _ (Nat.two_pow_pos _)]
    have hm := Nat.div_add_mod n (2 ^ f.frac)
    have hn' : (n / 2 ^ f.frac - 1) * 2 ^ f.frac + (2 ^ f.frac + n % 2 ^ f.frac) = n := by
      obtain ⟨q, hq'⟩ := Nat.exists_eq_add_of_le hq
      rw [hq'] at hm ⊢
      rw [Nat.add_sub_cancel_left, ← Nat.add_assoc]
      rw [Nat.mul_comm, Nat.add_mul, Nat.one_mul] at hm
      omega
    rw [hn', min_eq_right h]

theorem infPattern_add_le (f : FloatFormat) : infPattern f + 2 ^ f.frac = signWeight f := by
  have := Nat.two_pow_pos f.expo
  unfold infPattern signWeight
  rw [Nat.add_comm f.frac, pow_add, ← Nat.succ_mul, Nat.succ_eq_add_one, Nat.sub_add_cancel this]

theorem infPattern_lt (f : FloatFormat) : infPattern f < signWeight f := by
  have := infPattern_add_le f
  have := Nat.two_pow_pos f.frac
  omega

theorem sign_and_rest (f : FloatFormat) (neg : Bool) {n : Nat} (h : n < signWeight f) :
    ((signBits f neg + n) / signWeight f % 2 == 1) = neg ∧ (signBits f neg + n) % signWeight f = n := by
  have hp : 0 < signWeight f := Nat.two_pow_pos _
  cases neg
  · simp [signBits, Nat.div_eq_of_lt h, Nat.mod_eq_of_lt h]
  · simp [signBits, Nat.add_div_left _ hp, Nat.div_eq_of_lt h, Nat.mod_eq_of_lt h]

/-- Reading back what was written. -/
theorem unpack_pack {f : FloatFormat} (hf : 1 ≤ f.frac) {x : Fp} (hx : Fp.held f x) : unpack f (pack f x) = x := by
  cases x with
  | nan =>
    have h1 : 2 ^ (f.frac - 1) < 2 ^ f.frac := Nat.pow_lt_pow_right (by norm_num) (by omega)
    have h2 := infPattern_add_le f
    have h3 := Nat.two_pow_pos (f.frac - 1)
    have hn : (infPattern f + 2 ^ (f.frac - 1)) % signWeight f = infPattern f + 2 ^ (f.frac - 1) :=
      Nat.mod_eq_of_lt (by omega)
    simp only [unpack, pack, hn]
    rw [if_neg (by omega), if_neg (by omega)]
  | inf neg =>
    obtain ⟨h1, h2⟩ := sign_and_rest f neg (infPattern_lt f)
    simp only [unpack, pack, h1, h2]
    simp
  | fin neg m =>
    obtain ⟨h1, h2⟩ := sign_and_rest f neg (hx.2.trans (infPattern_lt f))
    simp only [unpack, pack, h1, h2]
    rw [if_pos hx.2, magOfPattern_patternOfMag hx.1 hx.2]

/-- What a pattern denotes is held. -/
theorem unpack_held (f : FloatFormat) (w : Nat) : Fp.held f (unpack f w) := by
  unfold unpack
  simp only
  split_ifs with h1 h2
  · exact ⟨isMag_magOfPattern f _, by rw [patternOfMag_magOfPattern h1.le]; exact h1⟩
  · trivial
  · trivial

theorem pack_lt {f : FloatFormat} (hf : 1 ≤ f.frac) (x : Fp) : pack f x < 2 * signWeight f := by
  have hi := infPattern_lt f
  have hb : ∀ neg, signBits f neg ≤ signWeight f := fun neg => by cases neg <;> simp [signBits]
  cases x with
  | nan =>
    have h1 : 2 ^ (f.frac - 1) < 2 ^ f.frac := Nat.pow_lt_pow_right (by norm_num) (by omega)
    have h2 := infPattern_add_le f
    show infPattern f + 2 ^ (f.frac - 1) < _
    omega
  | inf neg => have := hb neg; show signBits f neg + infPattern f < _; omega
  | fin neg m =>
    have := hb neg
    have := patternOfMag_le f m
    show signBits f neg + patternOfMag f m < _
    omega

theorem fp32_held (w : Word) : Fp.held binary32 (fp32 w) := unpack_held _ _

theorem fp64_held (d : Dword) : Fp.held binary64 (fp64 d) := unpack_held _ _

/-- Reading back a written binary32. -/
theorem fp32_bits32 {x : Fp} (hx : Fp.held binary32 x) : fp32 (bits32 x) = x := by
  have : pack binary32 x < 2 ^ 32 := lt_of_lt_of_le (pack_lt (by decide) x) (by decide)
  rw [fp32, bits32, BitVec.toNat_ofNat, Nat.mod_eq_of_lt this, unpack_pack (by decide) hx]

/-- Reading back a written binary64. -/
theorem fp64_bits64 {x : Fp} (hx : Fp.held binary64 x) : fp64 (bits64 x) = x := by
  have : pack binary64 x < 2 ^ 64 := lt_of_lt_of_le (pack_lt (by decide) x) (by decide)
  rw [fp64, bits64, BitVec.toNat_ofNat, Nat.mod_eq_of_lt this, unpack_pack (by decide) hx]

theorem negate_held {f : FloatFormat} {x : Fp} (h : Fp.held f x) : Fp.held f x.negate := by cases x <;> exact h

theorem zero_held {f : FloatFormat} (hi : 0 < infPattern f) (neg : Bool) : Fp.held f (.fin neg 0) :=
  ⟨isMag_zero f, by
    have : patternOfMag f 0 = 0 := by simp [patternOfMag]
    rw [this]; exact hi⟩

theorem fpAdd_held {f : FloatFormat} (hi : 0 < infPattern f) (a b : Fp) : Fp.held f (fpAdd f a b) := by
  cases a <;> cases b <;> simp only [fpAdd] <;> try trivial
  · split_ifs <;> trivial
  · split_ifs
    · exact roundFp_held f _ _ _
    · exact zero_held hi _
    · exact roundFp_held f _ _ _
    · exact roundFp_held f _ _ _

theorem fpMul_held {f : FloatFormat} (a b : Fp) : Fp.held f (fpMul f a b) := by
  cases a <;> cases b <;> simp only [fpMul] <;> try trivial
  · split_ifs <;> trivial
  · split_ifs <;> trivial
  · exact roundFp_held f _ _ _

theorem fpDiv_held {f : FloatFormat} (hi : 0 < infPattern f) (a b : Fp) : Fp.held f (fpDiv f a b) := by
  cases a <;> cases b <;> simp only [fpDiv] <;> try trivial
  · exact zero_held hi _
  · split_ifs
    · trivial
    · trivial
    · exact roundFp_held f _ _ _

theorem infPattern32_pos : 0 < infPattern binary32 := by decide

theorem infPattern64_pos : 0 < infPattern binary64 := by decide

/-! Every primitive as an operation on data. -/

theorem fp32_fadd32 (a b : Word) : fp32 (fadd32 a b) = fpAdd binary32 (fp32 a) (fp32 b) :=
  fp32_bits32 (fpAdd_held infPattern32_pos _ _)

theorem fp32_fsub32 (a b : Word) : fp32 (fsub32 a b) = fpSub binary32 (fp32 a) (fp32 b) :=
  fp32_bits32 (fpAdd_held infPattern32_pos _ _)

theorem fp32_fmul32 (a b : Word) : fp32 (fmul32 a b) = fpMul binary32 (fp32 a) (fp32 b) :=
  fp32_bits32 (fpMul_held _ _)

theorem fp32_fdiv32 (a b : Word) : fp32 (fdiv32 a b) = fpDiv binary32 (fp32 a) (fp32 b) :=
  fp32_bits32 (fpDiv_held infPattern32_pos _ _)

theorem fp64_fadd64 (a b : Dword) : fp64 (fadd64 a b) = fpAdd binary64 (fp64 a) (fp64 b) :=
  fp64_bits64 (fpAdd_held infPattern64_pos _ _)

theorem fp64_fdiv64 (a b : Dword) : fp64 (fdiv64 a b) = fpDiv binary64 (fp64 a) (fp64 b) :=
  fp64_bits64 (fpDiv_held infPattern64_pos _ _)

theorem fp32_u2f32 (n : Nat) : fp32 (u2f32 n) = roundFp binary32 false (n * unitMag binary32) 1 :=
  fp32_bits32 (roundFp_held _ _ _ _)

theorem fp64_u2f64 (n : Nat) : fp64 (u2f64 n) = roundFp binary64 false (n * unitMag binary64) 1 :=
  fp64_bits64 (roundFp_held _ _ _ _)

theorem fp32_f64to32 {d : Dword} {s : Bool} {m : Nat} (h : fp64 d = .fin s m) :
    fp32 (f64to32 d) = roundFp binary32 s m (2 ^ (binary64.scale - binary32.scale)) := by
  unfold f64to32
  rw [h]
  exact fp32_bits32 (roundFp_held _ _ _ _)

theorem isfinite32_iff {w : Word} : isfinite32 w = true ↔ ∃ s m, fp32 w = .fin s m := by
  unfold isfinite32
  cases fp32 w <;> simp

theorem isnan32_iff {w : Word} : isnan32 w = true ↔ fp32 w = .nan := by
  unfold isnan32
  cases fp32 w <;> simp

/-- A rounding that does not reach the infinity is the finite datum of the rounded magnitude. -/
theorem roundFp_fin {f : FloatFormat} {neg : Bool} {num den : Nat}
    (h : patternOfMag f (roundMag f num den) ≠ infPattern f) : roundFp f neg num den = .fin neg (roundMag f num den) := by
  unfold roundFp
  simp only
  rw [if_neg h]

/-- Magnitudes in order have patterns in order. -/
theorem patternOfMag_mono {f : FloatFormat} {m m' : Nat} (h : m ≤ m') : patternOfMag f m ≤ patternOfMag f m' := by
  have e : ∀ m, patternOfMag f m =
      min (infPattern f) ((Nat.log2 m - f.frac) * 2 ^ f.frac + m / 2 ^ (Nat.log2 m - f.frac)) := fun _ => rfl
  rw [e, e]
  refine min_le_min_left _ ?_
  have hl : Nat.log2 m ≤ Nat.log2 m' := by
    rw [Nat.log2_eq_log_two, Nat.log2_eq_log_two]; exact Nat.log_mono_right h
  rcases Nat.lt_or_ge (Nat.log2 m - f.frac) (Nat.log2 m' - f.frac) with hk | hk
  · have h1 := significand_lt f m
    have h2 := le_significand (f := f) (m := m') (by omega)
    have h3 := Nat.mul_le_mul_right (2 ^ f.frac) (Nat.succ_le_of_lt hk)
    rw [Nat.succ_mul] at h3
    rw [pow_succ] at h1
    omega
  · have hk' : Nat.log2 m - f.frac = Nat.log2 m' - f.frac := by omega
    rw [hk']
    exact Nat.add_le_add_left (Nat.div_le_div_right h) _

end Sys2Proof.Machine
end

