-- ==== Sys2Proof/Laws/Average.lean ====
section
/-! SUPPORT. Laws/Average.lean: the bounds of the averages and of the exponent (R151, R159), and the data of binary32
patterns in `[0, 1]`. -/

namespace Sys2Proof.Machine

/-- A short significand, shifted, is held exactly. -/
theorem isMag_mul_two_pow {f : FloatFormat} {a : Nat} (h : a < 2 ^ (f.frac + 1)) (j : Nat) : IsMag f (a * 2 ^ j) := by
  rcases Nat.eq_zero_or_pos a with rfl | ha
  · rw [Nat.zero_mul]; exact isMag_zero f
  · have h1 : Nat.log2 a < f.frac + 1 := (Nat.log2_lt ha.ne').2 h
    have h2 : Nat.log2 (a * 2 ^ j) < f.frac + 1 + j := by
      refine (Nat.log2_lt (Nat.mul_pos ha (Nat.two_pow_pos j)).ne').2 ?_
      rw [pow_add]
      exact Nat.mul_lt_mul_of_pos_right h (Nat.two_pow_pos j)
    exact (pow_dvd_pow 2 (by omega)).trans (Nat.dvd_mul_left _ _)

/-- Rounding something at most a finite datum gives a finite datum at most that. -/
theorem roundFp_le {f : FloatFormat} (neg : Bool) {num den m : Nat} (hd : 0 < den)
    (hm : IsMag f m ∧ patternOfMag f m < infPattern f) (h : num ≤ m * den) :
    ∃ k ≤ m, roundFp f neg num den = .fin neg k := by
  have hk := roundMag_le hd hm.1 h
  exact ⟨_, hk, roundFp_fin (lt_of_le_of_lt (patternOfMag_mono hk) hm.2).ne⟩

/-- The unit is a finite datum of binary32. -/
theorem unitMag32_held :
    IsMag binary32 (unitMag binary32) ∧ patternOfMag binary32 (unitMag binary32) < infPattern binary32 := by
  refine ⟨?_, by decide +kernel⟩
  have := isMag_mul_two_pow (f := binary32) (a := 1) (by decide) binary32.scale
  rwa [Nat.one_mul] at this

/-- A whole number that fits the significand is a finite datum of binary64. -/
theorem whole64_held {n : Nat} (h : n < 2 ^ 53) :
    IsMag binary64 (n * unitMag binary64) ∧ patternOfMag binary64 (n * unitMag binary64) < infPattern binary64 :=
  ⟨isMag_mul_two_pow (f := binary64) h binary64.scale,
    lt_of_le_of_lt (patternOfMag_mono (Nat.mul_le_mul_right _ h.le)) (by decide +kernel)⟩

/-- Conversion of a whole number below `2^53` is exact. -/
theorem fp64_u2f64_exact {n : Nat} (h : n < 2 ^ 53) : fp64 (u2f64 n) = .fin false (n * unitMag binary64) := by
  have hw := whole64_held h
  have e := roundMag_exact (den := 1) Nat.one_pos hw.1
  rw [Nat.mul_one] at e
  rw [fp64_u2f64, roundFp_fin (by rw [e]; exact hw.2.ne), e]

theorem unitMag_pos (f : FloatFormat) : 0 < unitMag f := Nat.two_pow_pos _

/-- A division that is at most a finite datum. -/
theorem fpDiv_le {f : FloatFormat} {m n k : Nat} (hn : 0 < n) (hk : IsMag f k ∧ patternOfMag f k < infPattern f)
    (h : m * unitMag f ≤ k * n) : ∃ j ≤ k, fpDiv f (.fin false m) (.fin false n) = .fin false j := by
  unfold fpDiv
  dsimp only
  rw [if_neg hn.ne']
  exact roundFp_le _ hn hk h

/-- The narrowing of a binary64 in `[0, 1]` is in `[0, 1]`. -/
theorem narrow_unit {d : Dword} {m : Nat} (h : fp64 d = .fin false m) (hm : m ≤ unitMag binary64) :
    ∃ k ≤ unitMag binary32, fp32 (f64to32 d) = .fin false k := by
  rw [fp32_f64to32 h]
  refine roundFp_le _ (Nat.two_pow_pos _) unitMag32_held (hm.trans (le_of_eq ?_))
  have e : ∀ a b : Nat, b ≤ a → 2 ^ a = 2 ^ b * 2 ^ (a - b) := fun a b hb => by
    rw [← pow_add, Nat.add_sub_cancel' hb]
  unfold unitMag
  exact e _ _ (by decide)

/-- The integer average of a sum of `n` samples at most `peak` is a datum in `[0, 1]` (R151). -/
theorem avgInt_unit {sum n peak : Nat} (hn : 0 < n) (hn' : n < 2 ^ 32) (hp : 0 < peak) (hp' : peak < 2 ^ 16)
    (h : sum ≤ n * peak) : ∃ m ≤ unitMag binary32, fp32 (avgInt sum n peak) = .fin false m := by
  have hs : sum < 2 ^ 53 := by
    have : n * peak < 2 ^ 32 * 2 ^ 16 := Nat.mul_lt_mul'' hn' hp'
    omega
  have e1 : ∃ k ≤ peak * unitMag binary64, fp64 (fdiv64 (u2f64 sum) (u2f64 n)) = .fin false k := by
    rw [fp64_fdiv64, fp64_u2f64_exact hs, fp64_u2f64_exact (by omega)]
    refine fpDiv_le (Nat.mul_pos hn (unitMag_pos _)) (whole64_held (by omega)) ?_
    calc sum * unitMag binary64 * unitMag binary64 ≤ n * peak * unitMag binary64 * unitMag binary64 :=
          Nat.mul_le_mul_right _ (Nat.mul_le_mul_right _ h)
      _ = _ := by ring
  obtain ⟨k, hk, e1⟩ := e1
  have e2 : ∃ j ≤ 1 * unitMag binary64,
      fp64 (fdiv64 (fdiv64 (u2f64 sum) (u2f64 n)) (u2f64 peak)) = .fin false j := by
    rw [fp64_fdiv64, e1, fp64_u2f64_exact (by omega)]
    refine fpDiv_le (Nat.mul_pos hp (unitMag_pos _)) (whole64_held (by norm_num)) ?_
    calc k * unitMag binary64 ≤ peak * unitMag binary64 * unitMag binary64 := Nat.mul_le_mul_right _ hk
      _ = _ := by ring
  obtain ⟨j, hj, e2⟩ := e2
  rw [Nat.one_mul] at hj
  exact narrow_unit e2 hj

/-- The exponent of an average in `[0, 1]` is finite for every finite scaling (R159). -/
theorem expoOf_finite {avg ls : Word} {s : Bool} {m : Nat} (h : fp32 avg = .fin s m) (hm : m ≤ unitMag binary32)
    (hl : isfinite32 ls = true) : isfinite32 (expoOf avg ls) = true := by
  obtain ⟨t, n, hl⟩ := isfinite32_iff.1 hl
  have e1 : ∃ k ≤ unitMag binary32, fp32 (fmul32 avg avg) = .fin (s != s) k := by
    rw [fp32_fmul32, h]
    exact roundFp_le _ (unitMag_pos _) unitMag32_held (Nat.mul_le_mul hm hm)
  obtain ⟨k, hk, e1⟩ := e1
  have hn : IsMag binary32 n ∧ patternOfMag binary32 n < infPattern binary32 := by
    have := fp32_held ls
    rw [hl] at this
    exact this
  have e2 : ∃ j ≤ n, fp32 (expoOf avg ls) = .fin ((s != s) != t) j := by
    rw [expoOf, fp32_fmul32, e1, hl]
    refine roundFp_le _ (unitMag_pos _) hn ?_
    rw [Nat.mul_comm]
    exact Nat.mul_le_mul_left _ hk
  obtain ⟨j, -, e2⟩ := e2
  exact isfinite32_iff.2 ⟨_, _, e2⟩

theorem fp32_zero : fp32 0x00000000#32 = .fin false 0 := by decide +kernel
theorem fp32_one : fp32 0x3F800000#32 = .fin false (unitMag binary32) := by decide +kernel

/-- Lying in `[0, 1]`, on data. -/
theorem unit_iff {w : Word} : (le32 0x00000000#32 w = true ∧ le32 w 0x3F800000#32 = true) ↔
    (∃ m ≤ unitMag binary32, fp32 w = .fin false m) ∨ fp32 w = .fin true 0 := by
  have hU : (unitMag binary32) < magOfPattern binary32 (infPattern binary32) := by decide +kernel
  unfold le32 cmp32
  rw [fp32_zero, fp32_one]
  cases fp32 w with
  | nan => simp [fpKey]
  | inf s =>
    simp only [fpKey]
    generalize magOfPattern binary32 (infPattern binary32) = I at hU ⊢
    cases s <;> simp <;> omega
  | fin s m => cases s <;> simp [fpKey]

/-- A geometry that passes its check has a region with at least one position, and fewer than `2^32` (R69, R151). -/
theorem regionSize_bounds {d : Bool} {g : Geometry} (h : geomCheck d g = none) :
    0 < regionSize g ∧ regionSize g < 2 ^ 32 := by
  unfold geomCheck at h
  split_ifs at h with h1
  rw [not_or] at h1
  refine ⟨Nat.mul_pos (Nat.pos_of_ne_zero h1.1) (Nat.pos_of_ne_zero h1.2), ?_⟩
  calc regionSize g < 2 ^ 16 * 2 ^ 16 := Nat.mul_lt_mul'' g.width.isLt g.height.isLt
    _ = 2 ^ 32 := by rw [← pow_add]

/-- Every row of the ROM has a peak (R42). -/
theorem descriptorRow_peak_pos {p : Params} {b : BitVec 6} (h : integerDepth b = true) :
    0 < (descriptorRow p b).peak.toNat := by
  simp only [integerDepth, Bool.or_eq_true, beq_iff_eq] at h
  rcases h with (((rfl | rfl) | rfl) | rfl) | rfl <;> simp [descriptorRow, FadeSet.row]

/-- Valid integer samples sum to at most `N * PEAK` (R150). -/
theorem sumInt_le {s : State} (hf : s.act.flt = false) (hv : (srcSamples s).all (sampleValid s) = true) :
    sumInt (srcSamples s) ≤ regionSize s.geom * s.desc.peak.toNat := by
  have h := List.sum_le_card_nsmul ((srcSamples s).map BitVec.toNat) s.desc.peak.toNat fun x hx => by
    obtain ⟨c, hc, rfl⟩ := List.mem_map.1 hx
    simpa [sampleValid, hf] using List.all_eq_true.1 hv c hc
  rw [sumInt_eq]
  simpa [srcSamples, length_positions] using h

/-- The average of a valid integer region is a datum in `[0, 1]` (R151). -/
theorem averageOf_unit {s : State} {d : Bool} (hf : s.act.flt = false) (hg : geomCheck d s.geom = none)
    (hp : 0 < s.desc.peak.toNat) (hv : (srcSamples s).all (sampleValid s) = true) :
    ∃ m ≤ unitMag binary32, fp32 (averageOf s (regionSum s)) = .fin false m := by
  have hle := sumInt_le hf hv
  obtain ⟨hn, hn'⟩ := regionSize_bounds hg
  have hp' := s.desc.peak.isLt
  have hlt : sumInt (srcSamples s) < 2 ^ 64 := by
    have : regionSize s.geom * s.desc.peak.toNat < 2 ^ 32 * 2 ^ 16 := Nat.mul_lt_mul'' hn' hp'
    omega
  rw [averageOf_int hf, regionSum_int hf, BitVec.toNat_ofNat, Nat.mod_eq_of_lt hlt]
  exact avgInt_unit hn hn' hp hp' hle

/-- A representable binary32 magnitude is representable in binary64 after widening. -/
theorem isMag_widen {m : Nat} (h : IsMag binary32 m) (j : Nat) : IsMag binary64 (m * 2 ^ j) := by
  obtain ⟨a, ha⟩ := h
  have hs := significand_lt binary32 m
  have hpos := Nat.two_pow_pos (Nat.log2 m - binary32.frac)
  have hq : m / 2 ^ (Nat.log2 m - binary32.frac) = a :=
    Nat.div_eq_of_eq_mul_right hpos ha
  rw [hq] at hs
  generalize Nat.log2 m - binary32.frac = k at ha
  rw [ha, Nat.mul_comm (2 ^ k), Nat.mul_assoc, ← pow_add]
  exact isMag_mul_two_pow (hs.trans (by decide)) _

/-- Widening a binary32 in `[0, 1]` (R12). -/
theorem fp64_f32to64_unit {w : Word} {s : Bool} {m : Nat} (h : fp32 w = .fin s m) (hm : m ≤ unitMag binary32) :
    ∃ k ≤ 1 * unitMag binary64, (m = 0 → k = 0) ∧ fp64 (f32to64 w) = .fin s k := by
  have hheld := fp32_held w
  rw [h] at hheld
  have hk : m * 2 ^ (binary64.scale - binary32.scale) ≤ 1 * unitMag binary64 := by
    have e : ∀ a b : Nat, b ≤ a → 2 ^ b * 2 ^ (a - b) = 2 ^ a := fun a b hb => by rw [← pow_add, Nat.add_sub_cancel' hb]
    rw [Nat.one_mul]
    refine (Nat.mul_le_mul_right _ hm).trans (le_of_eq ?_)
    unfold unitMag
    exact e _ _ (by decide)
  refine ⟨_, hk, fun h0 => by rw [h0, Nat.zero_mul], ?_⟩
  unfold f32to64
  rw [h]
  exact fp64_bits64 ⟨isMag_widen hheld.1 _,
    lt_of_le_of_lt (patternOfMag_mono hk) (whole64_held (n := 1) (by norm_num)).2⟩

/-- Adding a datum of `[0, 1]` to one of `[0, n]` gives one of `[0, n + 1]`, and a zero to a zero gives a zero; `U` is
1.0. -/
theorem fpAdd_unit {f : FloatFormat} {n m k U : Nat} {s : Bool}
    (hw : IsMag f ((n + 1) * U) ∧ patternOfMag f ((n + 1) * U) < infPattern f) (hm : m ≤ n * U) (hk : k ≤ 1 * U)
    (hs : s = true → k = 0) :
    ∃ j ≤ (n + 1) * U, (m = 0 → k = 0 → j = 0) ∧ fpAdd f (.fin false m) (.fin s k) = .fin false j := by
  have round : ∀ x ≤ m + k, ∃ j ≤ (n + 1) * U, (m = 0 → k = 0 → j = 0) ∧ roundFp f false x 1 = .fin false j := by
    intro x hx
    have hle : x ≤ (n + 1) * U * 1 := by
      rw [Nat.mul_one, Nat.add_mul]
      exact hx.trans (Nat.add_le_add hm hk)
    have hr := roundMag_le Nat.one_pos hw.1 hle
    refine ⟨_, hr, fun h0 h1 => ?_, roundFp_fin (lt_of_le_of_lt (patternOfMag_mono hr) hw.2).ne⟩
    rw [h0, h1] at hx
    exact Nat.le_zero.1 (roundMag_le Nat.one_pos (isMag_zero f) (hx.trans (Nat.zero_le _)))
  unfold fpAdd
  cases s with
  | false => exact round _ le_rfl
  | true =>
    dsimp only
    rw [if_neg Bool.false_ne_true, hs rfl]
    split_ifs with h1 h2
    · exact ⟨0, Nat.zero_le _, fun _ _ => rfl, rfl⟩
    · obtain ⟨j, hj, h0, he⟩ := round (m - 0) (Nat.le_add_right m k)
      exact ⟨j, hj, fun hm0 _ => h0 hm0 (hs rfl), he⟩
    · exact absurd (Nat.pos_of_ne_zero h1) h2

/-- A value in `[0, 1]` by its datum, the sign of a zero left open. -/
theorem inUnit32_iff {w : Word} : inUnit32 w = true ↔
    ∃ s, ∃ m ≤ unitMag binary32, (s = true → m = 0) ∧ fp32 w = .fin s m := by
  unfold inUnit32
  rw [Bool.and_eq_true]
  refine unit_iff.trans ⟨fun h => ?_, fun h => ?_⟩
  · rcases h with ⟨m, hm, h⟩ | h
    · exact ⟨false, m, hm, fun h => absurd h Bool.false_ne_true, h⟩
    · exact ⟨true, 0, Nat.zero_le _, fun _ => rfl, h⟩
  · obtain ⟨s, m, hm, hs, h⟩ := h
    cases s with
    | false => exact .inl ⟨m, hm, h⟩
    | true => exact .inr (by rw [h, hs rfl])

/-- The default sum of values in `[0, 1]` is a datum between 0 and their number, and 0 if they are all `+0.0` (R152). -/
theorem sumFlt_unit {l : List Word} (hl : l.length < 2 ^ 53) (h : l.all inUnit32 = true) :
    ∃ m ≤ l.length * unitMag binary64, (l.all (· == f32Zero) = true → m = 0) ∧ fp64 (sumFlt l) = .fin false m := by
  have key : ∀ (l : List Word) (n m : Nat) (d : Dword), n + l.length < 2 ^ 53 → l.all inUnit32 = true →
      m ≤ n * unitMag binary64 → fp64 d = .fin false m →
      ∃ j ≤ (n + l.length) * unitMag binary64, (m = 0 → l.all (· == f32Zero) = true → j = 0) ∧
        fp64 (l.foldl (fun acc s => fadd64 acc (f32to64 s)) d) = .fin false j := by
    intro l
    induction l with
    | nil => exact fun n m d _ _ hm hd => ⟨m, hm, fun h _ => h, hd⟩
    | cons c l ih =>
      intro n m d hn hu hm hd
      rw [List.all_cons, Bool.and_eq_true] at hu
      rw [List.length_cons] at hn ⊢
      obtain ⟨s, x, hx, hs, hc⟩ := inUnit32_iff.1 hu.1
      obtain ⟨k, hk, hk0, hw⟩ := fp64_f32to64_unit hc hx
      obtain ⟨j, hj, hj0, ha⟩ := fpAdd_unit (n := n) (whole64_held (by omega)) hm hk (fun h => hk0 (hs h))
      have hd' : fp64 (fadd64 d (f32to64 c)) = .fin false j := by rw [fp64_fadd64, hd, hw, ha]
      obtain ⟨i, hi, hi0, he⟩ := ih (n + 1) j _ (by omega) hu.2 hj hd'
      refine ⟨i, ?_, fun h0 hz => ?_, he⟩
      · rwa [Nat.add_assoc, Nat.add_comm 1] at hi
      · rw [List.all_cons, Bool.and_eq_true, beq_iff_eq] at hz
        have hx0 : x = 0 := by
          rw [hz.1] at hc
          injection hc.symm.trans fp32_zero
        exact hi0 (hj0 h0 (hk0 hx0)) hz.2
  obtain ⟨m, hm, h0, he⟩ := key l 0 0 0#64 (by omega) h (Nat.zero_le _) (by decide +kernel)
  rw [Nat.zero_add] at hm
  exact ⟨m, hm, h0 rfl, he⟩

/-- The pattern of a datum in `[+0.0, 1.0]` is at most that of 1.0. -/
theorem toNat_le_of_unit {w : Word} {m : Nat} (h : fp32 w = .fin false m) (hm : m ≤ unitMag binary32) :
    w.toNat ≤ f32One.toNat ∧ (m = 0 → w = f32Zero) := by
  have hlt : w.toNat < 2 * signWeight binary32 := w.isLt
  unfold fp32 unpack at h
  dsimp only at h
  split_ifs at h with h1
  injection h with hs hv
  have hw : w.toNat % signWeight binary32 = w.toNat := by
    refine Nat.mod_eq_of_lt (Nat.lt_of_not_le fun hc => ?_)
    have hd : w.toNat / signWeight binary32 = 1 := Nat.div_eq_of_lt_le (by rwa [Nat.one_mul]) hlt
    rw [hd] at hs
    exact absurd hs (by decide)
  rw [hw] at h1 hv
  have hp : patternOfMag binary32 m = w.toNat := by rw [← hv, patternOfMag_magOfPattern h1.le]
  refine ⟨?_, fun h0 => ?_⟩
  · have := patternOfMag_mono (f := binary32) hm
    rw [hp] at this
    exact this.trans (by decide +kernel)
  · refine BitVec.eq_of_toNat_eq ?_
    rw [← hp, h0]
    decide +kernel

/-- The float average under the default `FSUM` keeps the bounds of R153. -/
theorem avgFlt_sumFlt_bounded {l : List Word} (h0 : 0 < l.length) (hl : l.length < 2 ^ 53) :
    averageBounded l (avgFlt (sumFlt l) l.length) = true := by
  have hz : l.all (· == f32Zero) = true → l.all inUnit32 = true := fun h => by
    rw [List.all_eq_true] at h ⊢
    intro c hc
    rw [beq_iff_eq.1 (h c hc)]
    decide +kernel
  have main : l.all inUnit32 = true → ∃ m ≤ unitMag binary32, (l.all (· == f32Zero) = true → m = 0) ∧
      fp32 (avgFlt (sumFlt l) l.length) = .fin false m := by
    intro h
    obtain ⟨m, hm, hm0, hs⟩ := sumFlt_unit hl h
    have hd : 0 < l.length * unitMag binary64 := Nat.mul_pos h0 (unitMag_pos _)
    have e : fp64 (fdiv64 (sumFlt l) (u2f64 l.length)) =
        fpDiv binary64 (.fin false m) (.fin false (l.length * unitMag binary64)) := by
      rw [fp64_fdiv64, hs, fp64_u2f64_exact hl]
    by_cases hall : l.all (· == f32Zero) = true
    · obtain ⟨j, hj, hq⟩ := fpDiv_le (m := m) hd (whole64_held (n := 0) (by norm_num)) (by
        rw [hm0 hall, Nat.zero_mul]; exact Nat.zero_le _)
      rw [Nat.zero_mul] at hj
      rw [hq, Nat.le_zero.1 hj] at e
      have hr := fp32_f64to32 e
      obtain ⟨k, hk, hr'⟩ := roundFp_le (f := binary32) false (num := 0)
        (Nat.two_pow_pos (binary64.scale - binary32.scale)) (zero_held infPattern32_pos false) (Nat.zero_le _)
      exact ⟨k, hk.trans (Nat.zero_le _), fun _ => Nat.le_zero.1 hk, hr.trans hr'⟩
    · obtain ⟨j, hj, hq⟩ := fpDiv_le (m := m) hd (whole64_held (n := 1) (by norm_num)) (by
        rw [Nat.one_mul, Nat.mul_comm (unitMag binary64)]; exact Nat.mul_le_mul_right _ hm)
      rw [Nat.one_mul] at hj
      obtain ⟨k, hk, hr⟩ := narrow_unit (e.trans hq) hj
      exact ⟨k, hk, fun h => absurd h hall, hr⟩
  unfold averageBounded
  simp only [Bool.and_eq_true, Bool.or_eq_true, Bool.not_eq_true', decide_eq_true_eq, beq_iff_eq]
  refine ⟨?_, ?_⟩
  · by_cases h : l.all inUnit32 = true
    · obtain ⟨m, hm, -, he⟩ := main h
      exact .inr (toNat_le_of_unit he hm).1
    · exact .inl (by simpa using h)
  · by_cases h : l.all (· == f32Zero) = true
    · obtain ⟨m, hm, hm0, he⟩ := main (hz h)
      exact .inr ((toNat_le_of_unit he hm).2 (hm0 h))
    · exact .inl (by simpa using h)

/-- Whatever the implementation, the float average keeps the bounds of R153. -/
theorem FSUM_bounded (choice : Summation) {l : List Word} (h0 : 0 < l.length) (hl : l.length < 2 ^ 53) :
    averageBounded l (avgFlt (FSUM choice l) l.length) = true := by
  cases choice with
  | leftToRight => exact avgFlt_sumFlt_bounded h0 hl
  | implementation =>
    unfold FSUM
    dsimp only
    split_ifs with h
    · unfold fsumAdmissible at h
      rw [Bool.and_eq_true, Bool.and_eq_true] at h
      exact h.1.2
    · exact avgFlt_sumFlt_bounded h0 hl

end Sys2Proof.Machine
end

