-- ==== Sys2Proof/Laws/Frames.lean ====
section
/-! SUPPORT. Laws/Frames.lean: what the rule of each command leaves in place, and the induction principle over rules
that the whole-machine laws use. -/

namespace Sys2Proof.Machine

/-- The pieces of state that no command but `SRESET` ever changes: the request registers, `S`, and what stands outside
the block, the parameters included. -/
structure Keeps (s t : State) : Prop where
  req   : t.req = s.req
  geom  : t.geom = s.geom
  arg   : t.arg = s.arg
  irqEn : t.irqEn = s.irqEn
  src   : t.src = s.src
  inbox : t.inbox = s.inbox
  rdata : t.rdata = s.rdata
  params : t.params = s.params

theorem Keeps.refl (s : State) : Keeps s s := ⟨rfl, rfl, rfl, rfl, rfl, rfl, rfl, rfl⟩

/-- Every state the rule of a command reaches, sorted by what the command can do to it: the one list of cases that a
whole-machine law over the rules has to look at. -/
theorem reaches_bodyOf {P : State → Prop} {i : Instr} {s : State}
    (nop : i = .nop → P s)
    (init : i = .init → P (unconstruct s) ∧ (requestError s.req = none → P (construct (unconstruct s))))
    (clrerr : i = .clrerr → P (clearError s))
    (sreset : i = .sreset → P (blockReset s))
    (probe : i = .poly ∨ i = .lut ∨ i = .pixel → P s ∧ ∀ v d, P { s with result := v, draws := d })
    (notReady : P s)
    (avg : i = .avg → s.status.ready = true →
      let u := { s with status := flagsAvgStart s.status }
      P u ∧ P { u with sum := regionSum s } ∧
        P { u with sum := regionSum s, avg := averageOf s (regionSum s), status := flagsAvgDone u.status })
    (expo : i = .expo → s.status.ready = true → s.status.avgValid = true →
      P { s with status := flagsExpStart s.status } ∧
        (isfinite32 (expoOf s.avg s.act.ls) = true →
          P { s with exp := expoOf s.avg s.act.ls, status := flagsExpDone (flagsExpStart s.status) }))
    (plane : i = .copy ∨ i = .remap → s.status.ready = true →
      let u := { s with status := flagsPlaneStart s.status }
      P u ∧ P (scrambleRegion u) ∧
        ∀ l, (∀ c ∈ l, ∃ p ∈ positions s.geom, c.1 = dstAddr s.geom p) →
          P { u with dst := Plane.writeCells s.dst (cellBytes s) l })
    (xform : i = .xform → s.status.ready = true →
      let u := { s with status := flagsXformStart s.status }
      let c := copyPlane u
      let a := averageOf s (regionSum s)
      P u ∧ P (scrambleRegion c) ∧ P (scrambleRegion { c with sum := regionSum s }) ∧
        P (scrambleRegion { c with
          sum := regionSum s, avg := a, status := flagsExpStart (flagsAvgDone u.status) }) ∧
        (isfinite32 (expoOf a s.act.ls) = true →
          P { c with
            sum := regionSum s, avg := a, exp := expoOf a s.act.ls
            status := flagsFrameDone (flagsExpDone (flagsExpStart (flagsAvgDone u.status)))
            dst := Plane.writeCells c.dst (cellBytes s) (remapWrites { s with exp := expoOf a s.act.ls }) })) :
    reaches P (bodyOf i s) := by
  cases i with
  | nop => exact nop rfl
  | init =>
    rcases initBody_cases s with ⟨c, -, h⟩ | ⟨hn, h⟩ <;> simp only [bodyOf, h]
    · exact (init rfl).1
    · exact (init rfl).2 hn
  | clrerr => exact clrerr rfl
  | sreset => exact sreset rfl
  | poly =>
    obtain ⟨-, hp⟩ := probe (.inl rfl)
    rcases polyBody_cases s with ⟨-, h⟩ | ⟨-, h⟩ <;> simp only [bodyOf, h]
    · exact hp (poly s.arg) s.draws
    · exact hp _ _
  | lut =>
    obtain ⟨hs, hp⟩ := probe (.inr (.inl rfl))
    rcases lutBody_cases s with ⟨-, h⟩ | ⟨-, -, -, h⟩ | ⟨-, -, -, h⟩ <;> simp only [bodyOf, h]
    · exact hs
    · exact hs
    · exact hp (tableRead s s.arg.toNat) s.draws
  | pixel =>
    obtain ⟨hs, hp⟩ := probe (.inr (.inr rfl))
    rcases pixelBody_cases s with ⟨-, h⟩ | ⟨-, -, -, h⟩ | ⟨-, -, -, h⟩ <;> simp only [bodyOf, h]
    · exact hs
    · exact hs
    · exact hp (remappedValue s s.arg) s.draws
  | avg =>
    rcases avgBody_cases s with ⟨-, h⟩ | ⟨c, hr, -, h⟩ | ⟨-, -, -, h⟩ | ⟨hr, -, -, h⟩ <;> simp only [bodyOf, h]
    · exact notReady
    · exact (avg rfl hr).1
    · trivial
    · obtain ⟨h1, h2, h3⟩ := avg rfl hr
      rcases averagePlane_cases { s with status := flagsAvgStart s.status } with ⟨-, h⟩ | ⟨-, -, -, h⟩ | ⟨-, -, h⟩ <;>
        rw [h]
      · exact h1
      · exact h2
      · exact h3
  | expo =>
    rcases expoBody_cases s with ⟨-, h⟩ | ⟨hr, ha, h⟩ <;> simp only [bodyOf, h]
    · exact notReady
    · rcases deriveExponent_cases s with ⟨-, h⟩ | ⟨hf, h⟩ <;> rw [h]
      · exact (expo rfl hr ha).1
      · exact (expo rfl hr ha).2 hf
  | copy =>
    rcases copyBody_cases s with ⟨-, h⟩ | ⟨c, hr, -, h⟩ | ⟨f, -, -, -, h⟩ | ⟨hr, -, -, -, h⟩ <;> simp only [bodyOf, h]
    · exact notReady
    · exact (plane (.inl rfl) hr).1
    · trivial
    · refine (plane (.inl rfl) hr).2.2 (copyWrites s) fun c hc => ?_
      obtain ⟨p, hp, rfl⟩ := mem_copyWrites.1 hc
      exact ⟨p, hp, rfl⟩
  | remap =>
    rcases remapBody_cases s with ⟨-, h⟩ | ⟨c, hr, -, -, h⟩ | ⟨f, -, -, -, -, h⟩ | ⟨hr, -, -, -, -, -, h⟩ |
      ⟨hr, -, -, -, -, -, h⟩ <;> simp only [bodyOf, h]
    · exact notReady
    · exact (plane (.inr rfl) hr).1
    · trivial
    · exact (plane (.inr rfl) hr).2.1
    · refine (plane (.inr rfl) hr).2.2 (remapWrites s) fun c hc => ?_
      obtain ⟨p, hp, -, h⟩ := mem_remapWrites.1 hc
      exact ⟨p, hp, h⟩
  | xform =>
    rcases xformBody_cases s with ⟨-, h⟩ | ⟨c, hr, -, h⟩ | ⟨f, -, -, -, h⟩ | ⟨hr, -, -, -, h⟩ <;> simp only [bodyOf, h]
    · exact notReady
    · exact (xform rfl hr).1
    · trivial
    · obtain ⟨-, h1, h2, h3, h4⟩ := xform rfl hr
      rcases xformSteps_cases { s with status := flagsXformStart s.status } with ⟨-, h⟩ | ⟨-, -, -, h⟩ | ⟨-, -, -, h⟩ |
        ⟨-, -, hf, h⟩ <;> rw [h]
      · exact h1
      · exact h2
      · exact h3
      · exact h4 hf

/-- No rule but `SRESET`'s changes the request registers, `S` or what stands outside the block. -/
theorem bodyOf_keeps {i : Instr} (hi : i ≠ .sreset) (s : State) : reaches (Keeps s) (bodyOf i s) := by
  apply reaches_bodyOf
  case sreset => exact fun h => absurd h hi
  case nop => exact fun _ => Keeps.refl s
  case notReady => exact Keeps.refl s
  case init => exact fun _ => ⟨⟨rfl, rfl, rfl, rfl, rfl, rfl, rfl, rfl⟩, fun _ => ⟨rfl, rfl, rfl, rfl, rfl, rfl, rfl, rfl⟩⟩
  case clrerr => exact fun _ => ⟨rfl, rfl, rfl, rfl, rfl, rfl, rfl, rfl⟩
  case probe => exact fun _ => ⟨Keeps.refl s, fun _ _ => ⟨rfl, rfl, rfl, rfl, rfl, rfl, rfl, rfl⟩⟩
  case avg =>
    exact fun _ _ => ⟨⟨rfl, rfl, rfl, rfl, rfl, rfl, rfl, rfl⟩, ⟨rfl, rfl, rfl, rfl, rfl, rfl, rfl, rfl⟩,
      ⟨rfl, rfl, rfl, rfl, rfl, rfl, rfl, rfl⟩⟩
  case expo =>
    exact fun _ _ _ => ⟨⟨rfl, rfl, rfl, rfl, rfl, rfl, rfl, rfl⟩, fun _ => ⟨rfl, rfl, rfl, rfl, rfl, rfl, rfl, rfl⟩⟩
  case plane =>
    exact fun _ _ => ⟨⟨rfl, rfl, rfl, rfl, rfl, rfl, rfl, rfl⟩, ⟨rfl, rfl, rfl, rfl, rfl, rfl, rfl, rfl⟩,
      fun _ _ => ⟨rfl, rfl, rfl, rfl, rfl, rfl, rfl, rfl⟩⟩
  case xform =>
    exact fun _ _ => ⟨⟨rfl, rfl, rfl, rfl, rfl, rfl, rfl, rfl⟩, ⟨rfl, rfl, rfl, rfl, rfl, rfl, rfl, rfl⟩,
      ⟨rfl, rfl, rfl, rfl, rfl, rfl, rfl, rfl⟩, ⟨rfl, rfl, rfl, rfl, rfl, rfl, rfl, rfl⟩,
      fun _ => ⟨rfl, rfl, rfl, rfl, rfl, rfl, rfl, rfl⟩⟩

/-- No command but `SRESET` changes the request registers, `S` or what stands outside the block. -/
theorem exec_keeps {i : Instr} {s t : State} (hi : i ≠ .sreset) (h : exec i s = .next t) : Keeps s t :=
  exec_reaches (P := Keeps s) h ⟨rfl, rfl, rfl, rfl, rfl, rfl, rfl, rfl⟩
    (reaches_mono (fun _ h => ⟨h.1, h.2, h.3, h.4, h.5, h.6, h.7, h.8⟩) (bodyOf_keeps hi (accept s)))
    (fun _ h => ⟨h.1, h.2, h.3, h.4, h.5, h.6, h.7, h.8⟩) (fun _ _ h => ⟨h.1, h.2, h.3, h.4, h.5, h.6, h.7, h.8⟩)

/-- `SRESET`, whatever the state. -/
theorem exec_sreset (s : State) : exec .sreset s = .next (complete (blockReset (accept s))) :=
  exec_ok (i := .sreset) (.inr rfl) rfl

/-- No command changes the implementation's parameters (R231). -/
theorem exec_params {i : Instr} {s t : State} (h : exec i s = .next t) : t.params = s.params := by
  by_cases hi : i = .sreset
  · subst hi
    rw [exec_sreset] at h
    injection h with h
    exact h ▸ rfl
  · exact (exec_keeps hi h).params

/-- Cells outside the region are left alone by any writes to addresses of the region. -/
theorem writeCells_outside {s : State} (d : Plane) {l : List (Nat × Word)}
    (hl : ∀ c ∈ l, ∃ p ∈ positions s.geom, c.1 = dstAddr s.geom p) {a : Nat}
    (ha : ∀ p ∈ positions s.geom, a / cellBytes s ≠ dstAddr s.geom p) :
    Plane.readByte (Plane.writeCells d (cellBytes s) l) a = Plane.readByte d a := by
  refine Plane.readByte_writeCells_outside _ _ (cellBytes_pos s) fun c hc => ?_
  obtain ⟨p, hp, h⟩ := hl c hc
  exact h ▸ ha p hp

end Sys2Proof.Machine
end

