-- ==== Sys2Proof/Laws/PerInstr.lean ====
section
/-! SUPPORT. Laws/PerInstr.lean: the facts about the commands as syntax, one lemma per command. -/

namespace Sys2Proof.Laws.EncodedWord

/-- The word of a command is a legal one, with `OP` in its low byte and `RSV = 0` (R90), and its four bytes make it
(R65). -/
def Statement (i : Instr) : Prop :=
  wordWf (encode i) = true ∧ (encode i).extractLsb' 0 8 = opcode i ∧ (encode i).extractLsb' 8 24 = 0#24 ∧
    encodeBytes i = [(encode i).extractLsb' 0 8, (encode i).extractLsb' 8 8, (encode i).extractLsb' 16 8,
      (encode i).extractLsb' 24 8]

theorem nop : Statement .nop := by unfold Statement; decide
theorem init : Statement .init := by unfold Statement; decide
theorem clrerr : Statement .clrerr := by unfold Statement; decide
theorem sreset : Statement .sreset := by unfold Statement; decide
theorem poly : Statement .poly := by unfold Statement; decide
theorem lut : Statement .lut := by unfold Statement; decide
theorem avg : Statement .avg := by unfold Statement; decide
theorem expo : Statement .expo := by unfold Statement; decide
theorem copy : Statement .copy := by unfold Statement; decide
theorem pixel : Statement .pixel := by unfold Statement; decide
theorem remap : Statement .remap := by unfold Statement; decide
theorem xform : Statement .xform := by unfold Statement; decide

end Sys2Proof.Laws.EncodedWord
end

