-- ==== Sys2Proof/Laws/Step.lean ====
section
/-! SUPPORT. Laws/Step.lean: everything a step can do, said once: the list of cases that an invariant of every step has
to look at. -/

namespace Sys2Proof.Machine

/-- Running a word: a legal one runs its command, any other raises `ERR_ILLEGAL_CMD` (R110). -/
theorem runWord_next {w : Word} {s t : State} (h : runWord w s = .next t) :
    (∃ i, decode w = .ok i ∧ exec i s = .next t) ∨ t = illegalCommand s := by
  unfold runWord at h
  split at h
  · exact .inl ⟨_, ‹_›, h⟩
  · injection h with h; exact .inr h.symm

/-- A defined access to the register port goes on to the register at its offset. -/
theorem portAccess_next {width : PortWidth} {off : Nat} {k : Option Reg → Host.Outcome State Fault Refusal} {t : State}
    (h : portAccess width off k = .next t) : k (regAt off) = .next t := by
  unfold portAccess at h
  split_ifs at h
  exact h

/-- A defined access to the register port reaches the register that stands at its offset. -/
theorem portAccess_offsetOf (r : Reg) (k : Option Reg → Host.Outcome State Fault Refusal) :
    portAccess .word (offsetOf r) k = k (some r) := by
  have h : offsetOf r < 116 ∧ offsetOf r % 4 = 0 ∧ regAt (offsetOf r) = some r := by cases r <;> decide
  have hp : ¬ portBytes ≤ offsetOf r := fun hc => absurd (lt_of_le_of_lt hc h.1) (by decide)
  have hw : portAccessWf .word (offsetOf r) = true := by
    simp only [portAccessWf, h.2.1]
    simpa using Nat.lt_of_not_le hp
  unfold portAccess
  rw [if_neg hp, if_neg (by rw [hw]; decide), h.2.2]

/-- A host read changes `rdata` and the draw counter and nothing else. -/
theorem readRegister_eq (r : Reg) (s : State) : ∃ v, readRegister r s = { s with rdata := v, draws := s.draws + 1 } := by
  unfold readRegister
  split <;> exact ⟨_, rfl⟩

/-- A host access to a plane byte that goes on. -/
theorem planeAccess_next {p : PlaneId} {a : Nat} {f : Bool} {s t u : State} (h : planeAccess p a f s t = .next u) :
    a < planeBytes ∧ Plane.byteBacked (planeOf p s) a = true ∧ f = false ∧ u = t := by
  unfold planeAccess at h
  split_ifs at h with h1 h2 h3
  injection h with h
  exact ⟨Nat.lt_of_not_le h1, by simpa using h2, by simpa using h3, h.symm⟩

/-- Everything an event can make of a state, when the machine goes on. -/
inductive EventStep (s : State) : State → Prop where
  /-- Nothing happens: an idle tick or wait, a dropped command, an access to a reserved offset. -/
  | same : EventStep s s
  | zeroRead : EventStep s { s with rdata := 0#32 }
  | regRead (r : Reg) : EventStep s (readRegister r s)
  | regWrite (r : Reg) (v : Word) (h : s.status.busy = false ∨ accessOf r ≠ .rw) : EventStep s (writeRegister r v s)
  | command (i : Instr) (t : State) (h : exec i s = .next t) : EventStep s t
  | illegal : EventStep s (illegalCommand s)
  /-- A command accepted and left running. -/
  | issued (i : Instr) (w : Word) (hb : s.status.busy = false) (hd : decode w = .ok i) :
      EventStep s { accept s with seq := startSequencer i w s }
  /-- The running command's sequencer moves on. -/
  | moved (w : Word) (q : Sequencer) (hw : s.seq.word = some w) (h : nextSequencer w s = some q) :
      EventStep s { s with seq := q }
  | resetInput : EventStep s (hardwareReset s)
  | poked (p : PlaneId) (a : Nat) (b : Byte) : EventStep s (pokeByte p a b s)
  | peeked (p : PlaneId) (a : Nat) : EventStep s (peekByte p a s)

theorem runWord_event {w : Word} {s t : State} (h : runWord w s = .next t) : EventStep s t := by
  rcases runWord_next h with ⟨i, -, h⟩ | rfl
  · exact .command i t h
  · exact .illegal

theorem hostStep_next {op : HostOp} {s t : State} (h : hostStep op s = .next t) : EventStep s t := by
  cases op with
  | write width off v =>
    simp only [hostStep, portWrite] at h
    have h := portAccess_next h
    split at h
    · injection h with h; exact h ▸ .same
    · unfold writeCmd at h
      split_ifs at h
      · injection h with h; exact h ▸ .same
      · exact runWord_event h
    · rename_i r _ _
      split_ifs at h with hb
      injection h with h
      refine h ▸ .regWrite r v ?_
      by_contra hn
      simp only [not_or, Bool.not_eq_false, not_not] at hn
      exact hb hn
  | read width off =>
    simp only [hostStep, portRead] at h
    have h := portAccess_next h
    split at h <;> (injection h with h; subst h)
    · exact .zeroRead
    · exact .regRead _
  | issue w =>
    simp only [hostStep, issueCmd] at h
    split_ifs at h with hb
    · injection h with h; exact h ▸ .same
    · split at h
      · injection h with h
        exact h ▸ .issued _ w (by simpa using hb) ‹_›
      · exact runWord_event h
  | tick =>
    simp only [hostStep, tickSequencer] at h
    split at h
    · injection h with h; exact h ▸ .same
    · split at h
      · injection h with h
        exact h ▸ .moved _ _ ‹_› ‹_›
      · exact runWord_event h
  | wait =>
    simp only [hostStep, waitDone] at h
    split at h
    · injection h with h; exact h ▸ .same
    · exact runWord_event h
  | rst => injection h with h; exact h ▸ .resetInput
  | poke p a b => obtain ⟨-, -, -, rfl⟩ := planeAccess_next h; exact .poked p a b
  | peek p a => obtain ⟨-, -, -, rfl⟩ := planeAccess_next h; exact .peeked p a

/-- A step inverted: no event waits and nothing happens, or the oldest one is met. -/
theorem step_next {s t : State} (h : step s = .next t) :
    t = s ∨ ∃ op rest, s.inbox = op :: rest ∧ EventStep { s with inbox := rest } t := by
  unfold step stepInbox at h
  split at h
  · injection h with h; exact .inl h.symm
  · exact .inr ⟨_, _, ‹_›, hostStep_next h⟩

/-- Induction over a step: a property that does not look at the inbox is kept by a step if every event keeps it. -/
theorem step_keeps {P : State → Prop} (hin : ∀ s l, P s → P { s with inbox := l })
    (hev : ∀ s t, P s → EventStep s t → P t) {s t : State} (hs : P s) (h : step s = .next t) : P t := by
  rcases step_next h with rfl | ⟨op, rest, -, he⟩
  · exact hs
  · exact hev _ _ (hin s rest hs) he

end Sys2Proof.Machine
end

