-- ==== Sys2Proof/Tests/Slice0.lean ====
section
/-! SUPPORT. Tests/Slice0.lean: the smoke tests of the static checks, the decoding of written-out words, vectors of
spec/95_test_vectors.md (each test names its source), and for every statement with hypotheses a witness that meets them. -/

set_option Elab.async false

namespace Sys2Proof.Tests

open Sys2Proof.Machine Sys2Proof.Safety

/-- The next state of an outcome, if it is one. -/
def nextOf (o : Host.Outcome State Fault Refusal) : Option State :=
  match o with
  | .next t => some t
  | .fault _ => none
  | .refused _ => none

/-- Something of the next state of an outcome. -/
def after {α : Type} (o : Host.Outcome State Fault Refusal) (f : State → α) : Option α := (nextOf o).map f

/-- The fault of an outcome, if it is one. -/
def faultOf (o : Host.Outcome State Fault Refusal) : Option Fault :=
  match o with
  | .next _ => none
  | .fault f => some f
  | .refused _ => none

theorem goesOn {o : Host.Outcome State Fault Refusal} (h : (nextOf o).isSome = true) : ∃ t, o = .next t := by
  cases o with
  | next t => exact ⟨t, rfl⟩
  | fault f => cases h
  | refused r => cases h

/-! ### Well-formedness: an ill-formed term for each check -/

theorem test_wf_reserved_bits : wordReservedClear 0x00000133#32 = false ∧ wordWf 0x00000133#32 = false := by decide
theorem test_wf_unassigned_opcode : opcodeAssigned 0x00000004#32 = false ∧ wordWf 0x00000004#32 = false := by decide
theorem test_wf_port_width : portAccessWf .byte 0x04 = false ∧ portAccessWf .half 0x04 = false := by decide
theorem test_wf_port_alignment : portAccessWf .word 0x06 = false := by decide
theorem test_wf_port_range : portAccessWf .word 0x100 = false := by decide
theorem test_wf_plane_range : HostOp.wf (.poke .dst (2 ^ 34) 1#8) = false ∧ HostOp.wf (.peek .src (2 ^ 34)) = false := by
  decide
theorem test_wf_events : HostOp.wf (.write .half 0x10 1#32) = false ∧ HostOp.wf (.read .word 0x12) = false := by decide
theorem test_wf_accepts : wordWf 0x00000033#32 = true ∧ portAccessWf .word 0xFC = true ∧
    HostOp.wf (.poke .src (2 ^ 34 - 1) 1#8) = true := by decide
theorem test_memory_wf : Memory.wf [(1, 0#8)] = false ∧ Memory.wf [(2, 1#8), (1, 1#8)] = false ∧
    Memory.wf [(1, 1#8), (1, 1#8)] = false ∧ Memory.wf [(1, 1#8), (2, 1#8)] = true := by decide
theorem test_reset_memory_wf : Memory.wf State.reset.src.bytes = true ∧ Memory.wf State.reset.dst.bytes = true := by
  decide

/-! ### Decoding: words written out bit by bit (R90, R91; K1) -/

theorem test_decode_control :
    decode 0b00000000_00000000_00000000_00000000#32 = .ok .nop ∧
    decode 0b00000000_00000000_00000000_00000001#32 = .ok .init ∧
    decode 0b00000000_00000000_00000000_00000010#32 = .ok .clrerr ∧
    decode 0b00000000_00000000_00000000_00000011#32 = .ok .sreset := ⟨rfl, rfl, rfl, rfl⟩
theorem test_decode_evaluator :
    decode 0b00000000_00000000_00000000_00010000#32 = .ok .poly ∧
    decode 0b00000000_00000000_00000000_00010001#32 = .ok .lut := ⟨rfl, rfl⟩
theorem test_decode_averaging :
    decode 0b00000000_00000000_00000000_00100000#32 = .ok .avg ∧
    decode 0b00000000_00000000_00000000_00100001#32 = .ok .expo := ⟨rfl, rfl⟩
theorem test_decode_transformer :
    decode 0b00000000_00000000_00000000_00110000#32 = .ok .copy ∧
    decode 0b00000000_00000000_00000000_00110001#32 = .ok .pixel ∧
    decode 0b00000000_00000000_00000000_00110010#32 = .ok .remap ∧
    decode 0b00000000_00000000_00000000_00110011#32 = .ok .xform := ⟨rfl, rfl, rfl, rfl⟩
theorem test_decode_unassigned :
    [0x04#32, 0x0F#32, 0x12#32, 0x22#32, 0x34#32, 0xFF#32].map decode =
      List.replicate 6 (.error .unassignedOpcode) := rfl
theorem test_decode_reserved :
    [0x00000133#32, 0x80000001#32, 0xFFFFFFFF#32].map decode = List.replicate 3 (.error .reservedBits) := rfl
theorem test_decode_bytes :
    decodeBytes [0x33#8, 0x00#8, 0x00#8, 0x00#8, 0xAB#8] = .ok (.xform, [0xAB#8]) ∧
    decodeBytes [0x00#8, 0x00#8, 0x00#8, 0x33#8] = .error .reservedBits ∧
    decodeBytes [0x33#8, 0x00#8] = .error .truncated := ⟨rfl, rfl, rfl⟩
theorem test_decode_table_word : decodeTableWord 32 0x21 = some .expo ∧ decodeTableWord 32 0x04 = none := ⟨rfl, rfl⟩

/-! ### The numeric functions (spec/95, T1, T2, A1 to A3, F1; expected values copied from there) -/

theorem test_poly_T1 : poly 0x3F000000#32 = 0x3EFFFFFA#32 ∧ poly 0x3FC00000#32 = 0xC12EAB00#32 ∧
    poly 0x7149F2CA#32 = 0xFF800000#32 := by decide +kernel
theorem test_table_T2 : tableEntry 100 255 = 0x3F3681C8#32 ∧ tableEntry 65535 65535 = 0x35200000#32 := by
  decide +kernel
theorem test_average_A1 : avgInt 788 8 255 = 0x3EC5C5C6#32 ∧ avgInt 7 3 255 = 0x3C15EB41#32 := by decide +kernel
theorem test_average_A2 : avgFlt 0x3FE333333C000000#64 3 = 0x3E4CCCCD#32 ∧
    sumFlt [0x3DCCCCCD#32, 0x3E4CCCCD#32, 0x3E99999A#32] = 0x3FE333333C000000#64 := by decide +kernel
theorem test_expo_A3 : expoOf 0x3EC5C5C6#32 0x41200000#32 = 0x3FBEFC7B#32 ∧
    expoOf 0x00000000#32 0xC1200000#32 = 0x80000000#32 := by decide +kernel
theorem test_quant_F1 : quant 0x3EFFFFFF#32 255 = 127 ∧ quant 0x3B008080#32 255 = 1 ∧
    quant 0x7F800000#32 255 = 255 := by decide +kernel
theorem test_curve_T4 : curve 0xC12E6666#32 0x3FF33333#32 = 0x00000000#32 ∧
    curve 0x7F800000#32 0xC0000000#32 = 0x00000000#32 ∧ curve 0x3F800000#32 0x41200000#32 = 0x3F800000#32 := by
  decide +kernel

/-! ### Small states -/

/-- The eight samples of P1, in a region of 4 by 2 with strides 6 and 5 at 0x100 and 0x200. -/
def p1Source : Memory :=
  [(0x100, 16#8), (0x101, 17#8), (0x102, 18#8), (0x103, 19#8), (0x104, 0xEE#8), (0x105, 0xEE#8),
   (0x106, 100#8), (0x107, 128#8), (0x108, 235#8), (0x109, 255#8), (0x10A, 0xEE#8), (0x10B, 0xEE#8)]

def p1Geometry : Geometry := ⟨4#16, 2#16, 0x100#32, 6#32, 0x200#32, 5#32⟩

/-- An 8-bit filter as `SETUP 8, 0, fade, ls` leaves it, with the frame of P1. -/
def filter8 (fade : Bool) (ls : Word) : State :=
  { State.reset with
    status := { Status.reset with done := true, ready := true, tblValid := true }
    req    := ⟨⟨8#6, false, 0#2⟩, fade, ls⟩
    act    := ⟨8#6, false, fade, ls⟩
    desc   := FD8.row 255#16
    table  := buildTable 255
    geom   := p1Geometry
    src    := ⟨p1Source, []⟩ }

/-- A filter of 8 bits, fade on, scaling 10.0. -/
def int8 : State := filter8 true 0x41200000#32

/-- As `int8`, with the average and the exponent of P1 in the datapath registers. -/
def int8Expo : State :=
  { int8 with
    status := { int8.status with avgValid := true, expValid := true }
    sum := 788#64, avg := 0x3EC5C5C6#32, exp := 0x3FBEFC7B#32 }

/-- A float filter, fade on, scaling 10.0, with the four samples of P3 (0, 1, 0.5, 0.25). -/
def flt32 : State :=
  { State.reset with
    status := { Status.reset with done := true, ready := true }
    req    := ⟨⟨32#6, true, 0#2⟩, true, 0x41200000#32⟩
    act    := ⟨32#6, true, true, 0x41200000#32⟩
    geom   := ⟨2#16, 2#16, 0#32, 2#32, 0x10#32, 2#32⟩
    src    := ⟨[(6, 0x80#8), (7, 0x3F#8), (11, 0x3F#8), (14, 0x80#8), (15, 0x3E#8)], []⟩ }

/-- As `flt32`, both samples so large that the square of the average overflows (K6). -/
def fltHuge : State :=
  { flt32 with
    geom := ⟨1#16, 1#16, 0#32, 1#32, 0x10#32, 1#32⟩
    src  := ⟨[(0, 0xE6#8), (1, 0xB1#8), (2, 0x61#8), (3, 0x7F#8)], []⟩ }

/-- A 10-bit filter with the two cells of F5, the second no 10-bit sample. -/
def int10Bad : State :=
  { int8 with
    act   := ⟨10#6, false, true, 0x41200000#32⟩
    desc  := Params.decided.fd10.row 1023#16
    table := buildTable 1023
    geom  := ⟨2#16, 1#16, 0#32, 2#32, 0#32, 2#32⟩
    src   := ⟨[(0, 0xFF#8), (1, 0x03#8), (3, 0xFC#8)], []⟩ }

/-- A state with an error pending: what a failed `INIT` of 9 bits leaves. -/
def pending : State := failed 3#8 (unconstructed int8)

/-- The cells of the destination region, row by row. -/
def dstCells (s : State) : List Word :=
  (positions s.geom).map fun p => Plane.readCell s.dst (cellBytes s) (dstAddr s.geom p)

/-! ### The commands (spec/95; expected values copied from there) -/

theorem test_nop : after (exec .nop pending) (fun t => (statusWord t.status, t.err)) =
    some (0x00000082#32, 3#8) := by decide
theorem test_init_K2 : after (exec .init { State.reset with req := ⟨⟨8#6, false, 0#2⟩, true, 0x41200000#32⟩ })
    (fun t => (statusWord t.status, actFormatWord t.act, t.desc.ymax)) =
      some (0x0000000E#32, 0x00010008#32, 235#16) := by decide +kernel
/-- R42: `INIT` copies whatever row the implementation's parameters hold for 10 bits. -/
theorem test_init_reads_the_parameters : after (exec .init { State.reset with
      params := { Params.decided with fd10 := ⟨1#16, 2#16, 3#16, 4#16, 5#16, 6#16⟩ }
      req    := ⟨⟨10#6, false, 0#2⟩, true, 0x41200000#32⟩ }) (fun t => t.desc) =
    some ⟨1023#16, 1#16, 2#16, 3#16, 4#16, 5#16, 6#16⟩ := by decide +kernel
theorem test_init_family_first : after (exec .init { State.reset with req := ⟨⟨9#6, false, 2#2⟩, true, 0x41200000#32⟩ })
    (fun t => (statusWord t.status, t.err)) = some (0x00000082#32, 2#8) := by decide +kernel
theorem test_clrerr_K4 : after (exec .clrerr pending) (fun t => (statusWord t.status, t.err)) =
    some (0x00000002#32, 0#8) := by decide
theorem test_sreset : after (exec .sreset int8Expo) (fun t => (statusWord t.status, t.req, t.irqEn, t.act)) =
    some (0x00000002#32, Request.reset, ⟨false, false⟩, ActiveConfig.none) := by decide
theorem test_poly_after_reset : after (exec .poly { State.reset with arg := 0x3E800000#32 })
    (fun t => (t.result, t.err)) = some (0x3F65F26E#32, 0#8) := by decide +kernel
theorem test_lut : after (exec .lut { int8 with arg := 100#32 }) (fun t => t.result) = some 0x3F3681C8#32 := by
  decide +kernel
theorem test_lut_T3 : after (exec .lut { int8 with arg := 256#32, result := 7#32 }) (fun t => (t.err, t.result)) =
    some (8#8, 7#32) := by decide +kernel
theorem test_avg_P1 : after (exec .avg int8) (fun t => (t.sum, t.avg, statusWord t.status)) =
    some (788#64, 0x3EC5C5C6#32, 0x0000001E#32) := by decide +kernel
theorem test_avg_P3 : after (exec .avg flt32) (fun t => (t.sum, t.avg)) =
    some (0x3FFC000000000000#64, 0x3EE00000#32) := by decide +kernel
theorem test_expo_P1 : after (exec .expo { int8Expo with exp := 0#32 }) (fun t => t.exp) = some 0x3FBEFC7B#32 := by
  decide +kernel
theorem test_expo_A4 : after (exec .expo int8) (fun t => t.err) = some 5#8 := by decide
theorem test_copy_F5 : after (exec .copy int10Bad) (fun t => (dstCells t, t.err)) =
    some ([0x03FF#32, 0xFC00#32], 0#8) := by decide +kernel
theorem test_copy_padding : after (exec .copy { int8 with dst := ⟨[(0x204, 0xAA#8), (0x1FF, 0xAA#8)].reverse, []⟩ })
    (fun t => (Plane.readByte t.dst 0x204, Plane.readByte t.dst 0x1FF, Plane.readByte t.dst 0x203)) =
      some (0xAA#8, 0xAA#8, 19#8) := by decide +kernel
theorem test_pixel_F2b : [16#32, 17#32, 18#32, 235#32].map
    (fun c => after (exec .pixel { int8Expo with arg := c }) fun t => t.result) =
      [some 16#32, some 85#32, some 170#32, some 0#32] := by decide +kernel
theorem test_pixel_F3 : [0x80000000#32, 0x3F800000#32, 0x3FC00000#32].map (fun c => after (exec .pixel
    { flt32 with status := { flt32.status with expValid := true }, exp := 0x3FF50000#32, arg := c }) fun t => t.result) =
      [some 0x80000000#32, some 0x00000000#32, some 0x00000000#32] := by decide +kernel
theorem test_remap_F6 : after (exec .remap { int8Expo with
      geom := ⟨2#16, 1#16, 0x100#32, 2#32, 0#32, 2#32⟩, dst := ⟨[(0, 0xAA#8), (1, 0xAA#8)], []⟩ })
    (fun t => (dstCells t, t.status.frameValid)) = some ([0xAA#32, 85#32], false) := by decide +kernel
theorem test_xform_P2 : after (exec .xform (filter8 false 0#32)) (fun t => (dstCells t, statusWord t.status, t.exp)) =
    some (List.replicate 8 255#32, 0x0000007E#32, 0x00000000#32) := by decide +kernel
theorem test_xform_K6 : after (exec .xform fltHuge) (fun t => (t.err, statusWord t.status, t.avg)) =
    some (9#8, 0x00000096#32, 0x7F61B1E6#32) := by decide +kernel

/-! ### Geometry, port, interrupt, sequencer (K3, K5; R22, R46, R66, R68, R110, R233) -/

theorem test_geometry_K3 :
    geomCheck true ⟨4#16, 2#16, 0#32, 4#32, 0#32, 3#32⟩ = some .dim ∧
    geomCheck false ⟨4#16, 2#16, 0#32, 4#32, 0#32, 3#32⟩ = none ∧
    geomCheck true ⟨4#16, 1#16, 0xFFFFFFFC#32, 4#32, 0#32, 4#32⟩ = none ∧
    geomCheck false ⟨5#16, 1#16, 0xFFFFFFFC#32, 5#32, 0#32, 5#32⟩ = some .bounds ∧
    geomCheck true ⟨4#16, 2#16, 0#32, 4#32, 0xFFFFFFF9#32, 4#32⟩ = some .bounds := by decide
theorem test_irq_K5 : irq { int8 with irqEn := ⟨true, false⟩ } = true ∧ irq { pending with irqEn := ⟨false, true⟩ } = true ∧
    irq { int8 with irqEn := ⟨false, true⟩ } = false := by decide
theorem test_format_reads_back : (nextOf (step { State.reset with
      inbox := [scriptWR .format 0xFFFFFC88#32, scriptRD .format] })).bind
    (fun t => after (step t) fun u => u.rdata) = some 0x00000008#32 := by decide
theorem test_step_runs_xform_word : after (step ((filter8 false 0#32).withFetchWord 32 0x33)) (fun t => t.status.frameValid) =
    some true := by decide +kernel
theorem test_step_drops_command_while_busy : after (step { int8 with
      status := { int8.status with busy := true }, inbox := [scriptCMD .sreset] }) (fun t => t.status.ready) =
    some true := by decide
theorem test_step_refuses_byte_access :
    step { State.reset with inbox := [.write .byte 0x10 1#32] } = .refused .portAccess := by rfl
theorem test_unbacked_is_stuck :
    faultOf (exec .copy { int8 with dst := ⟨[], [(0x208, 1)]⟩ }) = some .unbackedDestination ∧
    faultOf (exec .avg { int8 with src := ⟨p1Source, [(0x109, 1)]⟩ }) = some .unbackedSource ∧
    faultOf (exec .copy { int8 with dst := ⟨[], [(0x209, 1)]⟩ }) = none := by decide +kernel
theorem test_sequencer_first_position : after (step { int8 with inbox := [.issue 0x00000020#32, .tick] })
    (fun t => (t.status.busy, t.status.done, t.seq)) = some (true, false, ⟨.sum, 0, 0, 0, some 0x20#32⟩) := by
  decide +kernel

/-! ### Witnesses: concrete states and operands that meet all the hypotheses of a statement (or of one of its clauses)
together. `o ≠ none` is read as "answers a next state". -/

/-- As `int8`, with a given list of waiting events. -/
def int8With (l : List HostOp) : State := { int8 with inbox := l }

/-- As `int8`, a command in execution. -/
def busy8 (l : List HostOp) : State :=
  { int8 with
    status := { int8.status with busy := true, done := false }
    seq    := ⟨.copy, 0, 0, 0, some 0x30#32⟩
    inbox  := l }

/-- As `int8Expo`, one sample of the source above `PEAK`. -/
def int10Expo : State :=
  { int10Bad with status := { int10Bad.status with avgValid := true, expValid := true }, exp := 0x3F800000#32 }

theorem witness_DecodeEncodeRoundTrip : Instr.wf .xform = true := rfl
theorem witness_EveryOtherWordIsRejected :
    decode 0x33#32 = .ok .xform ∧ (∀ i, 0x04#32 ≠ encode i) ∧ (∀ i, 0x100#32 ≠ encode i) :=
  ⟨rfl, fun i => by cases i <;> decide, fun i => by cases i <;> decide⟩
theorem witness_StepRunsTheDecodedCommand :
    ((busy8 [.write .word 0x04 0x33#32]).inbox = .write .word 0x04 0x33#32 :: [] ∧
      (busy8 [.write .word 0x04 0x33#32]).status.busy = true) ∧
    ((int8With [.write .word 0x04 0x33#32]).inbox = .write .word 0x04 0x33#32 :: [] ∧
      (int8With [.write .word 0x04 0x33#32]).status.busy = false ∧ Instr.wf .xform = true ∧
      decode 0x33#32 = .ok .xform) ∧
    ((busy8 [.issue 0x33#32]).status.busy = true ∧ (int8With [.issue 0x33#32]).status.busy = false) ∧
    ((busy8 [.wait]).seq.word = some 0x30#32 ∧ decode 0x30#32 = .ok .copy ∧ (busy8 [.wait]).inbox = .wait :: []) ∧
    ((busy8 [.tick]).inbox = .tick :: [] ∧ (nextSequencer 0x30#32 (busy8 [.tick])).isSome = true ∧
      nextSequencer 0x30#32 { busy8 [.tick] with seq := ⟨.copy, 1, 3, 0, some 0x30#32⟩ } = none) ∧
    ((int8With [.tick]).seq.word = none ∧ (int8With [.wait]).seq.word = none) := by
  refine ⟨⟨rfl, rfl⟩, ⟨rfl, rfl, rfl, rfl⟩, ⟨rfl, rfl⟩, ⟨rfl, rfl, rfl⟩, ⟨rfl, by decide +kernel, by decide +kernel⟩, rfl, rfl⟩
theorem witness_IllegalWordRaisesIllegalCommand :
    (int8With [.write .word 0x04 0x04#32]).inbox = .write .word 0x04 0x04#32 :: [] ∧ int8.status.busy = false ∧
    (0x04#32).toNat ∉ [0x00, 0x01, 0x02, 0x03, 0x10, 0x11, 0x20, 0x21, 0x30, 0x31, 0x32, 0x33] ∧
    (0x133#32).toNat ∉ [0x00, 0x01, 0x02, 0x03, 0x10, 0x11, 0x20, 0x21, 0x30, 0x31, 0x32, 0x33] := by
  refine ⟨rfl, rfl, by decide, by decide⟩
theorem witness_FirstErrorSticks :
    pending.err ≠ 0#8 ∧ (nextOf (exec .nop pending)).isSome = true ∧ (nextOf (exec .xform pending)).isSome = true ∧
    (∀ i, 0xFF#32 ≠ encode i) ∧ (nextOf (runWord 0xFF#32 pending)).isSome = true :=
  ⟨by decide, by decide, by decide, fun i => by cases i <;> decide, by decide⟩
theorem witness_CommandsEndIdle : ∃ t, exec .avg int8 = .next t := goesOn (by decide +kernel)
theorem witness_CommandsKeepRequestRegisters : (Instr.avg ≠ .sreset) ∧ ∃ t, exec .avg int8 = .next t :=
  ⟨by decide, goesOn (by decide +kernel)⟩
theorem witness_OnlyPlaneCommandsWritePlanes :
    (∃ t, exec .xform (filter8 false 0#32) = .next t) ∧
    (Instr.avg ≠ .copy ∧ Instr.avg ≠ .remap ∧ Instr.avg ≠ .xform ∧ ∃ t, exec .avg int8 = .next t) :=
  ⟨goesOn (by decide +kernel), by decide, by decide, by decide, goesOn (by decide +kernel)⟩
theorem witness_OnlyInitAndResetChangeTheFilter :
    Instr.xform ≠ .init ∧ Instr.xform ≠ .sreset ∧ ∃ t, exec .xform (filter8 false 0#32) = .next t :=
  ⟨by decide, by decide, goesOn (by decide +kernel)⟩
theorem witness_DatapathRegistersHaveTheirWriters :
    (∃ t, exec .xform (filter8 false 0#32) = .next t) ∧ (∃ t, exec .expo int8Expo = .next t) ∧
    (∃ t, exec .avg int8 = .next t) :=
  ⟨goesOn (by decide +kernel), goesOn (by decide +kernel), goesOn (by decide +kernel)⟩
theorem witness_DestinationOutsideRegionUnchanged :
    (∃ t, exec .copy int8 = .next t) ∧ (∃ t, exec .xform (filter8 false 0#32) = .next t) ∧
    (∃ t, exec .remap int10Expo = .next t) :=
  ⟨goesOn (by decide +kernel), goesOn (by decide +kernel), goesOn (by decide +kernel)⟩
theorem witness_SresetGivesTheResetState :
    (busy8 [.write .word 0x04 (encode .sreset)]).inbox = .write .word 0x04 (encode .sreset) :: [] ∧
    (busy8 [.write .word 0x04 (encode .sreset)]).status.busy = true := ⟨rfl, rfl⟩
theorem witness_HardwareResetAtAnyTime :
    ((busy8 [.rst]).inbox = .rst :: [] ∧ writingRegion (busy8 [.rst]) = true) ∧
    ((int8With [.rst]).inbox = .rst :: [] ∧ writingRegion (int8With [.rst]) = false) ∧
    writingRegion { busy8 [.rst] with seq := ⟨.sum, 0, 1, 0, some 0x20#32⟩ } = false ∧
    (some 0x20#32 ∉ [some 0x30#32, some 0x32#32, some 0x33#32] ∧ pending.err ≠ 0#8 ∧
      State.reset.status.ready = false) := by
  refine ⟨⟨rfl, by decide⟩, ⟨rfl, by decide⟩, by decide, by decide, by decide, rfl⟩
theorem witness_InitConstructsIntegerFilter :
    int8.err = 0#8 ∧ int8.req.format.family = 0#2 ∧ int8.req.format.flt = false ∧
    int8.req.format.bits ∈ [8#6, 10#6, 12#6, 14#6, 16#6] ∧ isfinite32 int8.req.ls = true := by decide +kernel
theorem witness_InitConstructsFloatFilter :
    flt32.err = 0#8 ∧ flt32.req.format.family = 0#2 ∧ flt32.req.format.flt = true ∧ flt32.req.format.bits = 32#6 ∧
    isfinite32 flt32.req.ls = true := by decide +kernel
theorem witness_InitReportsTheFirstError :
    State.reset.err = 0#8 ∧ (2#2 : BitVec 2) ≠ 0#2 ∧
    (State.reset.req.format.family = 0#2 ∧ State.reset.req.format.flt = false ∧
      State.reset.req.format.bits ∉ [8#6, 10#6, 12#6, 14#6, 16#6]) ∧
    ((⟨16#6, true, 0#2⟩ : Format).flt = true ∧ (⟨16#6, true, 0#2⟩ : Format).bits ≠ 32#6) ∧
    isfinite32 0x7F800000#32 = false ∧ isfinite32 0x7FC00000#32 = false := by decide +kernel
theorem witness_PolyWritesThePolynomial : State.reset.err = 0#8 ∧ isnan32 0x7F800000#32 = false ∧
    isnan32 0x7F800001#32 = true := by decide +kernel
theorem witness_LutReadsTheTable :
    (State.reset.err = 0#8 ∧ State.reset.status.ready = false) ∧
    (int8.err = 0#8 ∧ int8.status.ready = true ∧ int8.status.tblValid = true ∧ int8.desc.peak.toNat < (256#32).toNat) ∧
    ((255#32).toNat ≤ int8.desc.peak.toNat ∧ int8.table[(255#32).toNat]? = some 0x35200000#32) := by decide +kernel
theorem witness_AvgOfIntegerPlane :
    int8.err = 0#8 ∧ int8.status.ready = true ∧ int8.act.flt = false ∧ geomCheck false int8.geom = none ∧
    srcRegionBacked int8 = true ∧ SamplesValid int8 := by unfold SamplesValid; decide +kernel
theorem witness_AvgOfFloatPlane :
    (flt32.err = 0#8 ∧ flt32.status.ready = true ∧ flt32.act.flt = true ∧ geomCheck false flt32.geom = none ∧
      srcRegionBacked flt32 = true ∧ SamplesValid flt32 ∧ flt32.params.fsum = .leftToRight ∧
      ((positions flt32.geom).map (srcCell flt32)).all inUnit32 = true ∧
      (positions flt32.geom).map (srcCell { flt32 with src := Plane.empty }) = List.replicate 4 0x00000000#32 ∧
      isfinite32 (averageOf flt32 (regionSum flt32)) = true) ∧
    isfinite32 (f64to32 (fdiv64 (fadd64 0x47EFFFFFF0000000#64 0x47EFFFFFF0000000#64) (u2f64 1))) = false := by
  unfold SamplesValid; decide +kernel
theorem witness_AvgReportsTheFirstError :
    (State.reset.err = 0#8 ∧ State.reset.status.ready = false) ∧
    ({ int8 with geom := Geometry.reset }.status.ready = true ∧ geomCheck false Geometry.reset = some .dim) ∧
    (int10Bad.err = 0#8 ∧ int10Bad.status.ready = true ∧ geomCheck false int10Bad.geom = none ∧
      srcRegionBacked int10Bad = true ∧ ¬ SamplesValid int10Bad) ∧
    (int8.err = 0#8 ∧ int8.status.ready = true ∧ geomCheck false int8.geom = none ∧ 1 < int8.geom.height.toNat ∧
      3 < int8.geom.width.toNat ∧
      CellUnbacked ⟨p1Source, [(0x109, 1)]⟩ (cellBytes int8)
        (int8.geom.srcBase.toNat + 1 * int8.geom.srcStride.toNat + 3)) := by
  unfold SamplesValid CellUnbacked; decide +kernel
theorem witness_EarlyErrorsTouchNoPlane :
    (State.reset.err = 0#8 ∧ State.reset.status.ready = false) ∧ (int8.status.expValid = false) ∧
    (int8Expo.err = 0#8 ∧ int8Expo.status.ready = true ∧ int8Expo.status.expValid = true ∧
      geomCheck true { p1Geometry with dstStride := 3#32 } = some .dim ∧
      geomCheck true { p1Geometry with dstBase := 0xFFFFFFFF#32 } = some .bounds) ∧
    (geomCheck true int8Expo.geom = none ∧ 1 < int8Expo.geom.height.toNat ∧ 3 < int8Expo.geom.width.toNat ∧
      CellUnbacked ⟨p1Source, [(0x109, 1)]⟩ (cellBytes int8Expo)
        (int8Expo.geom.srcBase.toNat + 1 * int8Expo.geom.srcStride.toNat + 3) ∧
      srcRegionBacked int8Expo = true ∧
      CellUnbacked ⟨[], [(0x208, 1)]⟩ (cellBytes int8Expo)
        (int8Expo.geom.dstBase.toNat + 1 * int8Expo.geom.dstStride.toNat + 3) ∧
      sampleValid int8Expo (srcCell int8Expo (1, 3)) = true ∧
      remapCell int8Expo (srcCell int8Expo (1, 3)) ≠ .keep) := by
  unfold CellUnbacked; decide +kernel
theorem witness_IntegerSumIsExact : int8.act.flt = false ∧ SamplesValid int8 ∧ [1#32, 2#32].Perm [2#32, 1#32] := by
  unfold SamplesValid; decide +kernel
theorem witness_UniformPlanesAverageExactly : 0 < 65535 * 65535 ∧ 65535 * 65535 < 2 ^ 32 ∧ 65535 ∈ peaks := by decide
theorem witness_ExpoDerivesTheExponent :
    (int8.err = 0#8 ∧ int8.status.avgValid = false) ∧
    (isfinite32 (fmul32 (fmul32 0x7F61B1E6#32 0x7F61B1E6#32) 0x41200000#32) = false) ∧
    (int8Expo.err = 0#8 ∧ int8Expo.status.ready = true ∧ int8Expo.status.avgValid = true ∧
      isfinite32 (fmul32 (fmul32 int8Expo.avg int8Expo.avg) int8Expo.act.ls) = true) ∧
    (FilterConsistent int8Expo ∧ IntegerAverageInUnit int8Expo ∧ int8Expo.act.flt = false) :=
  ⟨by decide +kernel, by decide +kernel, by decide +kernel,
    ⟨fun h => (by cases h), fun _ _ => ⟨rfl, rfl, rfl, rfl⟩, fun _ h => (by cases h), fun _ => by decide +kernel⟩,
    fun _ _ => by decide +kernel, rfl⟩
theorem witness_ZeroAverageGivesZeroExponent :
    isfinite32 0xC1200000#32 = true ∧ isfinite32 (fmul32 0x3F000000#32 0x3F000000#32) = true ∧
    eq32 0x80000000#32 0x00000000#32 = true := by decide +kernel
theorem witness_CopyCopiesTheRegion :
    int8.err = 0#8 ∧ int8.status.ready = true ∧ geomCheck true int8.geom = none ∧ srcRegionBacked int8 = true ∧
    dstRegionBacked int8 = true ∧ Memory.wf int8.dst.bytes = true ∧ flt32.act.flt = true ∧
    (int8.act.flt = false ∧ int8.act.bits = 8#6) ∧
    (int10Bad.act.flt = false ∧ int10Bad.act.bits ∈ [10#6, 12#6, 14#6, 16#6]) := by decide +kernel
theorem witness_PixelFollowsTheFadeLadder :
    (int8.err = 0#8 ∧ int8.act.flt = false ∧ int8.status.expValid = false) ∧
    (int8Expo.status.ready = true ∧ int8Expo.status.expValid = true ∧ int8Expo.desc.peak.toNat < (256#32).toNat) ∧
    ((235#32).toNat ≤ int8Expo.desc.peak.toNat ∧ int8Expo.table[(235#32).toNat]? = some 0x3D3C21A0#32) := by
  decide +kernel
theorem witness_PixelFollowsTheFloatRule :
    (flt32.err = 0#8 ∧ flt32.act.flt = true ∧ flt32.status.expValid = false) ∧
    ({ flt32.status with expValid := true }.ready = true) ∧ isfinite32 0x7F800000#32 = false ∧
    isfinite32 0x7F7FFFFF#32 = true := by decide +kernel
theorem witness_QuantStaysInRange : 1023 ∈ peaks := by decide
theorem witness_OutputClampStaysInUnitRange :
    lt32 0x80000001#32 0x00000000#32 = true ∧ gt32 0x3F800001#32 0x3F800000#32 = true ∧
    (lt32 0x80000000#32 0x00000000#32 = false ∧ gt32 0x80000000#32 0x3F800000#32 = false) ∧
    isnan32 0xFF800000#32 = false := by decide +kernel
theorem witness_PowerUnitLaws :
    (ge32 0x80000000#32 0x00000000#32 = true ∧ isfinite32 0x80000000#32 = true ∧
      eq32 0x80000000#32 0x00000000#32 = true) ∧
    (isfinite32 0x3F800000#32 = true ∧ gt32 0x3F800000#32 0x00000000#32 = true) ∧
    (isfinite32 0xBF800000#32 = true ∧ lt32 0xBF800000#32 0x00000000#32 = true) ∧
    ge32 0x7F800000#32 0x00000000#32 = true ∧ ge32 0x3F800000#32 0x00000000#32 = true := by decide +kernel
theorem witness_CurveIsNeverNegativeOrNaN :
    eq32 0x80000000#32 0x00000000#32 = true ∧ lt32 0xC12E6666#32 0x00000000#32 = true ∧
    lt32 0x80000000#32 0x00000000#32 = false := by decide +kernel

theorem int8_consistent : FilterConsistent int8 :=
  ⟨fun h => (by cases h), fun _ _ => ⟨rfl, rfl, rfl, rfl⟩, fun _ h => (by cases h), fun _ => by decide +kernel⟩
theorem flt32_consistent : FilterConsistent flt32 :=
  ⟨fun h => (by cases h), fun _ h => (by cases h), fun _ _ => ⟨rfl, rfl, rfl, rfl⟩, fun _ => by decide +kernel⟩

theorem witness_ZeroExponentGivesPeak :
    (FilterConsistent int8 ∧ int8.status.ready = true ∧ eq32 int8.exp 0x00000000#32 = true ∧ int8.act.flt = false ∧
      (19#32).toNat ≤ int8.desc.peak.toNat ∧ int8.desc.ymin.toNat < (19#32).toNat ∧
      int8.desc.y1.toNat < (19#32).toNat ∧ int8.desc.y2.toNat < (19#32).toNat ∧
      (19#32).toNat < int8.desc.ymax.toNat) ∧
    ((filter8 false 0#32).act.fade = false) ∧
    (FilterConsistent flt32 ∧ flt32.status.ready = true ∧ eq32 flt32.exp 0x00000000#32 = true ∧ flt32.act.flt = true ∧
      isfinite32 0x3F7FFFFF#32 = true ∧ eq32 0x3F7FFFFF#32 0x00000000#32 = false ∧
      eq32 0x3F7FFFFF#32 0x3F800000#32 = false) :=
  ⟨⟨int8_consistent, rfl, by decide +kernel, rfl, by decide, by decide, by decide, by decide, by decide⟩, rfl,
    ⟨flt32_consistent, rfl, by decide +kernel, rfl, by decide +kernel, by decide +kernel, by decide +kernel⟩⟩
theorem witness_RemapWritesTheRegion :
    int8Expo.err = 0#8 ∧ int8Expo.status.ready = true ∧ int8Expo.status.expValid = true ∧
    geomCheck true int8Expo.geom = none ∧ srcRegionBacked int8Expo = true ∧ SamplesValid int8Expo ∧
    (∀ p ∈ positions int8Expo.geom, remapCell int8Expo (srcCell int8Expo p) ≠ .keep → dstCellBacked int8Expo p = true) ∧
    Memory.wf int8Expo.dst.bytes = true :=
  ⟨rfl, rfl, rfl, by decide, by decide +kernel, by unfold SamplesValid; decide +kernel,
    fun p hp _ => (by decide +kernel : ∀ p ∈ positions int8Expo.geom, dstCellBacked int8Expo p = true) p hp, rfl⟩
theorem witness_RemapReportsABadSample :
    int10Expo.err = 0#8 ∧ int10Expo.status.ready = true ∧ int10Expo.status.expValid = true ∧
    geomCheck true int10Expo.geom = none ∧ srcRegionBacked int10Expo = true ∧ dstRegionBacked int10Expo = true ∧
    ¬ SamplesValid int10Expo := by unfold SamplesValid; decide +kernel
theorem witness_XformWritesTheFrame :
    int8.err = 0#8 ∧ int8.status.ready = true ∧ geomCheck true int8.geom = none ∧ srcRegionBacked int8 = true ∧
    dstRegionBacked int8 = true ∧ SamplesValid int8 ∧ Memory.wf int8.dst.bytes = true ∧
    (int8.act.flt = true → isfinite32 (averageOf int8 (regionSum int8)) = true) ∧
    isfinite32 (fmul32 (fmul32 (averageOf int8 (regionSum int8)) (averageOf int8 (regionSum int8))) int8.act.ls) = true := by
  unfold SamplesValid; decide +kernel
theorem witness_XformFailureVouchesForNoFrame :
    (fltHuge.err = 0#8 ∧ fltHuge.status.ready = true ∧ geomCheck true fltHuge.geom = none ∧
      after (exec .xform fltHuge) (fun t => t.err) = some 9#8) ∧
    (int10Bad.err = 0#8 ∧ int10Bad.status.ready = true ∧ geomCheck true int10Bad.geom = none ∧
      after (exec .xform int10Bad) (fun t => t.err) = some 8#8) := by decide +kernel
theorem witness_XformEqualsItsSteps :
    after (exec .xform (filter8 false 0#32)) (fun t => t.err) = some 0#8 := by decide +kernel
theorem witness_XformIgnoresEarlierFrames :
    after (exec .xform (filter8 false 0#32)) (fun t => t.err) = some 0#8 := by decide +kernel
theorem witness_PaddingIsNeverRead :
    let p' : Plane := ⟨Memory.write p1Source 0x104 0x55#8, []⟩
    p'.unbacked = int8.src.unbacked ∧
    (∀ p ∈ positions int8.geom, Plane.readCell p' (cellBytes int8) (srcAddr int8.geom p) =
      Plane.readCell int8.src (cellBytes int8) (srcAddr int8.geom p)) ∧
    (nextOf (exec .avg int8)).isSome = true ∧ p' ≠ int8.src := by decide +kernel
theorem witness_IntegerTransformIsTotal :
    FilterConsistent int8 ∧ int8.err = 0#8 ∧ int8.status.ready = true ∧ int8.act.flt = false ∧
    geomCheck true int8.geom = none ∧ srcRegionBacked int8 = true ∧ dstRegionBacked int8 = true ∧ SamplesValid int8 :=
  ⟨int8_consistent, rfl, rfl, rfl, by decide, by decide +kernel, by decide +kernel,
    by unfold SamplesValid; decide +kernel⟩
theorem witness_ConfigurationTakesEffectAtInit :
    Instr.avg ≠ .init ∧ Instr.avg ≠ .sreset ∧ ∃ t, exec .avg int8 = .next t :=
  ⟨by decide, by decide, goesOn (by decide +kernel)⟩
theorem witness_StepKeepsMemoriesCanonical :
    MemoriesCanonical (int8With [scriptCMD .copy]) ∧ ∃ t, step (int8With [scriptCMD .copy]) = .next t :=
  ⟨⟨by decide, by decide⟩, goesOn (by decide +kernel)⟩
theorem witness_StepKeepsErrorFlag :
    ErrorFlagTracksCode { pending with inbox := [scriptCMD .clrerr] } ∧
    ∃ t, step { pending with inbox := [scriptCMD .clrerr] } = .next t :=
  ⟨by unfold ErrorFlagTracksCode; decide, goesOn (by decide)⟩
theorem witness_StepKeepsFilterConsistent :
    FilterConsistent (int8With [scriptCMD .init]) ∧ ∃ t, step (int8With [scriptCMD .init]) = .next t :=
  ⟨⟨fun h => (by cases h), fun _ _ => ⟨rfl, rfl, rfl, rfl⟩, fun _ h => (by cases h), fun _ => by decide +kernel⟩,
    goesOn (by decide +kernel)⟩
theorem witness_StepKeepsExponentSound :
    ExponentSound { int8Expo with inbox := [scriptCMD .expo] } ∧
    FilterConsistent { int8Expo with inbox := [scriptCMD .expo] } ∧
    IntegerAverageInUnit { int8Expo with inbox := [scriptCMD .expo] } ∧
    ∃ t, step { int8Expo with inbox := [scriptCMD .expo] } = .next t :=
  ⟨fun _ => ⟨rfl, by decide +kernel⟩,
    ⟨fun h => (by cases h), fun _ _ => ⟨rfl, rfl, rfl, rfl⟩, fun _ h => (by cases h), fun _ => by decide +kernel⟩,
    fun _ _ => by decide +kernel, goesOn (by decide +kernel)⟩
theorem witness_StepKeepsSequencer :
    SequencerTracksBusy (busy8 [.tick]) ∧ SequencerInRange (busy8 [.tick]) ∧ ∃ t, step (busy8 [.tick]) = .next t :=
  ⟨⟨by decide, by decide, by decide⟩, ⟨fun _ => by decide, fun h => by cases h⟩, goesOn (by decide +kernel)⟩
theorem witness_RegisterWritesReadBack :
    int8.status.busy = false ∧ accessOf .format = .rw ∧
    (int8With [scriptWR .format 0xFFFFFFFF#32, scriptRD .format]).inbox =
      scriptWR .format 0xFFFFFFFF#32 :: scriptRD .format :: [] := ⟨rfl, rfl, rfl⟩
theorem witness_ReadOnlyRegistersIgnoreWrites :
    (accessOf .fdD1 = .ro ∧ (busy8 [scriptWR .fdD1 1#32]).inbox = scriptWR .fdD1 1#32 :: []) ∧
    (int8With [.read .word 0x00]).inbox = .read .word 0x00 :: [] ∧
    ((int8With [.read .word 0x04]).inbox = .read .word 0x04 :: [] ∧ (int8With [.read .word 0x04]).status.busy = false) ∧
    (0x74 ≤ 0xFC ∧ 0xFC % 4 = 0 ∧ 0x74 % 4 = 0 ∧ (int8With [.write .word 0x74 1#32]).inbox = .write .word 0x74 1#32 :: [] ∧
      (busy8 [.read .word 0xFC]).inbox = .read .word 0xFC :: []) :=
  ⟨⟨rfl, rfl⟩, rfl, ⟨rfl, rfl⟩, by decide, rfl, rfl, rfl, rfl⟩
theorem witness_ResetValuesRead :
    (Reg.mode ≠ .avg ∧ Reg.mode ≠ .exponent ∧ Reg.mode ≠ .sumLo ∧ Reg.mode ≠ .sumHi) ∧
    ((int8With [scriptRD .sumLo]).status.busy = false ∧
      (int8With [scriptRD .sumLo]).inbox = scriptRD .sumLo :: []) ∧
    readIdle int8Expo .sumLo = some 0x00000314#32 ∧
    (int8Expo.status.ready = true ∧ int8Expo.status.avgValid = true ∧ int8Expo.status.expValid = true) ∧
    State.reset.status.ready = false ∧
    ((busy8 [.read .word 0x08]).status.busy = true ∧
      (busy8 [.read .word 0x08]).inbox = .read .word 0x08 :: []) := by decide
theorem witness_UndefinedPortAccessesAreRefused :
    (255 < 256 ∧ PortWidth.byte ≠ .word ∧ (int8With [.write .byte 255 1#32]).inbox = .write .byte 255 1#32 :: [] ∧
      (int8With [.read .byte 255]).inbox = .read .byte 255 :: []) ∧
    (254 < 256 ∧ 254 % 4 ≠ 0) ∧
    (0x38 < 256 ∧ 0x38 % 4 = 0 ∧ (busy8 [.write .word 0x38 1#32]).status.busy = true ∧ regAt 0x38 = some .arg ∧
      accessOf .arg = .rw ∧ (busy8 [.write .word 0x38 1#32]).inbox = .write .word 0x38 1#32 :: []) :=
  ⟨⟨by decide, by decide, rfl, rfl⟩, ⟨by decide, by decide⟩, by decide, by decide, rfl, rfl, rfl, rfl⟩
theorem witness_IrqFollowsStatus :
    Instr.avg ≠ .sreset ∧ { int8 with irqEn := ⟨true, false⟩ }.irqEn.ieDone = true ∧
    ∃ t, exec .avg { int8 with irqEn := ⟨true, false⟩ } = .next t := ⟨by decide, rfl, goesOn (by decide +kernel)⟩

end Sys2Proof.Tests
end

section
/-! PROOFS. What the commands read of the source plane (R63). Replacing `S` by a plane that backs the same ranges and
agrees with it on the active region commutes with the rule of every command. -/

namespace Sys2Proof.Machine

/-- The machine with another source plane. -/
def withSrc (p' : Plane) (s : State) : State := { s with src := p' }

@[simp] theorem withSrc_geom (p' : Plane) (s : State) : (withSrc p' s).geom = s.geom := rfl
@[simp] theorem withSrc_req (p' : Plane) (s : State) : (withSrc p' s).req = s.req := rfl

/-- A result with its state changed, whatever its end. -/
def CmdResult.mapState (f : State → State) : CmdResult → CmdResult
  | .ok s => .ok (f s)
  | .raised c s => .raised c (f s)
  | .stuck e => .stuck e

/-- The premise of R63: the plane backs the same ranges as `S` and agrees with it in every cell of the active region. -/
structure SameRegion (p' : Plane) (s : State) : Prop where
  unbacked : p'.unbacked = s.src.unbacked
  cells : ∀ p ∈ positions s.geom, Plane.readCell p' (cellBytes s) (srcAddr s.geom p) = srcCell s p

section Replacement
variable {p' : Plane} {s : State}

/-- The premise speaks of `S`, the geometry and the active configuration only. -/
theorem SameRegion.congr {t : State} (h : SameRegion p' s) (hsrc : t.src = s.src) (hgeom : t.geom = s.geom)
    (hact : t.act = s.act) : SameRegion p' t where
  unbacked := hsrc ▸ h.unbacked
  cells p hp := by
    have hbytes : cellBytes t = cellBytes s := by rw [cellBytes, hact]; rfl
    rw [srcCell, hbytes, hgeom, hsrc]
    exact h.cells p (hgeom ▸ hp)

/-! The combinators of a command's rule. -/

theorem mapState_ite {f : State → State} {c : Prop} {_ : Decidable c} {q q' r r' : CmdResult}
    (hq : q' = q.mapState f) (hr : r' = r.mapState f) :
    (if c then q' else r') = (if c then q else r).mapState f := by
  rw [hq, hr]
  exact (apply_ite (CmdResult.mapState f) _ _ _).symm

theorem mapState_checkGeometry {b : Bool} {k : State → CmdResult}
    (hk : k (withSrc p' s) = (k s).mapState (withSrc p')) :
    checkGeometry b k (withSrc p' s) = (checkGeometry b k s).mapState (withSrc p') := by
  unfold checkGeometry
  rw [withSrc_geom]
  cases geomCheck b s.geom with
  | some c => rfl
  | none => exact hk

theorem mapState_needBacked {backed : State → Bool} {f : Fault} {k : State → CmdResult}
    (hb : backed (withSrc p' s) = backed s) (hk : k (withSrc p' s) = (k s).mapState (withSrc p')) :
    needBacked backed f k (withSrc p' s) = (needBacked backed f k s).mapState (withSrc p') := by
  unfold needBacked
  rw [hb]
  exact mapState_ite hk rfl

theorem mapState_andThen {P : State → Prop} {f : State → State} {r : CmdResult} {k : State → CmdResult}
    (hr : reaches P r) (hk : ∀ t, P t → k (f t) = (k t).mapState f) :
    andThen (r.mapState f) k = (andThen r k).mapState f := by
  cases r with
  | ok t => exact hk t hr
  | raised c t => rfl
  | stuck e => rfl

theorem mapState_onRaise_scrambleRegion (p' : Plane) (r : CmdResult) :
    onRaise scrambleRegion (r.mapState (withSrc p')) = (onRaise scrambleRegion r).mapState (withSrc p') := by
  cases r <;> rfl

/-! What is read of the source plane. -/

theorem srcCell_withSrc (h : SameRegion p' s) {p : Nat × Nat} (hp : p ∈ positions s.geom) :
    srcCell (withSrc p' s) p = srcCell s p :=
  h.cells p hp

theorem srcSamples_withSrc (h : SameRegion p' s) : srcSamples (withSrc p' s) = srcSamples s :=
  List.map_congr_left fun _ hp => srcCell_withSrc h hp

theorem copyWrites_withSrc (h : SameRegion p' s) : copyWrites (withSrc p' s) = copyWrites s :=
  List.map_congr_left fun p hp => congrArg (Prod.mk (dstAddr s.geom p)) (srcCell_withSrc h hp)

theorem remapWrite_withSrc (h : SameRegion p' s) {p : Nat × Nat} (hp : p ∈ positions s.geom) :
    remapWrite (withSrc p' s) p = remapWrite s p := by
  unfold remapWrite
  rw [srcCell_withSrc h hp]
  rfl

theorem remapWrites_withSrc (h : SameRegion p' s) : remapWrites (withSrc p' s) = remapWrites s :=
  List.filterMap_congr fun _ hp => remapWrite_withSrc h hp

theorem cellBacked_of_unbacked_eq {p q : Plane} (h : p.unbacked = q.unbacked) (n a : Nat) :
    Plane.cellBacked p n a = Plane.cellBacked q n a := by
  simp only [Plane.cellBacked, Plane.byteBacked, h]

theorem srcRegionBacked_withSrc (h : SameRegion p' s) : srcRegionBacked (withSrc p' s) = srcRegionBacked s :=
  List.all_congr rfl fun p => cellBacked_of_unbacked_eq h.unbacked (cellBytes s) (srcAddr s.geom p)

theorem remapTargetsBacked_withSrc (h : SameRegion p' s) :
    remapTargetsBacked (withSrc p' s) = remapTargetsBacked s := by
  rw [Bool.eq_iff_iff]
  simp only [remapTargetsBacked, List.all_eq_true]
  refine forall₂_congr fun p hp => ?_
  rw [srcCell_withSrc h hp, remapWrite_withSrc h hp]
  rfl

theorem regionSum_withSrc (h : SameRegion p' s) : regionSum (withSrc p' s) = regionSum s := by
  unfold regionSum
  rw [srcSamples_withSrc h]
  rfl

/-! The shared parts of the rules. -/

theorem copyPlane_withSrc (h : SameRegion p' s) : copyPlane (withSrc p' s) = withSrc p' (copyPlane s) := by
  unfold copyPlane
  rw [copyWrites_withSrc h]
  rfl

theorem averagePlane_withSrc (h : SameRegion p' s) :
    averagePlane (withSrc p' s) = (averagePlane s).mapState (withSrc p') := by
  unfold averagePlane
  rw [srcSamples_withSrc h, regionSum_withSrc h]
  exact mapState_ite rfl (mapState_ite rfl rfl)

theorem deriveExponent_withSrc (p' : Plane) (s : State) :
    deriveExponent (withSrc p' s) = (deriveExponent s).mapState (withSrc p') :=
  mapState_ite rfl rfl

theorem remapPlane_withSrc (h : SameRegion p' s) :
    remapPlane (withSrc p' s) = (remapPlane s).mapState (withSrc p') := by
  unfold remapPlane
  rw [srcSamples_withSrc h, remapWrites_withSrc h]
  exact mapState_ite rfl rfl

theorem averagePlane_reaches_sameRegion (h : SameRegion p' s) : reaches (SameRegion p') (averagePlane s) :=
  reaches_mono (by rintro _ ⟨sum, avg, status, rfl⟩; exact h.congr rfl rfl rfl) (averagePlane_frame s)

theorem deriveExponent_reaches_sameRegion (h : SameRegion p' s) : reaches (SameRegion p') (deriveExponent s) :=
  reaches_mono (by rintro _ ⟨exp, status, rfl⟩; exact h.congr rfl rfl rfl) (deriveExponent_frame s)

theorem xformSteps_withSrc (h : SameRegion p' s) :
    xformSteps (withSrc p' s) = (xformSteps s).mapState (withSrc p') := by
  have hc : SameRegion p' (copyPlane s) := h.congr rfl rfl rfl
  unfold xformSteps
  rw [copyPlane_withSrc h, averagePlane_withSrc hc]
  refine mapState_andThen (averagePlane_reaches_sameRegion hc) fun t ht => ?_
  rw [deriveExponent_withSrc]
  exact mapState_andThen (deriveExponent_reaches_sameRegion ht) fun u hu => remapPlane_withSrc hu

/-! The rule of each command. -/

theorem avgBody_withSrc (h : SameRegion p' s) : avgBody (withSrc p' s) = (avgBody s).mapState (withSrc p') := by
  have hs : SameRegion p' { s with status := flagsAvgStart s.status } := h.congr rfl rfl rfl
  exact mapState_ite rfl (mapState_checkGeometry
    (mapState_needBacked (srcRegionBacked_withSrc hs) (averagePlane_withSrc hs)))

theorem copyBody_withSrc (h : SameRegion p' s) : copyBody (withSrc p' s) = (copyBody s).mapState (withSrc p') := by
  have hs : SameRegion p' { s with status := flagsPlaneStart s.status } := h.congr rfl rfl rfl
  exact mapState_ite rfl (mapState_checkGeometry (mapState_needBacked (srcRegionBacked_withSrc hs)
    (mapState_needBacked rfl (congrArg _ (copyPlane_withSrc hs)))))

theorem remapBody_withSrc (h : SameRegion p' s) : remapBody (withSrc p' s) = (remapBody s).mapState (withSrc p') := by
  have hs : SameRegion p' { s with status := flagsPlaneStart s.status } := h.congr rfl rfl rfl
  refine mapState_ite rfl (mapState_checkGeometry (mapState_needBacked (srcRegionBacked_withSrc hs)
    (mapState_needBacked (remapTargetsBacked_withSrc hs) ?_)))
  rw [remapPlane_withSrc hs]
  exact mapState_onRaise_scrambleRegion p' _

theorem xformBody_withSrc (h : SameRegion p' s) : xformBody (withSrc p' s) = (xformBody s).mapState (withSrc p') := by
  have hs : SameRegion p' { s with status := flagsXformStart s.status } := h.congr rfl rfl rfl
  refine mapState_ite rfl (mapState_checkGeometry (mapState_needBacked (srcRegionBacked_withSrc hs)
    (mapState_needBacked rfl ?_)))
  rw [xformSteps_withSrc hs, ← mapState_onRaise_scrambleRegion]
  refine congrArg (onRaise scrambleRegion) (mapState_andThen (P := fun _ => True) ?_ fun _ _ => rfl)
  cases xformSteps { s with status := flagsXformStart s.status } <;> trivial

/-- The rule of every command commutes with the replacement of the source plane. -/
theorem bodyOf_withSrc (i : Instr) (h : SameRegion p' s) :
    bodyOf i (withSrc p' s) = (bodyOf i s).mapState (withSrc p') := by
  cases i with
  | nop | clrerr | sreset => rfl
  | init =>
    simp only [bodyOf, initBody]
    rw [withSrc_req]
    cases requestError s.req <;> rfl
  | poly => exact mapState_ite rfl rfl
  | lut | pixel => exact mapState_ite rfl (mapState_ite rfl rfl)
  | expo => exact mapState_ite rfl (deriveExponent_withSrc p' s)
  | avg => exact avgBody_withSrc h
  | copy => exact copyBody_withSrc h
  | remap => exact remapBody_withSrc h
  | xform => exact xformBody_withSrc h

theorem exec_withSrc {i : Instr} {t : State} (h : SameRegion p' s) (he : exec i s = .next t) :
    exec i (withSrc p' s) = .next (withSrc p' t) := by
  have hb := bodyOf_withSrc i (s := accept s) (h.congr rfl rfl rfl)
  rcases exec_next he with ⟨herr, hi, rfl⟩ | ⟨hrun, ⟨u, hu, rfl⟩ | ⟨c, u, hu, rfl⟩⟩
  · exact exec_rejected (s := withSrc p' s) hi herr
  · rw [hu] at hb
    exact exec_ok (s := withSrc p' s) hrun hb
  · rw [hu] at hb
    exact exec_raised (s := withSrc p' s) hrun hb

end Replacement

/-- Settles O47: the rule of every command commutes with the replacement of the source plane, because all that is read
of `S` is its backed ranges and the cells of the active region. -/
theorem paddingIsNeverRead : Obligations.PaddingIsNeverRead := by
  unfold Obligations.PaddingIsNeverRead
  exact fun _ _ _ _ hunbacked hcells he => exec_withSrc ⟨hunbacked, hcells⟩ he

end Sys2Proof.Machine
end

section
/-! PROOFS. What a write of an illegal word to `CMD` does (R92, R205): the decoder accepts encoded commands only, a
write to `CMD` hands its word to `writeCmd`, and running a word the decoder rejects is the error entry with code 1. -/

namespace Sys2Proof.Machine

open Sys2Proof.Safety

/-- Every row of the opcode map compares the whole word with the encoding of its command (R91). -/
theorem opTable_row {r : OpRow} (h : r ∈ opTable) : r.mask = fullMask ∧ r.pattern = encode r.instr :=
  (by decide : ∀ r ∈ opTable, r.mask = fullMask ∧ r.pattern = encode r.instr) r h

theorem eq_pattern_of_selects {r : OpRow} {w : Word} (hm : r.mask = fullMask) (h : r.selects w = true) :
    w = r.pattern := by
  have hfull : w &&& fullMask = w := BitVec.and_allOnes
  simpa [OpRow.selects, hm, hfull] using h

theorem eq_encode_of_decode_eq_ok {w : Word} {i : Instr} (h : decode w = .ok i) : w = encode i := by
  unfold decode at h
  split at h
  next r hfind =>
    obtain rfl : r.instr = i := Except.ok.inj h
    obtain ⟨hmask, hpattern⟩ := opTable_row (List.mem_of_find?_eq_some hfind)
    have hselects : r.selects w = true := List.find?_some (p := (OpRow.selects · w)) hfind
    exact (eq_pattern_of_selects hmask hselects).trans hpattern
  next => cases h

/-- The words of the twelve commands as numbers (R91). -/
theorem toNat_encode_mem (i : Instr) :
    (encode i).toNat ∈ [0x00, 0x01, 0x02, 0x03, 0x10, 0x11, 0x20, 0x21, 0x30, 0x31, 0x32, 0x33] := by
  cases i <;> decide

theorem runWord_of_ne_encode {w : Word} (h : ∀ i, w ≠ encode i) (s : State) :
    runWord w s = .next (illegalCommand s) := by
  unfold runWord
  split
  next i hdecode => exact absurd (eq_encode_of_decode_eq_ok hdecode) (h i)
  next => rfl

/-- Accepting the word leaves no trace in the error state it ends in: `BUSY` and `DONE` are written again. -/
theorem illegalCommand_eq_failed (s : State) :
    illegalCommand s = failed (if s.err = 0#8 then 1#8 else s.err) s := rfl

theorem step_write_cmd {s : State} {w : Word} {rest : List HostOp} (h : s.inbox = .write .word 0x04 w :: rest) :
    step s = writeCmd w { s with inbox := rest } := by
  calc step s = portWrite .word (offsetOf .cmd) w { s with inbox := rest } := by
        unfold step stepInbox
        rw [h]
        rfl
    _ = writeCmd w { s with inbox := rest } := portAccess_offsetOf .cmd _

theorem writeCmd_of_idle (w : Word) {s : State} (h : s.status.busy = false) : writeCmd w s = runWord w s := by
  simp [writeCmd, h]

/-- Settles O5: the word is no command's, so the idle block hands it to the error entry with code 1. -/
theorem illegalWordRaisesIllegalCommand : Obligations.IllegalWordRaisesIllegalCommand := by
  unfold Obligations.IllegalWordRaisesIllegalCommand
  intro s w rest hinbox hidle hword
  have hillegal : ∀ i, w ≠ encode i := by
    rintro i rfl
    exact hword (toNat_encode_mem i)
  calc step s = writeCmd w { s with inbox := rest } := step_write_cmd hinbox
    _ = runWord w { s with inbox := rest } := writeCmd_of_idle w hidle
    _ = .next (illegalCommand { s with inbox := rest }) := runWord_of_ne_encode hillegal _
    _ = _ := congrArg _ (illegalCommand_eq_failed _)

end Sys2Proof.Machine
end

section
/-! PROOFS. What `NOP` and `CLRERR` do (R111, R113): both are accepted while an error is pending, and completion writes
`BUSY` and `DONE` again, so that accepting the command leaves no trace. -/

namespace Sys2Proof.Machine

open Sys2Proof.Safety

theorem complete_accept_eq_completed (s : State) : complete (accept s) = completed s := rfl

theorem complete_clearError_accept (s : State) :
    complete (clearError (accept s)) = { s with
      err    := 0#8
      status := { s.status with busy := false, done := true, error := false }
      seq    := Sequencer.idle } := rfl

/-- `NOP`, whatever the state. -/
theorem exec_nop (s : State) : exec .nop s = .next (complete (accept s)) :=
  exec_ok (i := .nop) (.inr rfl) rfl

/-- `CLRERR`, whatever the state. -/
theorem exec_clrerr (s : State) : exec .clrerr s = .next (complete (clearError (accept s))) :=
  exec_ok (i := .clrerr) (.inr rfl) rfl

/-- Settles O13: `NOP` is exempt from a pending error and its rule is empty, so only acceptance and completion act. -/
theorem nopChangesOnlyBusyAndDone : Obligations.NopChangesOnlyBusyAndDone := by
  unfold Obligations.NopChangesOnlyBusyAndDone
  refine ⟨by decide, fun s => ?_⟩
  rw [exec_nop, complete_accept_eq_completed]

/-- Settles O14: `CLRERR` is exempt from a pending error, so its rule, which leaves the error, always runs. -/
theorem clrerrClearsTheError : Obligations.ClrerrClearsTheError := by
  unfold Obligations.ClrerrClearsTheError
  refine ⟨by decide, fun s => ?_⟩
  rw [exec_clrerr, complete_clearError_accept]

end Sys2Proof.Machine
end

section
/-! PROOFS. A command that runs, from its rule on the accepted state: acceptance leaves no trace in the state it ends in,
because completion and error entry write `BUSY` and `DONE` again (R110, R205). -/

namespace Sys2Proof.Machine

open Sys2Proof.Safety

theorem raiseError_accept_eq_failed (c : ErrCode) {s : State} (h : s.err = 0#8) :
    raiseError c (accept s) = failed (errNumber c) s := by
  calc raiseError c (accept s) = failed (if s.err = 0#8 then errNumber c else s.err) s := rfl
    _ = failed (errNumber c) s := by rw [if_pos h]

theorem exec_completed {i : Instr} {s u : State} (h : s.err = 0#8) (hb : bodyOf i (accept s) = .ok (accept u)) :
    exec i s = .next (completed u) := by
  rw [exec_ok (.inl h) hb, complete_accept_eq_completed]

theorem exec_failed {i : Instr} {s : State} {c : ErrCode} (h : s.err = 0#8)
    (hb : bodyOf i (accept s) = .raised c (accept s)) : exec i s = .next (failed (errNumber c) s) := by
  rw [exec_raised (.inl h) hb, raiseError_accept_eq_failed c h]

end Sys2Proof.Machine
end

section
/-! PROOFS. What `POLY` does (R131, R134). The polynomial reads its operand as a datum. Past an infinity, a zero or a NaN,
whose values are computed, the operand is a finite non-zero factor: no product with it and no sum with a finite
coefficient makes a NaN, so the polynomial is a NaN exactly on a NaN. -/

namespace Sys2Proof.Machine

open Sys2Proof.Safety

/-! Where a primitive's result is a NaN. -/

theorem isnan32_congr {a b : Word} (h : fp32 a = .nan ↔ fp32 b = .nan) : isnan32 a = isnan32 b := by
  rw [Bool.eq_iff_iff, isnan32_iff, isnan32_iff, h]

theorem fpAdd_fin_eq_nan_iff {f : FloatFormat} {a : Fp} {t : Bool} {n : Nat} :
    fpAdd f a (.fin t n) = .nan ↔ a = .nan := by
  cases a with
  | nan => simp [fpAdd]
  | inf s => simp [fpAdd]
  | fin s m => simp only [fpAdd]; split_ifs <;> simp [roundFp_not_nan]

theorem fpAdd_fin_left_eq_nan_iff {f : FloatFormat} {b : Fp} {s : Bool} {m : Nat} :
    fpAdd f (.fin s m) b = .nan ↔ b = .nan := by
  cases b with
  | nan => simp [fpAdd]
  | inf t => simp [fpAdd]
  | fin t n => rw [fpAdd_fin_eq_nan_iff]; simp

theorem fpMul_fin_left_eq_nan_iff {f : FloatFormat} {b : Fp} {s : Bool} {m : Nat} (hm : m ≠ 0) :
    fpMul f (.fin s m) b = .nan ↔ b = .nan := by
  cases b with
  | nan => simp [fpMul]
  | inf t => simp [fpMul, hm]
  | fin t n => simp [fpMul, roundFp_not_nan]

theorem negate_eq_nan_iff {a : Fp} : a.negate = .nan ↔ a = .nan := by cases a <;> simp [Fp.negate]

theorem isnan32_fadd32_of_isfinite32 (a : Word) {b : Word} (hb : isfinite32 b = true) :
    isnan32 (fadd32 a b) = isnan32 a := by
  obtain ⟨t, n, hb⟩ := isfinite32_iff.1 hb
  refine isnan32_congr ?_
  rw [fp32_fadd32, hb, fpAdd_fin_eq_nan_iff]

theorem isnan32_fsub32_of_isfinite32 (a : Word) {b : Word} (hb : isfinite32 b = true) :
    isnan32 (fsub32 a b) = isnan32 a := by
  obtain ⟨t, n, hb⟩ := isfinite32_iff.1 hb
  refine isnan32_congr ?_
  rw [fp32_fsub32, hb]
  exact fpAdd_fin_eq_nan_iff

theorem isnan32_fsub32_of_isfinite32_left {a : Word} (ha : isfinite32 a = true) (b : Word) :
    isnan32 (fsub32 a b) = isnan32 b := by
  obtain ⟨s, m, ha⟩ := isfinite32_iff.1 ha
  refine isnan32_congr ?_
  rw [fp32_fsub32, ha, fpSub, fpAdd_fin_left_eq_nan_iff, negate_eq_nan_iff]

theorem isnan32_fmul32_of_ne_zero {a : Word} {s : Bool} {m : Nat} (ha : fp32 a = .fin s m) (hm : m ≠ 0) (b : Word) :
    isnan32 (fmul32 a b) = isnan32 b := by
  refine isnan32_congr ?_
  rw [fp32_fmul32, ha, fpMul_fin_left_eq_nan_iff hm]

/-! Where the polynomial is a NaN (R131). -/

/-- The polynomial reads its operand as a datum only. -/
theorem poly_congr {x y : Word} (h : fp32 x = fp32 y) : poly x = poly y := by
  simp only [poly, fmul32, h]

/-- The operand of the polynomial may be taken to be the pattern written for its datum. -/
theorem poly_eq_of_fp32_eq {x : Word} {d : Fp} (h : fp32 x = d) : poly x = poly (bits32 d) := by
  subst h
  exact poly_congr (fp32_bits32 (fp32_held x)).symm

theorem isnan32_poly_of_ne_zero {x : Word} {s : Bool} {m : Nat} (hx : fp32 x = .fin s m) (hm : m ≠ 0) :
    isnan32 (poly x) = false := by
  have hmul := isnan32_fmul32_of_ne_zero hx hm
  unfold poly
  rw [isnan32_fsub32_of_isfinite32_left (by decide), hmul,
    isnan32_fadd32_of_isfinite32 _ (b := K1) (by decide), hmul,
    isnan32_fsub32_of_isfinite32 _ (b := K2) (by decide), hmul,
    isnan32_fadd32_of_isfinite32 _ (b := K3) (by decide), hmul,
    isnan32_fsub32_of_isfinite32 _ (b := K4) (by decide), hmul]
  decide

theorem isnan32_poly (x : Word) : isnan32 (poly x) = isnan32 x := by
  cases hx : fp32 x with
  | nan =>
    rw [isnan32_iff.2 hx, poly_eq_of_fp32_eq hx]
    decide +kernel
  | inf s =>
    have hfalse : isnan32 x = false := by simp [isnan32, hx]
    rw [hfalse, poly_eq_of_fp32_eq hx]
    cases s <;> decide +kernel
  | fin s m =>
    have hfalse : isnan32 x = false := by simp [isnan32, hx]
    rw [hfalse]
    rcases eq_or_ne m 0 with rfl | hm
    · rw [poly_eq_of_fp32_eq hx]
      cases s <;> decide +kernel
    · exact isnan32_poly_of_ne_zero hx hm

/-! The NaN that is made of a drawn word (R116, V3). -/

/-- A pattern that lies above the infinity when its sign is dropped. -/
theorem isnan32_of_infPattern_lt {w : Word} (h : 0x7F800000#32 < w &&& 0x7FFFFFFF#32) : isnan32 w = true := by
  have hrest : (w &&& 0x7FFFFFFF#32).toNat = w.toNat % signWeight binary32 :=
    Nat.and_two_pow_sub_one_eq_mod w.toNat 31
  have hlt : infPattern binary32 < w.toNat % signWeight binary32 := hrest ▸ h
  rw [isnan32_iff]
  simp only [fp32, unpack]
  rw [if_neg hlt.not_gt, if_neg hlt.ne']

/-- All exponent bits set and a fraction that is not 0. -/
theorem isnan32_of_exponent_of_fraction {w : Word} (hexp : w &&& 0x7F800000#32 = 0x7F800000#32)
    (hfrac : w &&& 0x007FFFFF#32 ≠ 0#32) : isnan32 w = true := by
  have hle : 0x7F800000#32 ≤ w &&& 0x7FFFFFFF#32 :=
    calc 0x7F800000#32 = (w &&& 0x7FFFFFFF#32) &&& 0x7F800000#32 := by rw [BitVec.and_assoc]; exact hexp.symm
      _ ≤ w &&& 0x7FFFFFFF#32 := Nat.and_le_left
  have hne : 0x7F800000#32 ≠ w &&& 0x7FFFFFFF#32 := fun heq => hfrac <|
    calc w &&& 0x007FFFFF#32 = (w &&& 0x7FFFFFFF#32) &&& 0x007FFFFF#32 := by rw [BitVec.and_assoc]; rfl
      _ = 0#32 := by rw [← heq]; rfl
  exact isnan32_of_infPattern_lt (BitVec.lt_of_le_ne hle hne)

/-- Setting all exponent bits makes a NaN, unless the fraction is 0 afterwards. -/
theorem isnan32_or {v c : Word} (hexp : c &&& 0x7F800000#32 = 0x7F800000#32)
    (hfrac : v &&& 0x007FFFFF#32 ||| c &&& 0x007FFFFF#32 ≠ 0#32) : isnan32 (v ||| c) = true := by
  refine isnan32_of_exponent_of_fraction ?_ ?_
  · rw [BitVec.and_or_distrib_right, hexp]
    ext i
    simp
  · rwa [BitVec.and_or_distrib_right]

theorem isnan32_nanOf (v : Word) : isnan32 (nanOf v) = true := by
  unfold nanOf
  split_ifs with h
  · refine isnan32_or (by decide) ?_
    rw [h]
    decide
  · refine isnan32_or (by decide) ?_
    simpa using h

/-! The command. -/

theorem polyBody_of_not_nan {s : State} (h : isnan32 s.arg = false) :
    polyBody s = .ok { s with result := poly s.arg } :=
  if_neg (by rw [polyOperand, isnan32_poly, h]; exact Bool.false_ne_true)

theorem polyBody_of_nan {s : State} (h : isnan32 s.arg = true) :
    polyBody s = .ok { s with result := nanOf (Config.freeWord s.draws), draws := s.draws + 1 } :=
  if_pos ((isnan32_poly s.arg).trans h)

/-- Settles O21: the polynomial of an operand that is no NaN is no NaN, so it is what `POLY` writes; of a NaN it is one,
so that `POLY` writes the NaN made of a drawn word. -/
theorem polyWritesThePolynomial : Obligations.PolyWritesThePolynomial := by
  unfold Obligations.PolyWritesThePolynomial
  refine ⟨by decide, fun s herr => ⟨fun harg => ?_, fun harg => ?_⟩⟩
  · exact exec_completed herr (polyBody_of_not_nan (s := accept s) harg)
  · exact ⟨_, _, isnan32_nanOf _, exec_completed herr (polyBody_of_nan (s := accept s) harg)⟩

end Sys2Proof.Machine
end

section
/-! PROOFS. What `LUT` does (R135): the readiness test, the index test, then the entry. -/

namespace Sys2Proof.Machine

open Sys2Proof.Safety

theorem lutBody_of_not_ready {s : State} (h : s.status.ready = false ∨ s.status.tblValid = false) :
    lutBody s = .raised .notReady s := if_pos h

section Ready
variable {s : State} (hready : s.status.ready = true) (htbl : s.status.tblValid = true)
include hready htbl

theorem lutBody_of_ready :
    lutBody s = if s.desc.peak.toNat < s.arg.toNat then .raised .sample s
      else .ok { s with result := tableRead s s.arg.toNat } :=
  if_neg (by simp [hready, htbl])

theorem lutBody_of_peak_lt (h : s.desc.peak.toNat < s.arg.toNat) : lutBody s = .raised .sample s :=
  (lutBody_of_ready hready htbl).trans (if_pos h)

theorem lutBody_of_le_peak (h : s.arg.toNat ≤ s.desc.peak.toNat) :
    lutBody s = .ok { s with result := tableRead s s.arg.toNat } :=
  (lutBody_of_ready hready htbl).trans (if_neg h.not_gt)

end Ready

theorem tableRead_of_getElem? {s : State} {i : Nat} {v : Word} (h : s.table[i]? = some v) : tableRead s i = v := by
  rw [tableRead, List.getD_eq_getElem?_getD, h, Option.getD_some]

/-- Settles O23: the rule of `LUT` on the accepted state, which has the flags, the descriptor, the table and the operand
of the state before. -/
theorem lutReadsTheTable : Obligations.LutReadsTheTable := by
  unfold Obligations.LutReadsTheTable
  refine ⟨by decide, fun s herr => ⟨fun hready => ?_, fun hready htbl hlt => ?_, fun hready htbl hle v hv => ?_⟩⟩
  · exact exec_failed (i := .lut) (c := .notReady) herr (lutBody_of_not_ready (s := accept s) hready)
  · exact exec_failed (i := .lut) (c := .sample) herr (lutBody_of_peak_lt (s := accept s) hready htbl hlt)
  · rw [← tableRead_of_getElem? hv]
    exact exec_completed herr (lutBody_of_le_peak (s := accept s) hready htbl hle)

end Sys2Proof.Machine
end

section
/-! PROOFS. What `EXPO` does (R158): the readiness test, then the exponent, which is finite for an average in `[0, 1]` and
a finite scaling (R159). -/

namespace Sys2Proof.Machine

open Sys2Proof.Safety

/-- A command that ends in a first error, its rule having changed the accepted state before. -/
theorem exec_failed_from {i : Instr} {s u : State} {c : ErrCode} (h : s.err = 0#8) (hu : u.err = 0#8)
    (hb : bodyOf i (accept s) = .raised c (accept u)) : exec i s = .next (failed (errNumber c) u) := by
  rw [exec_raised (.inl h) hb, raiseError_accept_eq_failed c hu]

theorem expoBody_of_not_ready {s : State} (h : s.status.ready = false ∨ s.status.avgValid = false) :
    expoBody s = .raised .notReady s := if_pos h

section Ready
variable {s : State} (hready : s.status.ready = true) (havg : s.status.avgValid = true)
include hready havg

theorem expoBody_of_ready : expoBody s = deriveExponent s := if_neg (by simp [hready, havg])

theorem expoBody_of_not_finite (h : isfinite32 (expoOf s.avg s.act.ls) = false) :
    expoBody s = .raised .numeric { s with status := flagsExpStart s.status } :=
  (expoBody_of_ready hready havg).trans (if_pos h)

theorem expoBody_of_finite (h : isfinite32 (expoOf s.avg s.act.ls) = true) :
    expoBody s = .ok { s with exp := expoOf s.avg s.act.ls, status := flagsExpDone (flagsExpStart s.status) } :=
  (expoBody_of_ready hready havg).trans (if_neg (by simp [h]))

theorem exec_expo_of_not_finite (herr : s.err = 0#8) (h : isfinite32 (expoOf s.avg s.act.ls) = false) :
    exec .expo s = .next (failed 9#8 { s with status := flagsExpStart s.status }) :=
  exec_failed_from (c := .numeric) herr herr (expoBody_of_not_finite (s := accept s) hready havg h)

theorem exec_expo_of_finite (herr : s.err = 0#8) (h : isfinite32 (expoOf s.avg s.act.ls) = true) :
    exec .expo s =
      .next (completed { s with exp := expoOf s.avg s.act.ls, status := flagsExpDone (flagsExpStart s.status) }) :=
  exec_completed herr (expoBody_of_finite (s := accept s) hready havg h)

end Ready

/-- The exponent of an average in `[0, 1]`, as the host compares it, is finite for every finite scaling (R159). -/
theorem isfinite32_expoOf_of_unit {avg ls : Word}
    (havg : le32 0x00000000#32 avg = true ∧ le32 avg 0x3F800000#32 = true) (hls : isfinite32 ls = true) :
    isfinite32 (expoOf avg ls) = true := by
  rcases unit_iff.1 havg with ⟨m, hm, h⟩ | h
  · exact expoOf_finite h hm hls
  · exact expoOf_finite h (Nat.zero_le _) hls

/-- Settles O31: the rule of `EXPO` on the accepted state, which has the flags, the average and the scaling of the state
before. On the integer path the average lies in `[0, 1]` and the scaling is finite, so the exponent is finite. -/
theorem expoDerivesTheExponent : Obligations.ExpoDerivesTheExponent := by
  unfold Obligations.ExpoDerivesTheExponent
  refine ⟨by decide, fun s herr => ⟨fun hready => ?_, fun hready havg hnf => ?_, fun hready havg hfin => ?_,
    fun hfilter hunit hready havg hint => ?_⟩⟩
  · exact exec_failed (i := .expo) (c := .notReady) herr (expoBody_of_not_ready (s := accept s) hready)
  · exact exec_expo_of_not_finite hready havg herr hnf
  · exact exec_expo_of_finite hready havg herr hfin
  · have hfin : isfinite32 (expoOf s.avg s.act.ls) = true :=
      isfinite32_expoOf_of_unit (hunit havg hint) (hfilter.scaling hready)
    exact ⟨_, exec_expo_of_finite hready havg herr hfin, herr, rfl, hfin⟩

end Sys2Proof.Machine
end

section
/-! PROOFS. What `PIXEL` does on an integer sample (R170, R174): the readiness test, the sample test, then the value of
the fade ladder, the sample being its own baseline. -/

namespace Sys2Proof.Machine

open Sys2Proof.Safety

theorem pixelBody_of_not_ready {s : State} (h : s.status.ready = false ∨ s.status.expValid = false) :
    pixelBody s = .raised .notReady s := if_pos h

section Ready
variable {s : State} (hready : s.status.ready = true) (hexp : s.status.expValid = true)
include hready hexp

theorem pixelBody_of_ready :
    pixelBody s = if sampleValid s s.arg = false then .raised .sample s
      else .ok { s with result := remappedValue s s.arg } :=
  if_neg (by simp [hready, hexp])

theorem pixelBody_of_not_sampleValid (h : sampleValid s s.arg = false) : pixelBody s = .raised .sample s :=
  (pixelBody_of_ready hready hexp).trans (if_pos h)

theorem pixelBody_of_sampleValid (h : sampleValid s s.arg = true) :
    pixelBody s = .ok { s with result := remappedValue s s.arg } :=
  (pixelBody_of_ready hready hexp).trans (if_neg (by simp [h]))

end Ready

section Integer
variable {s : State} (hint : s.act.flt = false)
include hint

theorem sampleValid_of_int (c : Word) : sampleValid s c = decide (c.toNat ≤ s.desc.peak.toNat) := by
  rw [sampleValid, hint]
  exact if_neg Bool.false_ne_true

theorem remapCell_of_int (c : Word) : remapCell s c = remapInt s c.toNat := by
  rw [remapCell, hint]
  exact if_neg Bool.false_ne_true

/-- The fade ladder as one value: where it keeps the baseline, that is the sample (R170). -/
theorem remappedValue_of_int (c : Word) :
    remappedValue s c =
      if s.act.fade = true ∧ c.toNat ≤ s.desc.ymin.toNat then c
      else if s.act.fade = true ∧ c.toNat ≤ s.desc.y1.toNat then s.desc.d0.setWidth 32
      else if s.act.fade = true ∧ c.toNat ≤ s.desc.y2.toNat then s.desc.d1.setWidth 32
      else if s.act.fade = true ∧ s.desc.ymax.toNat ≤ c.toNat then 0#32
      else BitVec.ofNat 32 (quant (curve (tableRead s c.toNat) s.exp) s.desc.peak.toNat) := by
  unfold remappedValue
  rw [remapCell_of_int hint, remapInt]
  cases s.act.fade with
  | false => simp [curveInt]
  | true =>
    simp only [true_and, if_true]
    split_ifs <;> rfl

end Integer

/-- Settles O34: the rule of `PIXEL` on the accepted state, which has the flags, the active format, the descriptor, the
table, the exponent and the operand of the state before. -/
theorem pixelFollowsTheFadeLadder : Obligations.PixelFollowsTheFadeLadder := by
  unfold Obligations.PixelFollowsTheFadeLadder
  refine fun s herr hint => ⟨fun hready => ?_, fun hready hexp hlt => ?_, fun hready hexp hle v hv => ?_⟩
  · exact exec_failed (i := .pixel) (c := .notReady) herr (pixelBody_of_not_ready (s := accept s) hready)
  · have hbad : sampleValid s s.arg = false := by simp [sampleValid_of_int hint, hlt]
    exact exec_failed (i := .pixel) (c := .sample) herr
      (pixelBody_of_not_sampleValid (s := accept s) hready hexp hbad)
  · have hgood : sampleValid s s.arg = true := by simp [sampleValid_of_int hint, hle]
    dsimp only
    rw [← tableRead_of_getElem? hv, ← remappedValue_of_int hint]
    exact exec_completed herr (pixelBody_of_sampleValid (s := accept s) hready hexp hgood)

end Sys2Proof.Machine
end

section
/-! PROOFS. The float output clamp (R173). The patterns that are no NaN are ordered by their keys, and the order is total:
a pattern that is not below a bound is at or above it. -/

namespace Sys2Proof.Machine

theorem isnan32_eq_false_iff {w : Word} : isnan32 w = false ↔ ∃ k, fpKey binary32 (fp32 w) = some k := by
  unfold isnan32
  cases fp32 w <;> simp [fpKey]

theorem cmp32_iff {rel : Int → Int → Bool} {a b : Word} :
    cmp32 rel a b = true ↔
      ∃ x y, fpKey binary32 (fp32 a) = some x ∧ fpKey binary32 (fp32 b) = some y ∧ rel x y = true := by
  unfold cmp32
  cases fpKey binary32 (fp32 a) <;> cases fpKey binary32 (fp32 b) <;> simp

theorem lt32_trans {a b c : Word} (hab : lt32 a b = true) (hbc : lt32 b c = true) : lt32 a c = true := by
  obtain ⟨x, y, hx, hy, hxy⟩ := cmp32_iff.1 hab
  obtain ⟨y', z, hy', hz, hyz⟩ := cmp32_iff.1 hbc
  obtain rfl : y = y' := Option.some.inj (hy.symm.trans hy')
  exact cmp32_iff.2 ⟨x, z, hx, hz, decide_eq_true ((of_decide_eq_true hxy).trans (of_decide_eq_true hyz))⟩

theorem le32_of_not_lt32 {a b : Word} (ha : isnan32 a = false) (hb : isnan32 b = false) (h : lt32 b a = false) :
    le32 a b = true := by
  obtain ⟨x, hx⟩ := isnan32_eq_false_iff.1 ha
  obtain ⟨y, hy⟩ := isnan32_eq_false_iff.1 hb
  have hyx : ¬ y < x := fun hlt =>
    Bool.false_ne_true (h.symm.trans (cmp32_iff.2 ⟨y, x, hy, hx, decide_eq_true hlt⟩))
  exact cmp32_iff.2 ⟨x, y, hx, hy, decide_eq_true (not_lt.1 hyx)⟩

/-- No pattern is both above 1.0 and below 0.0, so the order of the two tests does not matter. -/
theorem not_lt32_zero_of_gt32_one {p : Word} (h : gt32 p f32One = true) : lt32 p f32Zero = false :=
  Bool.eq_false_of_not_eq_true fun hlow => absurd (lt32_trans h hlow) (by decide +kernel)

theorem clamp01_of_negative {p : Word} (h : lt32 p f32Zero = true) : clamp01 p = f32Zero := if_pos h

theorem clamp01_of_not_negative {p : Word} (h : lt32 p f32Zero = false) :
    clamp01 p = if gt32 p f32One then f32One else p :=
  if_neg (ne_true_of_eq_false h)

theorem clamp01_of_gt_one {p : Word} (h : gt32 p f32One = true) : clamp01 p = f32One :=
  (clamp01_of_not_negative (not_lt32_zero_of_gt32_one h)).trans (if_pos h)

theorem clamp01_of_within {p : Word} (hlow : lt32 p f32Zero = false) (hhigh : gt32 p f32One = false) : clamp01 p = p :=
  (clamp01_of_not_negative hlow).trans (if_neg (ne_true_of_eq_false hhigh))

/-- What the clamp gives lies between 0.0 and 1.0 unless it is given a NaN. -/
theorem clamp01_mem_unit {p : Word} (hp : isnan32 p = false) :
    le32 f32Zero (clamp01 p) = true ∧ le32 (clamp01 p) f32One = true := by
  cases hlow : lt32 p f32Zero with
  | true =>
    rw [clamp01_of_negative hlow]
    decide +kernel
  | false =>
    cases hhigh : gt32 p f32One with
    | true =>
      rw [clamp01_of_gt_one hhigh]
      decide +kernel
    | false =>
      rw [clamp01_of_within hlow hhigh]
      exact ⟨le32_of_not_lt32 (by decide) hp hlow, le32_of_not_lt32 hp (by decide) hhigh⟩

/-- Settles O37: the three ends of the clamp, which exclude each other, and the range of what they give. -/
theorem outputClampStaysInUnitRange : Obligations.OutputClampStaysInUnitRange := by
  unfold Obligations.OutputClampStaysInUnitRange
  exact fun _ => ⟨clamp01_of_negative, clamp01_of_gt_one, clamp01_of_within, clamp01_mem_unit⟩

end Sys2Proof.Machine
end

section
/-! PROOFS. What a pending error does to a command (R203): all but the three exempt commands are rejected, `NOP` has an
empty rule, and the error entry of an illegal word keeps a code that is already there. -/

namespace Sys2Proof.Machine

open Sys2Proof.Safety

theorem exemptFromError_iff {i : Instr} : exemptFromError i = true ↔ i = .nop ∨ i = .clrerr ∨ i = .sreset := by
  cases i <;> decide

theorem exec_of_pending {i : Instr} {s : State} (hclrerr : i ≠ .clrerr) (hsreset : i ≠ .sreset) (herr : s.err ≠ 0#8) :
    exec i s = .next (completed s) := by
  rw [← complete_accept_eq_completed]
  by_cases hnop : i = .nop
  · rw [hnop, exec_nop]
  · have hnotExempt : exemptFromError i = false :=
      Bool.eq_false_of_not_eq_true (by simp [exemptFromError_iff, hnop, hclrerr, hsreset])
    exact exec_rejected hnotExempt herr

theorem illegalCommand_err_of_pending {s : State} (herr : s.err ≠ 0#8) : (illegalCommand s).err = s.err := by
  rw [illegalCommand_eq_failed]
  exact if_neg herr

/-- Settles O6: with a code pending a command only completes, and an illegal word keeps the code. -/
theorem firstErrorSticks : Obligations.FirstErrorSticks := by
  unfold Obligations.FirstErrorSticks
  refine ⟨fun i s _ hclrerr hsreset herr => exec_of_pending hclrerr hsreset herr, ?_, ?_⟩
  · intro i s t hclrerr hsreset herr hexec
    obtain rfl : completed s = t := Host.Outcome.next.inj ((exec_of_pending hclrerr hsreset herr).symm.trans hexec)
    rfl
  · intro w s t hillegal herr hrun
    obtain rfl : illegalCommand s = t := Host.Outcome.next.inj ((runWord_of_ne_encode hillegal s).symm.trans hrun)
    exact illegalCommand_err_of_pending herr

end Sys2Proof.Machine
end

section
/-! PROOFS. The interrupt output (R208): a command that ends sets `DONE` whatever its end, and only `SRESET` touches the
enables. -/

namespace Sys2Proof.Machine

theorem irq_eq_true_iff (s : State) :
    irq s = true ↔
      (s.irqEn.ieDone = true ∧ s.status.done = true) ∨ (s.irqEn.ieErr = true ∧ s.status.error = true) := by
  simp only [irq, Bool.or_eq_true, Bool.and_eq_true]

theorem exec_done {i : Instr} {s t : State} (h : exec i s = .next t) : t.status.done = true := by
  rcases exec_next h with ⟨-, -, rfl⟩ | ⟨-, ⟨u, -, rfl⟩ | ⟨c, u, -, rfl⟩⟩ <;> exact flagsComplete_done _

/-- Settles O60: after a command the first disjunct of the output holds, `DONE` being set and `IE_DONE` kept. -/
theorem irqFollowsStatus : Obligations.IrqFollowsStatus := by
  unfold Obligations.IrqFollowsStatus
  refine ⟨irq_eq_true_iff, rfl, fun i s t hi henabled hexec => (irq_eq_true_iff t).2 (.inl ⟨?_, exec_done hexec⟩)⟩
  rw [(exec_keeps hi hexec).irqEn, henabled]

end Sys2Proof.Machine
end

section
/-! PROOFS. The plane memories stay in canonical form (log entry 6): every change of a plane is a list of cell writes or
one byte write. -/

namespace Sys2Proof.Safety

open Sys2Proof.Machine

theorem MemoriesCanonical.congr {s t : State} (h : MemoriesCanonical s) (hsrc : t.src = s.src) (hdst : t.dst = s.dst) :
    MemoriesCanonical t :=
  ⟨hsrc ▸ h.1, hdst ▸ h.2⟩

theorem MemoriesCanonical.writeCells {s t : State} (h : MemoriesCanonical s) (n : Nat) (l : List (Nat × Word))
    (hsrc : t.src = s.src) (hdst : t.dst = Plane.writeCells s.dst n l) : MemoriesCanonical t :=
  ⟨hsrc ▸ h.1, hdst ▸ Plane.writeCells_wf h.2 n l⟩

theorem MemoriesCanonical.scrambleRegion {s : State} (h : MemoriesCanonical s) : MemoriesCanonical (scrambleRegion s) :=
  h.writeCells _ _ rfl rfl

theorem MemoriesCanonical.pokeByte {s : State} (h : MemoriesCanonical s) (p : PlaneId) (a : Nat) (b : Byte) :
    MemoriesCanonical (pokeByte p a b s) := by
  cases p with
  | src => exact ⟨Plane.writeByte_wf h.1 a b, h.2⟩
  | dst => exact ⟨h.1, Plane.writeByte_wf h.2 a b⟩

theorem writeRegister_src (r : Reg) (v : Word) (s : State) : (writeRegister r v s).src = s.src := by cases r <;> rfl

theorem writeRegister_dst (r : Reg) (v : Word) (s : State) : (writeRegister r v s).dst = s.dst := by cases r <;> rfl

theorem bodyOf_reaches_memoriesCanonical (i : Instr) {s : State} (h : MemoriesCanonical s) :
    reaches MemoriesCanonical (bodyOf i s) := by
  have hcopied : MemoriesCanonical (copyPlane { s with status := flagsXformStart s.status }) :=
    h.writeCells _ _ rfl rfl
  apply reaches_bodyOf
  case nop => exact fun _ => h
  case init => exact fun _ => ⟨h, fun _ => h⟩
  case clrerr => exact fun _ => h
  case sreset => exact fun _ => h
  case probe => exact fun _ => ⟨h, fun _ _ => h⟩
  case notReady => exact h
  case avg => exact fun _ _ => ⟨h, h, h⟩
  case expo => exact fun _ _ _ => ⟨h, fun _ => h⟩
  case plane => exact fun _ _ => ⟨h, h.writeCells _ _ rfl rfl, fun _ _ => h.writeCells _ _ rfl rfl⟩
  case xform =>
    exact fun _ _ => ⟨h, hcopied.scrambleRegion, hcopied.writeCells _ _ rfl rfl, hcopied.writeCells _ _ rfl rfl,
      fun _ => hcopied.writeCells _ _ rfl rfl⟩

theorem exec_memoriesCanonical {i : Instr} {s t : State} (h : MemoriesCanonical s) (he : exec i s = .next t) :
    MemoriesCanonical t :=
  exec_reaches (P := MemoriesCanonical) he (h.congr rfl rfl)
    (bodyOf_reaches_memoriesCanonical i (h.congr rfl rfl)) (fun _ h => h) (fun _ _ h => h)

theorem hardwareReset_memoriesCanonical {s : State} (h : MemoriesCanonical s) : MemoriesCanonical (hardwareReset s) := by
  unfold hardwareReset
  cases writingRegion s with
  | false => exact h
  | true => exact h.scrambleRegion.congr rfl rfl

/-- Settles O50: every event leaves the planes alone or changes them by writes that keep the canonical form. -/
theorem stepKeepsMemoriesCanonical : Obligations.StepKeepsMemoriesCanonical := by
  unfold Obligations.StepKeepsMemoriesCanonical
  refine fun s t => step_keeps (fun _ _ h => h) fun s t h hev => ?_
  cases hev with
  | same | zeroRead | issued | moved | peeked => exact h
  | regRead r =>
    obtain ⟨v, hread⟩ := readRegister_eq r s
    rw [hread]
    exact h
  | regWrite r v => exact h.congr (writeRegister_src r v s) (writeRegister_dst r v s)
  | command i t he => exact exec_memoriesCanonical h he
  | illegal => exact h.congr rfl rfl
  | resetInput => exact hardwareReset_memoriesCanonical h
  | poked p a b => exact h.pokeByte p a b

end Sys2Proof.Safety
end

section
/-! PROOFS. The induction principle for invariants of the block's own state. The host's accesses, an accepted command
and a move of the sequencer leave all of it alone but `BUSY` and `DONE`, so such an invariant has to look at the rules of
the commands, the error entry and the reset only. -/

namespace Sys2Proof.Machine

open Sys2Proof.Safety

/-- Two states agree in the filter, the error state, the datapath registers an invariant speaks of, and the flags apart
from `BUSY` and `DONE`. -/
structure SameBlock (s t : State) : Prop where
  ready      : t.status.ready = s.status.ready
  tblValid   : t.status.tblValid = s.status.tblValid
  avgValid   : t.status.avgValid = s.status.avgValid
  expValid   : t.status.expValid = s.status.expValid
  frameValid : t.status.frameValid = s.status.frameValid
  error      : t.status.error = s.status.error
  err        : t.err = s.err
  act        : t.act = s.act
  desc       : t.desc = s.desc
  table      : t.table = s.table
  avg        : t.avg = s.avg
  exp        : t.exp = s.exp
  params     : t.params = s.params

theorem SameBlock.refl (s : State) : SameBlock s s := by constructor <;> rfl

theorem sameBlock_accept (s : State) : SameBlock s (accept s) := by constructor <;> rfl

theorem sameBlock_complete (s : State) : SameBlock s (complete s) := by constructor <;> rfl

theorem sameBlock_readRegister (r : Reg) (s : State) : SameBlock s (readRegister r s) := by
  obtain ⟨v, h⟩ := readRegister_eq r s
  rw [h]
  constructor <;> rfl

theorem sameBlock_writeRegister (r : Reg) (v : Word) (s : State) : SameBlock s (writeRegister r v s) := by
  cases r <;> constructor <;> rfl

theorem sameBlock_pokeByte (p : PlaneId) (a : Nat) (b : Byte) (s : State) : SameBlock s (pokeByte p a b s) := by
  cases p <;> constructor <;> rfl

/-- An event inverted for an invariant of the block's own state. -/
theorem EventStep.block_cases {s t : State} (h : EventStep s t) :
    SameBlock s t ∨ (∃ i, exec i s = .next t) ∨ t = illegalCommand s ∨ t = hardwareReset s := by
  cases h with
  | same => exact .inl (.refl s)
  | zeroRead | issued | moved | peeked => exact .inl (by constructor <;> rfl)
  | regRead r => exact .inl (sameBlock_readRegister r s)
  | regWrite r v => exact .inl (sameBlock_writeRegister r v s)
  | poked p a b => exact .inl (sameBlock_pokeByte p a b s)
  | command i t he => exact .inr (.inl ⟨i, he⟩)
  | illegal => exact .inr (.inr (.inl rfl))
  | resetInput => exact .inr (.inr (.inr rfl))

section Invariant
variable {P : State → Prop} (hsame : ∀ {s t}, SameBlock s t → P s → P t)
  (hbody : ∀ i {s}, P s → reaches P (bodyOf i s)) (hraise : ∀ c {s}, P s → P (raiseError c s))
  (hreset : ∀ s, P (hardwareReset s))
include hsame hbody hraise

theorem exec_keeps_invariant {i : Instr} {s t : State} (hs : P s) (he : exec i s = .next t) : P t :=
  have hacc : P (accept s) := hsame (sameBlock_accept s) hs
  exec_reaches he hacc (hbody i hacc) (fun u => hsame (sameBlock_complete u)) fun c _ => hraise c

include hreset

theorem step_keeps_invariant {s t : State} (hs : P s) (h : step s = .next t) : P t := by
  refine step_keeps (P := P) (fun _ _ => hsame (by constructor <;> rfl)) (fun s t hs hev => ?_) hs h
  rcases hev.block_cases with hst | ⟨i, he⟩ | rfl | rfl
  · exact hsame hst hs
  · exact exec_keeps_invariant hsame hbody hraise hs he
  · exact hraise _ (hsame (sameBlock_accept s) hs)
  · exact hreset s

end Invariant

/-- The hardware reset, whatever it abandons: the reset values, and of the rest only `D` and the draws may change. -/
theorem hardwareReset_eq (s : State) :
    hardwareReset s = { State.reset with
      src := s.src, dst := (hardwareReset s).dst, inbox := s.inbox, rdata := s.rdata, params := s.params
      draws := (hardwareReset s).draws } := by
  unfold hardwareReset
  cases writingRegion s <;> rfl

end Sys2Proof.Machine
end

section
/-! PROOFS. `STATUS.ERROR` follows `ERR` (R24, R201, R205): the error entry sets both, `CLRERR` and reset clear both, and
nothing else touches either. -/

namespace Sys2Proof.Safety

open Sys2Proof.Machine

theorem errNumber_ne_zero (c : ErrCode) : errNumber c ≠ 0#8 := by cases c <;> decide

theorem errNumber_le_nine (c : ErrCode) : (errNumber c).toNat ≤ 9 := by cases c <;> decide

theorem ErrorFlagTracksCode.congr {s t : State} (h : ErrorFlagTracksCode s) (hflag : t.status.error = s.status.error)
    (hcode : t.err = s.err) : ErrorFlagTracksCode t := by
  unfold ErrorFlagTracksCode
  rw [hflag, hcode]
  exact h

theorem errorFlagTracksCode_of_clear {s : State} (hflag : s.status.error = false) (hcode : s.err = 0#8) :
    ErrorFlagTracksCode s := by
  simp [ErrorFlagTracksCode, hflag, hcode]

theorem ErrorFlagTracksCode.raiseError {s : State} (c : ErrCode) (h : ErrorFlagTracksCode s) :
    ErrorFlagTracksCode (raiseError c s) := by
  unfold ErrorFlagTracksCode
  rw [raiseError_err]
  split_ifs with h0
  · exact ⟨iff_of_true rfl (errNumber_ne_zero c), errNumber_le_nine c⟩
  · exact ⟨iff_of_true rfl h0, h.2⟩

theorem bodyOf_reaches_errorFlagTracksCode (i : Instr) {s : State} (h : ErrorFlagTracksCode s) :
    reaches ErrorFlagTracksCode (bodyOf i s) := by
  apply reaches_bodyOf
  case nop => exact fun _ => h
  case init => exact fun _ => ⟨h, fun _ => h⟩
  case clrerr => exact fun _ => errorFlagTracksCode_of_clear rfl rfl
  case sreset => exact fun _ => errorFlagTracksCode_of_clear rfl rfl
  case probe => exact fun _ => ⟨h, fun _ _ => h⟩
  case notReady => exact h
  case avg => exact fun _ _ => ⟨h, h, h⟩
  case expo => exact fun _ _ _ => ⟨h, fun _ => h⟩
  case plane => exact fun _ _ => ⟨h, h, fun _ _ => h⟩
  case xform => exact fun _ _ => ⟨h, h, h, h, fun _ => h⟩

/-- Settles O51: the error entry sets the flag and a code the spec gives, and leaving the error clears both. -/
theorem stepKeepsErrorFlag : Obligations.StepKeepsErrorFlag := by
  unfold Obligations.StepKeepsErrorFlag
  refine fun s t => step_keeps_invariant (fun hst h => h.congr hst.error hst.err)
    bodyOf_reaches_errorFlagTracksCode (fun c _ h => h.raiseError c) fun s => ?_
  rw [hardwareReset_eq]
  exact errorFlagTracksCode_of_clear rfl rfl

end Sys2Proof.Safety
end

section
/-! PROOFS. The constructed filter stays consistent (R24, R41, R43, R44): `INIT` constructs it as a whole or clears all of
it, and what the other commands change of it are the flags that may stand once a filter is ready. -/

namespace Sys2Proof.Safety

open Sys2Proof.Machine

theorem FilterConsistent.congr {s t : State} (h : FilterConsistent s) (hst : SameBlock s t) : FilterConsistent t := by
  obtain ⟨hready, htbl, havg, hexp, hframe, -, -, hact, hdesc, htable, -, -, hparams⟩ := hst
  constructor <;> rw [hready]
  · rw [hact, hdesc, htable, htbl, havg, hexp, hframe]
    exact h.cleared
  · rw [hact, hdesc, htable, htbl, hparams]
    exact h.integer
  · rw [hact, hdesc, htable, htbl]
    exact h.float
  · rw [hact]
    exact h.scaling

/-- A ready filter stays consistent when only `AVG_VALID`, `EXP_VALID` and `FRAME_VALID` change. -/
theorem FilterConsistent.of_ready {s t : State} (h : FilterConsistent s) (hs : s.status.ready = true)
    (hready : t.status.ready = s.status.ready) (htbl : t.status.tblValid = s.status.tblValid) (hact : t.act = s.act)
    (hdesc : t.desc = s.desc) (htable : t.table = s.table) (hparams : t.params = s.params) : FilterConsistent t := by
  constructor <;> rw [hready]
  · exact fun hn => absurd (hs.symm.trans hn) (by decide)
  · rw [hact, hdesc, htable, htbl, hparams]
    exact h.integer
  · rw [hact, hdesc, htable, htbl]
    exact h.float
  · rw [hact]
    exact h.scaling

/-- The filter that `INIT` and reset leave when there is none. -/
theorem filterConsistent_of_cleared {s : State} (hready : s.status.ready = false) (hact : s.act = ActiveConfig.none)
    (hdesc : s.desc = Descriptor.none) (htable : s.table = []) (htbl : s.status.tblValid = false)
    (havg : s.status.avgValid = false) (hexp : s.status.expValid = false) (hframe : s.status.frameValid = false) :
    FilterConsistent s where
  cleared _ := ⟨hact, hdesc, htable, htbl, havg, hexp, hframe⟩
  integer h := absurd (h.symm.trans hready) (by decide)
  float h := absurd (h.symm.trans hready) (by decide)
  scaling h := absurd (h.symm.trans hready) (by decide)

theorem filterConsistent_unconstruct (s : State) : FilterConsistent (unconstruct s) :=
  filterConsistent_of_cleared rfl rfl rfl rfl rfl rfl rfl rfl

/-- What a request has that passes all tests of `INIT` (R112). -/
theorem requestError_eq_none_iff {r : Request} :
    requestError r = none ↔
      r.format.family = 0#2 ∧ (r.format.flt = false → integerDepth r.format.bits = true) ∧
        (r.format.flt = true → r.format.bits = 32#6) ∧ isfinite32 r.ls = true := by
  unfold requestError
  split_ifs with h1 h2 h3 h4 <;> simp_all

theorem filterConsistent_construct {s : State} (h : requestError s.req = none) :
    FilterConsistent (construct (unconstruct s)) := by
  obtain ⟨-, hint, hflt, hls⟩ := requestError_eq_none_iff.1 h
  constructor
  · exact fun (hn : true = false) => nomatch hn
  · intro _ (hf : s.req.format.flt = false)
    simp [construct, unconstruct, hf, hint hf]
  · intro _ (hf : s.req.format.flt = true)
    simp [construct, unconstruct, hf, hflt hf]
  · exact fun _ => hls

theorem bodyOf_reaches_filterConsistent (i : Instr) {s : State} (h : FilterConsistent s) :
    reaches FilterConsistent (bodyOf i s) := by
  have hr : ∀ {t : State}, s.status.ready = true → t.status.ready = s.status.ready →
      t.status.tblValid = s.status.tblValid → t.act = s.act → t.desc = s.desc → t.table = s.table →
      t.params = s.params → FilterConsistent t := h.of_ready
  apply reaches_bodyOf
  case nop => exact fun _ => h
  case init => exact fun _ => ⟨filterConsistent_unconstruct s, filterConsistent_construct⟩
  case clrerr => exact fun _ => ⟨h.cleared, h.integer, h.float, h.scaling⟩
  case sreset => exact fun _ => filterConsistent_of_cleared rfl rfl rfl rfl rfl rfl rfl rfl
  case probe => exact fun _ => ⟨h, fun _ _ => ⟨h.cleared, h.integer, h.float, h.scaling⟩⟩
  case notReady => exact h
  case avg =>
    exact fun _ hs => ⟨hr hs rfl rfl rfl rfl rfl rfl, hr hs rfl rfl rfl rfl rfl rfl, hr hs rfl rfl rfl rfl rfl rfl⟩
  case expo => exact fun _ hs _ => ⟨hr hs rfl rfl rfl rfl rfl rfl, fun _ => hr hs rfl rfl rfl rfl rfl rfl⟩
  case plane =>
    exact fun _ hs =>
      ⟨hr hs rfl rfl rfl rfl rfl rfl, hr hs rfl rfl rfl rfl rfl rfl, fun _ _ => hr hs rfl rfl rfl rfl rfl rfl⟩
  case xform =>
    exact fun _ hs =>
      ⟨hr hs rfl rfl rfl rfl rfl rfl, hr hs rfl rfl rfl rfl rfl rfl, hr hs rfl rfl rfl rfl rfl rfl,
        hr hs rfl rfl rfl rfl rfl rfl, fun _ => hr hs rfl rfl rfl rfl rfl rfl⟩

theorem FilterConsistent.raiseError {s : State} (c : ErrCode) (h : FilterConsistent s) :
    FilterConsistent (raiseError c s) :=
  ⟨h.cleared, h.integer, h.float, h.scaling⟩

theorem hardwareReset_filterConsistent (s : State) : FilterConsistent (hardwareReset s) := by
  rw [hardwareReset_eq]
  exact filterConsistent_of_cleared rfl rfl rfl rfl rfl rfl rfl rfl

theorem step_keeps_filterConsistent {s t : State} (hs : FilterConsistent s) (h : step s = .next t) :
    FilterConsistent t :=
  step_keeps_invariant (fun hst h => h.congr hst) bodyOf_reaches_filterConsistent (fun c _ h => h.raiseError c)
    hardwareReset_filterConsistent hs h

theorem eventStep_params {s t : State} (h : EventStep s t) : t.params = s.params := by
  rcases h.block_cases with hst | ⟨i, he⟩ | rfl | rfl
  · exact hst.params
  · exact exec_params he
  · rfl
  · rw [hardwareReset_eq]

/-- Settles O52: `INIT` and reset leave a consistent filter or none, every other event keeps what is there, and no event
has an arm that writes the parameters. -/
theorem stepKeepsFilterConsistent : Obligations.StepKeepsFilterConsistent := by
  unfold Obligations.StepKeepsFilterConsistent
  refine ⟨fun s t => step_keeps_filterConsistent, fun s t h => ?_⟩
  rcases step_next h with rfl | ⟨op, rest, -, hev⟩
  · rfl
  · exact (eventStep_params hev :)

end Sys2Proof.Safety
end

section
/-! PROOFS. The exponent and the integer average (R24, R151, R159): the commands that write them set the flags, and every
other command that touches the flags clears them. -/

namespace Sys2Proof.Safety

open Sys2Proof.Machine

theorem ExponentSound.congr {s t : State} (h : ExponentSound s) (hst : SameBlock s t) : ExponentSound t := by
  unfold ExponentSound
  rw [hst.expValid, hst.avgValid, hst.exp]
  exact h

theorem exponentSound_of_clear {s : State} (h : s.status.expValid = false) : ExponentSound s :=
  fun hn => absurd (h.symm.trans hn) (by decide)

theorem bodyOf_reaches_exponentSound (i : Instr) {s : State} (h : ExponentSound s) :
    reaches ExponentSound (bodyOf i s) := by
  apply reaches_bodyOf
  case nop => exact fun _ => h
  case init => exact fun _ => ⟨exponentSound_of_clear rfl, fun _ => exponentSound_of_clear rfl⟩
  case clrerr => exact fun _ => h
  case sreset => exact fun _ => exponentSound_of_clear rfl
  case probe => exact fun _ => ⟨h, fun _ _ => h⟩
  case notReady => exact h
  case avg => exact fun _ _ => ⟨exponentSound_of_clear rfl, exponentSound_of_clear rfl, exponentSound_of_clear rfl⟩
  case expo => exact fun _ _ havg => ⟨exponentSound_of_clear rfl, fun hfin _ => ⟨havg, hfin⟩⟩
  case plane => exact fun _ _ => ⟨h, h, fun _ _ => h⟩
  case xform =>
    exact fun _ _ => ⟨exponentSound_of_clear rfl, exponentSound_of_clear rfl, exponentSound_of_clear rfl,
      exponentSound_of_clear rfl, fun hfin _ => ⟨rfl, hfin⟩⟩

theorem hardwareReset_exponentSound (s : State) : ExponentSound (hardwareReset s) := by
  rw [hardwareReset_eq]
  exact exponentSound_of_clear rfl

theorem step_keeps_exponentSound {s t : State} (hs : ExponentSound s) (h : step s = .next t) : ExponentSound t :=
  step_keeps_invariant (fun hst h => h.congr hst) bodyOf_reaches_exponentSound (fun _ _ h => h)
    hardwareReset_exponentSound hs h

theorem IntegerAverageInUnit.congr {s t : State} (h : IntegerAverageInUnit s) (hvalid : t.status.avgValid = s.status.avgValid)
    (hact : t.act = s.act) (havg : t.avg = s.avg) : IntegerAverageInUnit t := by
  unfold IntegerAverageInUnit
  rw [hvalid, hact, havg]
  exact h

theorem integerAverageInUnit_of_clear {s : State} (h : s.status.avgValid = false) : IntegerAverageInUnit s :=
  fun hn => absurd (h.symm.trans hn) (by decide)

/-- A consistent integer filter has a peak, so the average of its valid samples lies in `[0, 1]` (R151). -/
theorem FilterConsistent.averageOf_unit {s : State} {d : Bool} (h : FilterConsistent s) (hready : s.status.ready = true)
    (hint : s.act.flt = false) (hgeom : geomCheck d s.geom = none) (hvalid : (srcSamples s).all (sampleValid s) = true) :
    le32 0x00000000#32 (averageOf s (regionSum s)) = true ∧ le32 (averageOf s (regionSum s)) 0x3F800000#32 = true := by
  obtain ⟨hdepth, hdesc, -, -⟩ := h.integer hready hint
  have hpeak : 0 < s.desc.peak.toNat := hdesc ▸ descriptorRow_peak_pos hdepth
  exact unit_iff.2 (.inl (Machine.averageOf_unit hint hgeom hpeak hvalid))

/-- The rule of `AVG` leaves no valid average, or the one of a checked region. -/
theorem avgBody_reaches_integerAverageInUnit {s : State} (hf : FilterConsistent s) (h : IntegerAverageInUnit s) :
    reaches IntegerAverageInUnit (avgBody s) := by
  rcases avgBody_cases s with ⟨-, h'⟩ | ⟨c, -, -, h'⟩ | ⟨-, -, -, h'⟩ | ⟨hready, hgeom, -, h'⟩ <;> rw [h']
  · exact h
  · exact integerAverageInUnit_of_clear rfl
  · trivial
  · rcases averagePlane_cases { s with status := flagsAvgStart s.status } with ⟨-, h'⟩ | ⟨-, -, -, h'⟩ | ⟨hv, -, h'⟩ <;>
      rw [h']
    · exact integerAverageInUnit_of_clear rfl
    · exact integerAverageInUnit_of_clear rfl
    · exact fun _ hint => hf.averageOf_unit hready hint hgeom hv

/-- The rule of `XFORM` leaves no valid average, or the one of a checked region. -/
theorem xformBody_reaches_integerAverageInUnit {s : State} (hf : FilterConsistent s) (h : IntegerAverageInUnit s) :
    reaches IntegerAverageInUnit (xformBody s) := by
  rcases xformBody_cases s with ⟨-, h'⟩ | ⟨c, -, -, h'⟩ | ⟨f, -, -, -, h'⟩ | ⟨hready, hgeom, -, -, h'⟩ <;> rw [h']
  · exact h
  · exact integerAverageInUnit_of_clear rfl
  · trivial
  · rcases xformSteps_cases { s with status := flagsXformStart s.status } with ⟨-, h'⟩ | ⟨-, -, -, h'⟩ |
      ⟨hv, -, -, h'⟩ | ⟨hv, -, -, h'⟩ <;> rw [h']
    · exact integerAverageInUnit_of_clear rfl
    · exact integerAverageInUnit_of_clear rfl
    · exact fun _ hint => hf.averageOf_unit hready hint hgeom hv
    · exact fun _ hint => hf.averageOf_unit hready hint hgeom hv

theorem bodyOf_reaches_integerAverageInUnit (i : Instr) {s : State} (hf : FilterConsistent s)
    (h : IntegerAverageInUnit s) : reaches IntegerAverageInUnit (bodyOf i s) := by
  by_cases havg : i = .avg
  · subst havg
    exact avgBody_reaches_integerAverageInUnit hf h
  by_cases hxform : i = .xform
  · subst hxform
    exact xformBody_reaches_integerAverageInUnit hf h
  apply reaches_bodyOf
  case nop => exact fun _ => h
  case init => exact fun _ => ⟨integerAverageInUnit_of_clear rfl, fun _ => integerAverageInUnit_of_clear rfl⟩
  case clrerr => exact fun _ => h
  case sreset => exact fun _ => integerAverageInUnit_of_clear rfl
  case probe => exact fun _ => ⟨h, fun _ _ => h⟩
  case notReady => exact h
  case avg => exact fun hi => absurd hi havg
  case expo => exact fun _ _ _ => ⟨h, fun _ => h⟩
  case plane => exact fun _ _ => ⟨h, h, fun _ _ => h⟩
  case xform => exact fun hi => absurd hi hxform

theorem reaches_and {P Q : State → Prop} {r : CmdResult} (hp : reaches P r) (hq : reaches Q r) :
    reaches (fun s => P s ∧ Q s) r := by
  cases r with
  | ok s => exact ⟨hp, hq⟩
  | raised c s => exact ⟨hp, hq⟩
  | stuck f => trivial

theorem hardwareReset_integerAverageInUnit (s : State) : IntegerAverageInUnit (hardwareReset s) := by
  rw [hardwareReset_eq]
  exact integerAverageInUnit_of_clear rfl

/-- The bound of the integer average rests on the peak of a consistent filter, so the two are kept together. -/
theorem step_keeps_filter_and_average {s t : State} (hs : FilterConsistent s ∧ IntegerAverageInUnit s)
    (h : step s = .next t) : FilterConsistent t ∧ IntegerAverageInUnit t :=
  step_keeps_invariant (P := fun s => FilterConsistent s ∧ IntegerAverageInUnit s)
    (fun hst h => ⟨h.1.congr hst, h.2.congr hst.avgValid hst.act hst.avg⟩)
    (fun i _ h => reaches_and (bodyOf_reaches_filterConsistent i h.1) (bodyOf_reaches_integerAverageInUnit i h.1 h.2))
    (fun c _ h => ⟨h.1.raiseError c, h.2⟩)
    (fun s => ⟨hardwareReset_filterConsistent s, hardwareReset_integerAverageInUnit s⟩) hs h

/-- Settles O53: `EXPO` and `XFORM` set `EXP_VALID` beside a valid average and on a finite exponent only; `AVG` and
`XFORM` set `AVG_VALID` after the sample check only, and valid samples of a consistent filter average to `[0, 1]`. -/
theorem stepKeepsExponentSound : Obligations.StepKeepsExponentSound := by
  unfold Obligations.StepKeepsExponentSound
  exact ⟨fun _ _ => step_keeps_exponentSound,
    fun _ _ hf havg h => (step_keeps_filter_and_average ⟨hf, havg⟩ h).2⟩

end Sys2Proof.Safety
end

section
/-! PROOFS. The sequencer (R46, R110): it holds a command word exactly while `BUSY = 1`, a phase starts at the first
position of a region that is not empty, and every move stays inside it. -/

namespace Sys2Proof.Safety

open Sys2Proof.Machine

/-- Every command ends with `BUSY = 0`, `DONE = 1` and the sequencer idle (R110). -/
theorem exec_ends_idle {i : Instr} {s t : State} (h : exec i s = .next t) :
    t.status.busy = false ∧ t.status.done = true ∧ t.seq = Sequencer.idle := by
  rcases exec_next h with ⟨-, -, rfl⟩ | ⟨-, ⟨u, -, rfl⟩ | ⟨c, u, -, rfl⟩⟩ <;> exact ⟨rfl, rfl, rfl⟩

/-- The two invariants of the sequencer. -/
def SequencerSound (s : State) : Prop := SequencerTracksBusy s ∧ SequencerInRange s

theorem sequencerSound_of_idle {s : State} (hbusy : s.status.busy = false) (hseq : s.seq = Sequencer.idle) :
    SequencerSound s := by
  refine ⟨⟨?_, fun h => absurd (hbusy.symm.trans h) (by decide), fun _ => hseq⟩, fun h => ?_, fun h => ?_⟩
  · rw [hbusy, hseq]
    decide
  · rw [hseq] at h
    rcases h with h | h | h | ⟨h, -⟩ <;> cases h
  · rw [hseq] at h
    cases h

theorem SequencerSound.congr {s t : State} (h : SequencerSound s) (hstatus : t.status = s.status) (hseq : t.seq = s.seq)
    (hgeom : t.geom = s.geom) (hreq : t.req = s.req) (hparams : t.params = s.params) : SequencerSound t := by
  unfold SequencerSound SequencerTracksBusy SequencerInRange running
  rw [hstatus, hseq, hgeom, hreq, hparams]
  exact h

theorem writeRegister_of_not_rw {r : Reg} (h : accessOf r ≠ .rw) (v : Word) (s : State) : writeRegister r v s = s := by
  cases r with
  | irqEn | format | mode | lumaScaling | width | height | srcBase | srcStride | dstBase | dstStride | arg =>
    exact absurd rfl h
  | _ => rfl

theorem writeRegister_status (r : Reg) (v : Word) (s : State) : (writeRegister r v s).status = s.status := by
  cases r <;> rfl

theorem writeRegister_seq (r : Reg) (v : Word) (s : State) : (writeRegister r v s).seq = s.seq := by cases r <;> rfl

theorem SequencerSound.seq_idle {s : State} (h : SequencerSound s) (hbusy : s.status.busy = false) :
    s.seq = Sequencer.idle :=
  h.1.2.2 hbusy

/-- The geometry decides what the sequencer's range is, and no write reaches it while a command runs (R233). -/
theorem SequencerSound.writeRegister {s : State} (h : SequencerSound s) (r : Reg) (v : Word)
    (hallowed : s.status.busy = false ∨ accessOf r ≠ .rw) : SequencerSound (writeRegister r v s) := by
  rcases hallowed with hbusy | hr
  · exact sequencerSound_of_idle ((congrArg Status.busy (writeRegister_status r v s)).trans hbusy)
      ((writeRegister_seq r v s).trans (h.seq_idle hbusy))
  · rw [writeRegister_of_not_rw hr]
    exact h

/-- A command that reaches its plane pass has a region that is not empty (R69). -/
theorem region_pos_of_reachesPlanes {i : Instr} {s : State} (h : reachesPlanes i s = true) :
    0 < regionHeight s.geom ∧ 0 < regionWidth s.geom := by
  have hgeom : ∃ d, geomCheck d s.geom = none := by
    cases i <;> simp [reachesPlanes, Option.isNone_iff_eq_none] at h
    case avg => exact ⟨_, h.2⟩
    case copy => exact ⟨_, h.2⟩
    case remap => exact ⟨_, h.2.2⟩
    case xform => exact ⟨_, h.2⟩
  obtain ⟨d, hgeom⟩ := hgeom
  obtain ⟨hw, hh, -⟩ := geomCheck_none.1 hgeom
  exact ⟨hh, hw⟩

/-- The phases that visit positions. -/
def visitsPositions (p : Phase) : Prop := p = .copy ∨ p = .sum ∨ p = .remap

theorem SequencerInRange.position {s : State} (h : SequencerInRange s)
    (hp : visitsPositions s.seq.phase ∨ (s.seq.phase = .expo ∧ running s = some .xform)) :
    s.seq.row < regionHeight s.geom ∧ s.seq.col < regionWidth s.geom :=
  h.1 (by simpa only [visitsPositions, or_assoc] using hp)

theorem reachesPlanes_of_firstPhase {i : Instr} {s : State} (h : visitsPositions (firstPhase i s)) :
    reachesPlanes i s = true := by
  by_contra hn
  rw [Bool.not_eq_true] at hn
  cases i <;> simp [visitsPositions, firstPhase, hn] at h
  split at h <;> simp at h

theorem eq_expo_of_firstPhase {i : Instr} {s : State} (h : firstPhase i s = .expo) : i = .expo := by
  cases i with
  | expo => rfl
  | init | avg | copy | remap | xform => simp only [firstPhase] at h; split at h <;> cases h
  | _ => cases h

theorem startSequencer_phase {i : Instr} {w : Word} {s : State} {p : Phase} (hp : p ≠ .idle)
    (h : (startSequencer i w s).phase = p) : firstPhase i s = p := by
  unfold startSequencer at h
  dsimp only at h
  split at h
  · exact absurd h.symm hp
  · exact h

theorem running_of_word {s : State} {w : Word} {i : Instr} (hw : s.seq.word = some w) (hd : decode w = .ok i) :
    running s = some i := by
  simp [running, hw, hd]

/-- An accepted command starts at the first position of its region, or at entry 0 of its table. -/
theorem sequencerSound_issued {i : Instr} {w : Word} {s : State} (hd : decode w = .ok i) :
    SequencerSound { accept s with seq := startSequencer i w s } := by
  have hrun : running { accept s with seq := startSequencer i w s } = some i := running_of_word rfl hd
  refine ⟨⟨iff_of_true rfl rfl, fun _ => rfl, fun (hn : true = false) => nomatch hn⟩, fun h => ?_, fun _ => Nat.zero_le _⟩
  rw [hrun] at h
  have hvisits : visitsPositions (firstPhase i s) := by
    rcases h with h | h | h | ⟨h, hx⟩
    · exact .inl (startSequencer_phase (by decide) h)
    · exact .inr (.inl (startSequencer_phase (by decide) h))
    · exact .inr (.inr (startSequencer_phase (by decide) h))
    · have hi := eq_expo_of_firstPhase (startSequencer_phase (by decide) h)
      rw [hi] at hx
      cases hx
  exact region_pos_of_reachesPlanes (reachesPlanes_of_firstPhase hvisits)

theorem nextPosition_in_range {g : Geometry} {row col : Nat} {p : Nat × Nat} (hrow : row < regionHeight g)
    (hcol : col < regionWidth g) (h : nextPosition g row col = some p) :
    p.1 < regionHeight g ∧ p.2 < regionWidth g := by
  unfold nextPosition at h
  split_ifs at h with h1 h2 <;> (injection h with h; subst h)
  · exact ⟨hrow, h1⟩
  · exact ⟨h2, Nat.zero_lt_of_lt hcol⟩

theorem enterPhase_eq_some {q q' : Sequencer} {p : Option Phase} (h : enterPhase q p = some q') :
    ∃ r, p = some r ∧ q' = { q with phase := r, row := 0, col := 0 } := by
  cases p with
  | none => cases h
  | some r => exact ⟨r, rfl, (Option.some.inj h).symm⟩

/-- Only `XFORM` has a second phase, and it builds no table (R177). -/
theorem phaseAfter_eq_some {i : Instr} {p r : Phase} (h : phaseAfter i p = some r) : i = .xform ∧ r ≠ .build := by
  unfold phaseAfter at h
  split_ifs at h with hi
  refine ⟨hi, ?_⟩
  cases p <;> cases h <;> decide

/-- Everything a move of the sequencer can be (R46): the next table entry, the next position, or the first position of
the next phase of `XFORM`. -/
theorem nextSequencer_cases {w : Word} {s : State} {q : Sequencer} (h : nextSequencer w s = some q) :
    (s.seq.phase = .build ∧ s.seq.index < (descriptorRow s.params s.req.format.bits).peak.toNat ∧
        q = { s.seq with index := s.seq.index + 1 }) ∨
      (visitsPositions s.seq.phase ∧ ∃ p, nextPosition s.geom s.seq.row s.seq.col = some p ∧
        q = { s.seq with row := p.1, col := p.2 }) ∨
      ((visitsPositions s.seq.phase ∨ s.seq.phase = .expo) ∧ decode w = .ok .xform ∧
        ∃ r, r ≠ .build ∧ q = { s.seq with phase := r, row := 0, col := 0 }) := by
  unfold nextSequencer at h
  split at h
  · cases h
  next i hd =>
    have hnext : ∀ p, enterPhase s.seq (phaseAfter i p) = some q →
        decode w = .ok .xform ∧ ∃ r, r ≠ .build ∧ q = { s.seq with phase := r, row := 0, col := 0 } := by
      intro p hq
      obtain ⟨r, hr, rfl⟩ := enterPhase_eq_some hq
      obtain ⟨rfl, hb⟩ := phaseAfter_eq_some hr
      exact ⟨hd, r, hb, rfl⟩
    cases hphase : s.seq.phase <;> rw [hphase] at h <;> dsimp only at h
    case idle | probe => cases h
    case build =>
      split_ifs at h with hi
      exact .inl ⟨rfl, hi, (Option.some.inj h).symm⟩
    case expo => exact .inr (.inr ⟨.inr rfl, hnext _ h⟩)
    case copy | sum | remap =>
      split at h
      next p hp => exact .inr (.inl ⟨by simp [visitsPositions], p, hp, (Option.some.inj h).symm⟩)
      next => exact .inr (.inr ⟨.inl (by simp [visitsPositions]), hnext _ h⟩)

/-- A move keeps the command word and the range of the counters. -/
theorem SequencerSound.moved {s : State} {w : Word} {q : Sequencer} (h : SequencerSound s) (hw : s.seq.word = some w)
    (hmove : nextSequencer w s = some q) : SequencerSound { s with seq := q } := by
  obtain ⟨⟨hbusy, hdone, -⟩, hrange⟩ := h
  have hpos := hrange.position
  have hb : s.status.busy = true := hbusy.2 (by rw [hw]; rfl)
  have tracks : q.word = some w → SequencerTracksBusy { s with seq := q } := fun hq =>
    ⟨iff_of_true hb (by rw [hq]; rfl), hdone, fun hn => absurd (hb.symm.trans hn) (by decide)⟩
  rcases nextSequencer_cases hmove with ⟨hphase, hi, rfl⟩ | ⟨hphase, p, hp, rfl⟩ | ⟨hphase, hd, r, hr, rfl⟩
  · refine ⟨tracks hw, fun hn => ?_, fun _ => hi⟩
    dsimp only at hn
    rw [hphase] at hn
    rcases hn with hn | hn | hn | ⟨hn, -⟩ <;> cases hn
  · obtain ⟨hrow, hcol⟩ := hpos (.inl hphase)
    refine ⟨tracks hw, fun _ => nextPosition_in_range hrow hcol hp, fun hn => ?_⟩
    dsimp only at hn
    rw [hn] at hphase
    rcases hphase with hn | hn | hn <;> cases hn
  · obtain ⟨hrow, hcol⟩ := hpos (hphase.imp_right fun hexpo => ⟨hexpo, running_of_word hw hd⟩)
    exact ⟨tracks hw, fun _ => ⟨Nat.zero_lt_of_lt hrow, Nat.zero_lt_of_lt hcol⟩, fun hn => absurd hn hr⟩

/-- Settles O54: between commands the sequencer is idle, a command starts it in range, and every move keeps the range. -/
theorem stepKeepsSequencer : Obligations.StepKeepsSequencer := by
  unfold Obligations.StepKeepsSequencer
  refine fun s t htracks hrange => step_keeps (P := SequencerSound) (fun _ _ h => h.congr rfl rfl rfl rfl rfl)
    (fun s t h hev => ?_) ⟨htracks, hrange⟩
  cases hev with
  | same => exact h
  | zeroRead => exact h.congr rfl rfl rfl rfl rfl
  | regRead r =>
    obtain ⟨v, hread⟩ := readRegister_eq r s
    rw [hread]
    exact h.congr rfl rfl rfl rfl rfl
  | regWrite r v hallowed => exact h.writeRegister r v hallowed
  | command i t he =>
    obtain ⟨hbusy, -, hseq⟩ := exec_ends_idle he
    exact sequencerSound_of_idle hbusy hseq
  | illegal => exact sequencerSound_of_idle rfl rfl
  | issued i w _ hd => exact sequencerSound_issued hd
  | moved w q hw hmove => exact h.moved hw hmove
  | resetInput =>
    rw [hardwareReset_eq]
    exact sequencerSound_of_idle rfl rfl
  | poked p a b => cases p <;> exact h.congr rfl rfl rfl rfl rfl
  | peeked p a => exact h.congr rfl rfl rfl rfl rfl

end Sys2Proof.Safety
end

section
/-! PROOFS. The decoder (R90 to R92): the rows of the opcode map are the words of the twelve commands, so a word that
selects no row is no command's. -/

namespace Sys2Proof.Machine

theorem decode_encode (i : Instr) : decode (encode i) = .ok i := by cases i <;> decide

theorem decodeBytes_encodeBytes (i : Instr) : decodeBytes (encodeBytes i) = .ok (i, []) := by cases i <;> decide

theorem find?_opTable_eq_none {w : Word} (h : ∀ i, w ≠ encode i) : opTable.find? (fun r => r.selects w) = none := by
  rw [List.find?_eq_none]
  intro r hr hselects
  obtain ⟨hmask, hpattern⟩ := opTable_row hr
  exact h r.instr ((eq_pattern_of_selects hmask hselects).trans hpattern)

theorem decode_of_ne_encode {w : Word} (h : ∀ i, w ≠ encode i) :
    decode w = .error (if w.toNat < 256 then .unassignedOpcode else .reservedBits) := by
  unfold decode wordReservedClear
  rw [find?_opTable_eq_none h]
  simp only [decide_eq_true_eq]

/-- Settles O1: each of the words is decoded by evaluation. -/
theorem decodeReadsTheOpcodeMap : Obligations.DecodeReadsTheOpcodeMap := by
  unfold Obligations.DecodeReadsTheOpcodeMap
  decide

/-- Settles O2: by evaluation of each command's word and bytes. -/
theorem decodeEncodeRoundTrip : Obligations.DecodeEncodeRoundTrip := by
  unfold Obligations.DecodeEncodeRoundTrip
  exact fun i _ => ⟨decode_encode i, decodeBytes_encodeBytes i⟩

/-- Settles O3: a row of the opcode map selects the word of its command and no other. -/
theorem everyOtherWordIsRejected : Obligations.EveryOtherWordIsRejected := by
  unfold Obligations.EveryOtherWordIsRejected
  exact ⟨fun _ _ => eq_encode_of_decode_eq_ok, fun _ => decode_of_ne_encode⟩

end Sys2Proof.Machine
end

section
/-! PROOFS. What the commands leave alone, whatever their end (R24, R36, R41, R44, R45, R60, R64, R205). -/

namespace Sys2Proof.Machine

open Sys2Proof.Safety

/-- Settles O7: all three ends of a command, rejection, completion and error entry, complete it. -/
theorem commandsEndIdle : Obligations.CommandsEndIdle := by
  unfold Obligations.CommandsEndIdle
  exact fun _ _ _ => exec_ends_idle

/-- Settles O8: every rule but that of `SRESET` keeps the request registers. -/
theorem commandsKeepRequestRegisters : Obligations.CommandsKeepRequestRegisters := by
  unfold Obligations.CommandsKeepRequestRegisters
  intro i s t hi h
  have hk := exec_keeps hi h
  exact ⟨hk.req, hk.geom, hk.arg, hk.irqEn⟩

theorem exec_src {i : Instr} {s t : State} (h : exec i s = .next t) : t.src = s.src := by
  by_cases hi : i = .sreset
  · subst hi
    obtain rfl := Host.Outcome.next.inj ((exec_sreset s).symm.trans h)
    rfl
  · exact (exec_keeps hi h).src

theorem exec_dst_of_not_plane {i : Instr} {s t : State} (hcopy : i ≠ .copy) (hremap : i ≠ .remap) (hxform : i ≠ .xform)
    (h : exec i s = .next t) : t.dst = s.dst := by
  refine exec_reaches (P := fun u => u.dst = s.dst) h rfl ?_ (fun _ hu => hu) fun _ _ hu => hu
  apply reaches_bodyOf
  case nop | clrerr | sreset => exact fun _ => rfl
  case init => exact fun _ => ⟨rfl, fun _ => rfl⟩
  case probe => exact fun _ => ⟨rfl, fun _ _ => rfl⟩
  case notReady => exact rfl
  case avg => exact fun _ _ => ⟨rfl, rfl, rfl⟩
  case expo => exact fun _ _ _ => ⟨rfl, fun _ => rfl⟩
  case plane => exact fun hi => absurd hi (not_or_intro hcopy hremap)
  case xform => exact fun hi => absurd hi hxform

/-- Settles O9: no arm of a rule writes `S`, and those that write `D` are the three plane commands'. -/
theorem onlyPlaneCommandsWritePlanes : Obligations.OnlyPlaneCommandsWritePlanes := by
  unfold Obligations.OnlyPlaneCommandsWritePlanes
  exact ⟨fun _ _ _ => exec_src, fun _ _ _ => exec_dst_of_not_plane⟩

/-- The constructed filter: the active configuration, the descriptor, the table and the two flags of it. -/
structure SameFilter (s t : State) : Prop where
  act      : t.act = s.act
  desc     : t.desc = s.desc
  table    : t.table = s.table
  ready    : t.status.ready = s.status.ready
  tblValid : t.status.tblValid = s.status.tblValid

theorem bodyOf_reaches_sameFilter {i : Instr} (hinit : i ≠ .init) (hsreset : i ≠ .sreset) (s : State) :
    reaches (SameFilter s) (bodyOf i s) := by
  have hs : ∀ {t : State}, t.act = s.act → t.desc = s.desc → t.table = s.table → t.status.ready = s.status.ready →
      t.status.tblValid = s.status.tblValid → SameFilter s t := SameFilter.mk
  apply reaches_bodyOf
  case nop | clrerr => exact fun _ => hs rfl rfl rfl rfl rfl
  case init => exact fun hi => absurd hi hinit
  case sreset => exact fun hi => absurd hi hsreset
  case probe => exact fun _ => ⟨hs rfl rfl rfl rfl rfl, fun _ _ => hs rfl rfl rfl rfl rfl⟩
  case notReady => exact hs rfl rfl rfl rfl rfl
  case avg => exact fun _ _ => ⟨hs rfl rfl rfl rfl rfl, hs rfl rfl rfl rfl rfl, hs rfl rfl rfl rfl rfl⟩
  case expo => exact fun _ _ _ => ⟨hs rfl rfl rfl rfl rfl, fun _ => hs rfl rfl rfl rfl rfl⟩
  case plane => exact fun _ _ => ⟨hs rfl rfl rfl rfl rfl, hs rfl rfl rfl rfl rfl, fun _ _ => hs rfl rfl rfl rfl rfl⟩
  case xform =>
    exact fun _ _ => ⟨hs rfl rfl rfl rfl rfl, hs rfl rfl rfl rfl rfl, hs rfl rfl rfl rfl rfl, hs rfl rfl rfl rfl rfl,
      fun _ => hs rfl rfl rfl rfl rfl⟩

theorem exec_sameFilter {i : Instr} {s t : State} (hinit : i ≠ .init) (hsreset : i ≠ .sreset)
    (h : exec i s = .next t) : SameFilter s t := by
  obtain ⟨hact, hdesc, htable, hready, htbl⟩ : SameFilter (accept s) t :=
    exec_reaches h ⟨rfl, rfl, rfl, rfl, rfl⟩ (bodyOf_reaches_sameFilter hinit hsreset (accept s))
      (fun _ hu => ⟨hu.1, hu.2, hu.3, hu.4, hu.5⟩) fun _ _ hu => ⟨hu.1, hu.2, hu.3, hu.4, hu.5⟩
  exact ⟨hact, hdesc, htable, hready, htbl⟩

/-- Settles O10: only the rules of `INIT` and `SRESET` write the filter, and none writes the parameters. -/
theorem onlyInitAndResetChangeTheFilter : Obligations.OnlyInitAndResetChangeTheFilter := by
  unfold Obligations.OnlyInitAndResetChangeTheFilter
  refine ⟨fun i s t hinit hsreset h => ?_, fun _ _ _ => exec_params⟩
  obtain ⟨hact, hdesc, htable, hready, htbl⟩ := exec_sameFilter hinit hsreset h
  exact ⟨hact, hdesc, htable, hready, htbl⟩

theorem exec_result {i : Instr} {s t : State} (hpoly : i ≠ .poly) (hlut : i ≠ .lut) (hpixel : i ≠ .pixel)
    (hsreset : i ≠ .sreset) (h : exec i s = .next t) : t.result = s.result := by
  refine exec_reaches (P := fun u => u.result = s.result) h rfl ?_ (fun _ hu => hu) fun _ _ hu => hu
  apply reaches_bodyOf
  case nop | clrerr => exact fun _ => rfl
  case init => exact fun _ => ⟨rfl, fun _ => rfl⟩
  case sreset => exact fun hi => absurd hi hsreset
  case probe => exact fun hi => absurd hi (not_or_intro hpoly (not_or_intro hlut hpixel))
  case notReady => exact rfl
  case avg => exact fun _ _ => ⟨rfl, rfl, rfl⟩
  case expo => exact fun _ _ _ => ⟨rfl, fun _ => rfl⟩
  case plane => exact fun _ _ => ⟨rfl, rfl, fun _ _ => rfl⟩
  case xform => exact fun _ _ => ⟨rfl, rfl, rfl, rfl, fun _ => rfl⟩

theorem exec_sum_avg {i : Instr} {s t : State} (havg : i ≠ .avg) (hxform : i ≠ .xform) (hsreset : i ≠ .sreset)
    (h : exec i s = .next t) : t.sum = s.sum ∧ t.avg = s.avg := by
  refine exec_reaches (P := fun u => u.sum = s.sum ∧ u.avg = s.avg) h ⟨rfl, rfl⟩ ?_ (fun _ hu => hu)
    fun _ _ hu => hu
  apply reaches_bodyOf
  case nop | clrerr => exact fun _ => ⟨rfl, rfl⟩
  case init => exact fun _ => ⟨⟨rfl, rfl⟩, fun _ => ⟨rfl, rfl⟩⟩
  case sreset => exact fun hi => absurd hi hsreset
  case probe => exact fun _ => ⟨⟨rfl, rfl⟩, fun _ _ => ⟨rfl, rfl⟩⟩
  case notReady => exact ⟨rfl, rfl⟩
  case avg => exact fun hi => absurd hi havg
  case expo => exact fun _ _ _ => ⟨⟨rfl, rfl⟩, fun _ => ⟨rfl, rfl⟩⟩
  case plane => exact fun _ _ => ⟨⟨rfl, rfl⟩, ⟨rfl, rfl⟩, fun _ _ => ⟨rfl, rfl⟩⟩
  case xform => exact fun hi => absurd hi hxform

theorem exec_exp {i : Instr} {s t : State} (hexpo : i ≠ .expo) (hxform : i ≠ .xform) (hsreset : i ≠ .sreset)
    (h : exec i s = .next t) : t.exp = s.exp := by
  refine exec_reaches (P := fun u => u.exp = s.exp) h rfl ?_ (fun _ hu => hu) fun _ _ hu => hu
  apply reaches_bodyOf
  case nop | clrerr => exact fun _ => rfl
  case init => exact fun _ => ⟨rfl, fun _ => rfl⟩
  case sreset => exact fun hi => absurd hi hsreset
  case probe => exact fun _ => ⟨rfl, fun _ _ => rfl⟩
  case notReady => exact rfl
  case avg => exact fun _ _ => ⟨rfl, rfl, rfl⟩
  case expo => exact fun hi => absurd hi hexpo
  case plane => exact fun _ _ => ⟨rfl, rfl, fun _ _ => rfl⟩
  case xform => exact fun hi => absurd hi hxform

/-- Settles O11: the rules of the other commands have no arm that writes the register. -/
theorem datapathRegistersHaveTheirWriters : Obligations.DatapathRegistersHaveTheirWriters := by
  unfold Obligations.DatapathRegistersHaveTheirWriters
  exact ⟨fun _ _ _ => exec_result, fun _ _ _ => exec_sum_avg, fun _ _ _ => exec_exp⟩

/-! The destination outside the region. -/

theorem sameOutsideRegion_refl (s : State) (d : Plane) : SameOutsideRegion s d d := ⟨rfl, fun _ _ => rfl⟩

/-- Writes to addresses of the region leave the rest of a plane. -/
theorem sameOutsideRegion_writeCells {s : State} {d e : Plane} {l : List (Nat × Word)}
    (hl : ∀ c ∈ l, ∃ p ∈ positions s.geom, c.1 = dstAddr s.geom p) (h : SameOutsideRegion s d e) :
    SameOutsideRegion s (Plane.writeCells d (cellBytes s) l) e := by
  refine ⟨(Plane.writeCells_unbacked d _ l).trans h.1, fun a ha => (writeCells_outside d hl ?_).trans (h.2 a ha)⟩
  exact fun p hp => ha p.1 (mem_positions.1 hp).1 p.2 (mem_positions.1 hp).2

theorem copyWrites_in_region (s : State) : ∀ c ∈ copyWrites s, ∃ p ∈ positions s.geom, c.1 = dstAddr s.geom p := by
  intro c hc
  obtain ⟨p, hp, rfl⟩ := mem_copyWrites.1 hc
  exact ⟨p, hp, rfl⟩

theorem remapWrites_in_region (s : State) : ∀ c ∈ remapWrites s, ∃ p ∈ positions s.geom, c.1 = dstAddr s.geom p := by
  intro c hc
  obtain ⟨p, hp, -, h⟩ := mem_remapWrites.1 hc
  exact ⟨p, hp, h⟩

theorem scrambleWrites_in_region (g : Geometry) (v : Nat → Word) :
    ∀ c ∈ (positions g).map (fun p => (dstAddr g p, v (dstAddr g p))), ∃ p ∈ positions g, c.1 = dstAddr g p := by
  intro c hc
  obtain ⟨p, hp, rfl⟩ := List.mem_map.1 hc
  exact ⟨p, hp, rfl⟩

theorem sameOutsideRegion_scrambleRegion {s : State} {e : Plane} (h : SameOutsideRegion s s.dst e) :
    SameOutsideRegion s (scrambleRegion s).dst e :=
  sameOutsideRegion_writeCells (scrambleWrites_in_region s.geom (Config.freeCell s.draws)) h

/-- The rule of every command but `SRESET` writes `D` in the region only. -/
theorem bodyOf_reaches_sameOutsideRegion {i : Instr} (s : State) :
    reaches (fun t => SameOutsideRegion s t.dst s.dst) (bodyOf i s) := by
  have hs := sameOutsideRegion_refl s s.dst
  have hcopied : SameOutsideRegion s (copyPlane s).dst s.dst := sameOutsideRegion_writeCells (copyWrites_in_region s) hs
  have hscrambled : SameOutsideRegion s (scrambleRegion (copyPlane s)).dst s.dst :=
    sameOutsideRegion_scrambleRegion (s := copyPlane s) hcopied
  apply reaches_bodyOf
  case nop | clrerr | sreset => exact fun _ => hs
  case init => exact fun _ => ⟨hs, fun _ => hs⟩
  case probe => exact fun _ => ⟨hs, fun _ _ => hs⟩
  case notReady => exact hs
  case avg => exact fun _ _ => ⟨hs, hs, hs⟩
  case expo => exact fun _ _ _ => ⟨hs, fun _ => hs⟩
  case plane => exact fun _ _ => ⟨hs, sameOutsideRegion_scrambleRegion hs, fun _ hl => sameOutsideRegion_writeCells hl hs⟩
  case xform =>
    exact fun _ _ => ⟨hs, hscrambled, hscrambled, hscrambled,
      fun _ => sameOutsideRegion_writeCells (remapWrites_in_region _) hcopied⟩

theorem exec_sameOutsideRegion {i : Instr} {s t : State} (h : exec i s = .next t) : SameOutsideRegion s t.dst s.dst :=
  exec_reaches (P := fun u => SameOutsideRegion s u.dst s.dst) h (sameOutsideRegion_refl s s.dst)
    (bodyOf_reaches_sameOutsideRegion (accept s)) (fun _ hu => hu) fun _ _ hu => hu

/-- Settles O12: every write of a rule goes to the destination address of a position of the region. -/
theorem destinationOutsideRegionUnchanged : Obligations.DestinationOutsideRegionUnchanged := by
  unfold Obligations.DestinationOutsideRegionUnchanged
  exact fun _ _ _ _ => exec_sameOutsideRegion

end Sys2Proof.Machine
end

section
/-! PROOFS. The two resets and the state they leave (R49, R114, R230, R231). -/

namespace Sys2Proof.Machine

open Sys2Proof.Safety

theorem step_of_inbox {s : State} {op : HostOp} {rest : List HostOp} (h : s.inbox = op :: rest) :
    step s = hostStep op { s with inbox := rest } := by
  unfold step stepInbox
  rw [h]

theorem writeCmd_of_busy (w : Word) {s : State} (h : s.status.busy = true) : writeCmd w s = .next s := by
  simp [writeCmd, h]

/-- Settles O15: `SRESET` is exempt from a pending error, and its rule puts every piece of block state at its reset
value; completion then sets `DONE`. -/
theorem sresetGivesTheResetState : Obligations.SresetGivesTheResetState := by
  unfold Obligations.SresetGivesTheResetState
  refine ⟨by decide, exec_sreset, fun s rest hinbox hbusy => ?_⟩
  exact (step_write_cmd hinbox).trans (writeCmd_of_busy _ hbusy)

/-- What a writing command in execution is: one of three words, accepted with no error pending and a filter (R230). -/
theorem writingRegion_eq_true {s : State} (h : writingRegion s = true) :
    s.seq.word ∈ [some (encode .copy), some (encode .remap), some (encode .xform)] ∧ s.err = 0#8 ∧
      s.status.ready = true := by
  have hword : ∀ {i}, running s = some i → s.seq.word = some (encode i) := by
    intro i hi
    unfold running at hi
    split at hi
    · cases hi
    next w hw =>
      split at hi
      next j hd =>
        obtain rfl := Option.some.inj hi
        rw [hw, eq_encode_of_decode_eq_ok hd]
      next => cases hi
  have hreach : ∀ {i}, reachesPlanes i s = true → s.err = 0#8 ∧ s.status.ready = true := by
    intro i hi
    unfold reachesPlanes at hi
    rw [Bool.and_eq_true, Bool.and_eq_true, beq_iff_eq] at hi
    exact hi.1
  unfold writingRegion at h
  split at h
  next hrun => exact ⟨by simp [hword hrun], hreach h⟩
  next hrun => exact ⟨by simp [hword hrun], hreach h⟩
  next hrun => exact ⟨by simp [hword hrun], hreach h⟩
  next => cases h

theorem hardwareReset_dst_of_not_writing {s : State} (h : writingRegion s = false) : (hardwareReset s).dst = s.dst := by
  unfold hardwareReset
  rw [h]
  rfl

theorem sameOutsideRegion_hardwareReset (s : State) : SameOutsideRegion s (hardwareReset s).dst s.dst := by
  unfold hardwareReset
  cases writingRegion s with
  | false => exact sameOutsideRegion_refl s s.dst
  | true => exact sameOutsideRegion_scrambleRegion (sameOutsideRegion_refl s s.dst)

/-- Settles O16: the reset input clears the block, and scrambles the region of a writing command alone. -/
theorem hardwareResetAtAnyTime : Obligations.HardwareResetAtAnyTime := by
  unfold Obligations.HardwareResetAtAnyTime
  intro s rest hinbox
  have hnot : writingRegion s = false → (hardwareReset { s with inbox := rest }).dst = s.dst :=
    hardwareReset_dst_of_not_writing (s := { s with inbox := rest })
  refine ⟨(hardwareReset { s with inbox := rest }).dst, (hardwareReset { s with inbox := rest }).draws, ?_,
    sameOutsideRegion_hardwareReset { s with inbox := rest }, hnot, fun h => hnot (Bool.eq_false_of_not_eq_true fun hw => ?_)⟩
  · calc step s = .next (hardwareReset { s with inbox := rest }) := step_of_inbox hinbox
      _ = _ := congrArg _ (hardwareReset_eq _)
  · obtain ⟨hword, herr, hready⟩ := writingRegion_eq_true hw
    rcases h with h | h | h
    · exact h hword
    · exact h herr
    · exact absurd (hready.symm.trans h) (by decide)

/-- Settles O55: the planes are empty, no error, no filter, no valid average or exponent, and no command. -/
theorem resetMeetsTheInvariants : Obligations.ResetMeetsTheInvariants := by
  unfold Obligations.ResetMeetsTheInvariants
  obtain ⟨htracks, hrange⟩ := sequencerSound_of_idle (s := State.reset) rfl rfl
  exact ⟨⟨Plane.empty_wf, Plane.empty_wf⟩, errorFlagTracksCode_of_clear rfl rfl,
    filterConsistent_of_cleared rfl rfl rfl rfl rfl rfl rfl rfl, exponentSound_of_clear rfl,
    integerAverageInUnit_of_clear rfl, htracks, hrange⟩

end Sys2Proof.Machine
end

section
/-! PROOFS. The descriptor ROM (R42). -/

namespace Sys2Proof.Machine

/-- The supported integer depths, one by one. -/
theorem integerDepth_iff {b : BitVec 6} : integerDepth b = true ↔ b ∈ [8#6, 10#6, 12#6, 14#6, 16#6] := by
  simp [integerDepth, or_assoc]

theorem descriptorRow_peak (p : Params) {b : BitVec 6} (h : b ∈ [8#6, 10#6, 12#6, 14#6, 16#6]) :
    (descriptorRow p b).peak.toNat = 2 ^ b.toNat - 1 := by
  simp only [List.mem_cons, List.not_mem_nil, or_false] at h
  rcases h with rfl | rfl | rfl | rfl | rfl <;> rfl

/-- Settles O20: the rows of 8 and 16 bits and all peaks do not read the parameters; the rest is evaluation of the
decided rows. -/
theorem descriptorRowsAreOrdered : Obligations.DescriptorRowsAreOrdered := by
  unfold Obligations.DescriptorRowsAreOrdered
  exact ⟨fun p => ⟨rfl, rfl, fun _ => descriptorRow_peak p⟩, rfl, rfl, rfl, by decide⟩

end Sys2Proof.Machine
end

section
/-! PROOFS. `INIT` (R112): a legal request is constructed, and the first failing test decides the code of any other. -/

namespace Sys2Proof.Machine

open Sys2Proof.Safety

theorem exec_init_of_legal {s : State} (herr : s.err = 0#8) (h : requestError s.req = none) :
    exec .init s = .next (completed (construct (unconstruct s))) := by
  refine exec_completed herr ?_
  show initBody (accept s) = _
  unfold initBody
  rw [accept_req, h]
  rfl

theorem exec_init_of_requestError {s : State} {c : ErrCode} (herr : s.err = 0#8) (h : requestError s.req = some c) :
    exec .init s = .next (failed (errNumber c) (unconstructed s)) := by
  refine exec_failed_from (u := unconstruct s) herr herr ?_
  show initBody (accept s) = _
  unfold initBody
  rw [accept_req, h]
  rfl

/-- The table of a depth has an entry for every sample value of `b` bits (R132). -/
theorem buildTable_descriptorRow (p : Params) {b : BitVec 6} (h : b ∈ [8#6, 10#6, 12#6, 14#6, 16#6]) :
    buildTable (descriptorRow p b).peak.toNat =
      (List.range (2 ^ b.toNat)).map fun i => poly (fdiv32 (u2f32 i) (u2f32 (2 ^ b.toNat - 1))) := by
  unfold buildTable tableEntry
  rw [descriptorRow_peak p h, Nat.sub_add_cancel (Nat.two_pow_pos _)]

theorem construct_of_int {s : State} (hint : s.req.format.flt = false) :
    construct s = { s with
      status := flagsConstructed true s.status
      act    := ⟨s.req.format.bits, false, s.req.fade, s.req.ls⟩
      desc   := descriptorRow s.params s.req.format.bits
      table  := buildTable (descriptorRow s.params s.req.format.bits).peak.toNat } := by
  simp [construct, hint]

theorem construct_of_flt {s : State} (hflt : s.req.format.flt = true) :
    construct s = { s with
      status := flagsConstructed false s.status
      act    := ⟨s.req.format.bits, true, s.req.fade, s.req.ls⟩
      desc   := Descriptor.none
      table  := [] } := by
  simp [construct, hflt]

/-- Settles O17: the request passes all tests of `INIT`, and constructing an integer filter loads the row of the depth
and builds the table of its peak. -/
theorem initConstructsIntegerFilter : Obligations.InitConstructsIntegerFilter := by
  unfold Obligations.InitConstructsIntegerFilter
  intro s herr hfamily hint hbits hls
  have hlegal : requestError s.req = none :=
    requestError_eq_none_iff.2 ⟨hfamily, fun _ => integerDepth_iff.2 hbits, fun hf => absurd (hint.symm.trans hf) (by decide), hls⟩
  rw [exec_init_of_legal herr hlegal, construct_of_int (s := unconstruct s) hint, ← buildTable_descriptorRow s.params hbits]
  rfl

/-- Settles O18: the request passes all tests of `INIT`, and constructing a float filter builds no descriptor and no
table. -/
theorem initConstructsFloatFilter : Obligations.InitConstructsFloatFilter := by
  unfold Obligations.InitConstructsFloatFilter
  intro s herr hfamily hflt hbits hls
  have hlegal : requestError s.req = none :=
    requestError_eq_none_iff.2 ⟨hfamily, fun hf => absurd (hf.symm.trans hflt) (by decide), fun _ => hbits, hls⟩
  rw [exec_init_of_legal herr hlegal, construct_of_flt (s := unconstruct s) hflt, ← hbits]
  rfl

/-- A format that `INIT` cannot construct (R5, R26). -/
theorem requestError_of_format {r : Request} (hfamily : r.format.family = 0#2)
    (h : r.format.flt = false ∧ r.format.bits ∉ [8#6, 10#6, 12#6, 14#6, 16#6] ∨
      r.format.flt = true ∧ r.format.bits ≠ 32#6) : requestError r = some .bits := by
  simp only [← integerDepth_iff, Bool.not_eq_true] at h
  unfold requestError
  rcases h with ⟨hint, hbits⟩ | ⟨hflt, hbits⟩
  · simp [hfamily, hint, hbits]
  · simp [hfamily, hflt, hbits]

theorem requestError_of_scaling {r : Request} (hfamily : r.format.family = 0#2)
    (h : r.format.flt = false ∧ r.format.bits ∈ [8#6, 10#6, 12#6, 14#6, 16#6] ∨
      r.format.flt = true ∧ r.format.bits = 32#6) (hls : isfinite32 r.ls = false) : requestError r = some .ls := by
  simp only [← integerDepth_iff] at h
  unfold requestError
  rcases h with ⟨hint, hbits⟩ | ⟨hflt, hbits⟩
  · simp [hfamily, hint, hbits, hls]
  · simp [hfamily, hflt, hbits, hls]

/-- Settles O19: the tests of `INIT` in their order, each raised from the un-constructed state. -/
theorem initReportsTheFirstError : Obligations.InitReportsTheFirstError := by
  unfold Obligations.InitReportsTheFirstError
  refine fun s herr => ⟨fun hfamily => ?_, fun hfamily hformat => ?_, fun hfamily hformat hls => ?_⟩
  · exact exec_init_of_requestError (c := .family) herr (if_pos hfamily)
  · exact exec_init_of_requestError (c := .bits) herr (requestError_of_format hfamily hformat)
  · exact exec_init_of_requestError (c := .ls) herr (requestError_of_scaling hfamily hformat hls)

end Sys2Proof.Machine
end

section
/-! PROOFS. The parts of the plane commands' rules, outcome by outcome: the geometry check (R69), the backing test (R68)
and the sample check (R150, R152). -/

namespace Sys2Proof.Machine

open Sys2Proof.Safety

/-- Settles O27: the tests of the check in their order; what each looks at is linear arithmetic of the geometry. -/
theorem geometryCheckOrder : Obligations.GeometryCheckOrder := by
  unfold Obligations.GeometryCheckOrder
  refine ⟨rfl, rfl, fun needDst g => ?_⟩
  unfold geomCheck lastAddr regionWidth regionHeight
  dsimp only
  cases needDst <;> split_ifs <;> simp_all <;> omega

theorem checkGeometry_of_some {needDst : Bool} {k : State → CmdResult} {s : State} {c : ErrCode}
    (h : geomCheck needDst s.geom = some c) : checkGeometry needDst k s = .raised c s := by
  unfold checkGeometry
  rw [h]

theorem checkGeometry_of_none {needDst : Bool} {k : State → CmdResult} {s : State}
    (h : geomCheck needDst s.geom = none) : checkGeometry needDst k s = k s := by
  unfold checkGeometry
  rw [h]

theorem needBacked_of_true {backed : State → Bool} {f : Fault} {k : State → CmdResult} {s : State}
    (h : backed s = true) : needBacked backed f k s = k s := if_pos h

theorem needBacked_of_false {backed : State → Bool} {f : Fault} {k : State → CmdResult} {s : State}
    (h : backed s = false) : needBacked backed f k s = .stuck f := if_neg (ne_true_of_eq_false h)

theorem exec_stuck {i : Instr} {s : State} {f : Fault} (herr : s.err = 0#8) (hb : bodyOf i (accept s) = .stuck f) :
    exec i s = .fault f := by
  rw [exec_eq_runCommand, runCommand, if_neg (fun h => h.1 herr), hb]

theorem srcRegionBacked_of_unbacked {s : State} {y x : Nat} (hy : y < s.geom.height.toNat)
    (hx : x < s.geom.width.toNat)
    (h : CellUnbacked s.src (cellBytes s) (s.geom.srcBase.toNat + y * s.geom.srcStride.toNat + x)) :
    srcRegionBacked s = false :=
  List.all_eq_false.2 ⟨(y, x), mem_positions.2 ⟨hy, hx⟩, ne_true_of_eq_false (Plane.cellBacked_eq_false.2 h)⟩

theorem dstCellBacked_of_unbacked {s : State} {y x : Nat}
    (h : CellUnbacked s.dst (cellBytes s) (s.geom.dstBase.toNat + y * s.geom.dstStride.toNat + x)) :
    dstCellBacked s (y, x) = false :=
  Plane.cellBacked_eq_false.2 h

theorem samplesValid_iff {s : State} : SamplesValid s ↔ (srcSamples s).all (sampleValid s) = true := by
  simp [SamplesValid, srcSamples]

theorem not_samplesValid_iff {s : State} : ¬ SamplesValid s ↔ (srcSamples s).all (sampleValid s) = false := by
  rw [samplesValid_iff, Bool.not_eq_true]

/-- The samples of the region as the rows of the plane give them (R62, R152). -/
theorem srcSamples_eq (s : State) :
    srcSamples s = (List.range s.geom.height.toNat).flatMap fun y => (List.range s.geom.width.toNat).map fun x =>
      Plane.readCell s.src (cellBytes s) (s.geom.srcBase.toNat + y * s.geom.srcStride.toNat + x) := by
  unfold srcSamples positions
  rw [List.map_flatMap]
  simp only [List.map_map]
  rfl

theorem length_srcSamples (s : State) : (srcSamples s).length = regionSize s.geom := by
  rw [srcSamples, List.length_map, length_positions]

end Sys2Proof.Machine
end

section
/-! PROOFS. `AVG` (R150 to R156). -/

namespace Sys2Proof.Machine

open Sys2Proof.Safety

theorem avgBody_of_not_ready {s : State} (h : s.status.ready = false) : avgBody s = .raised .notReady s := if_pos h

section Ready
variable {s : State} (hready : s.status.ready = true)
include hready

theorem avgBody_of_ready :
    avgBody s = checkGeometry false (needBacked srcRegionBacked .unbackedSource averagePlane)
      { s with status := flagsAvgStart s.status } :=
  if_neg (by simp [hready])

theorem avgBody_of_geometry {c : ErrCode} (h : geomCheck false s.geom = some c) :
    avgBody s = .raised c { s with status := flagsAvgStart s.status } :=
  (avgBody_of_ready hready).trans (checkGeometry_of_some h)

variable (hgeom : geomCheck false s.geom = none)
include hgeom

theorem avgBody_of_unbacked (h : srcRegionBacked s = false) : avgBody s = .stuck .unbackedSource :=
  (avgBody_of_ready hready).trans <|
    (checkGeometry_of_none (s := { s with status := flagsAvgStart s.status }) hgeom).trans (needBacked_of_false h)

theorem avgBody_of_backed (h : srcRegionBacked s = true) :
    avgBody s = averagePlane { s with status := flagsAvgStart s.status } :=
  (avgBody_of_ready hready).trans <|
    (checkGeometry_of_none (s := { s with status := flagsAvgStart s.status }) hgeom).trans (needBacked_of_true h)

end Ready

theorem averagePlane_of_bad_sample {s : State} (h : ¬ SamplesValid s) : averagePlane s = .raised .sample s :=
  if_pos (not_samplesValid_iff.1 h)

theorem averagePlane_of_valid {s : State} (h : SamplesValid s)
    (hfin : s.act.flt = true → isfinite32 (averageOf s (regionSum s)) = true) :
    averagePlane s = .ok { s with
      sum := regionSum s, avg := averageOf s (regionSum s), status := flagsAvgDone s.status } := by
  unfold averagePlane
  rw [if_neg (by simp [samplesValid_iff.1 h])]
  exact if_neg fun hn => absurd ((hfin hn.1).symm.trans hn.2) (by decide)

theorem averagePlane_of_not_finite {s : State} (h : SamplesValid s) (hflt : s.act.flt = true)
    (hfin : isfinite32 (averageOf s (regionSum s)) = false) :
    averagePlane s = .raised .numeric { s with sum := regionSum s } := by
  unfold averagePlane
  rw [if_neg (by simp [samplesValid_iff.1 h])]
  exact if_pos ⟨hflt, hfin⟩

section Exec
variable {s : State} (herr : s.err = 0#8) (hready : s.status.ready = true) (hgeom : geomCheck false s.geom = none)
  (hbacked : srcRegionBacked s = true)
include herr hready hgeom hbacked

theorem exec_avg_of_valid (hv : SamplesValid s)
    (hfin : s.act.flt = true → isfinite32 (averageOf s (regionSum s)) = true) :
    exec .avg s = .next (completed { s with
      sum := regionSum s, avg := averageOf s (regionSum s), status := flagsAvgDone (flagsAvgStart s.status) }) :=
  exec_completed herr ((avgBody_of_backed (s := accept s) hready hgeom hbacked).trans
    (averagePlane_of_valid (s := { accept s with status := flagsAvgStart (accept s).status }) hv hfin))

theorem exec_avg_of_not_finite (hv : SamplesValid s) (hflt : s.act.flt = true)
    (hfin : isfinite32 (averageOf s (regionSum s)) = false) :
    exec .avg s = .next (failed 9#8 { s with sum := regionSum s, status := flagsAvgStart s.status }) :=
  exec_failed_from (c := .numeric) herr herr ((avgBody_of_backed (s := accept s) hready hgeom hbacked).trans
    (averagePlane_of_not_finite (s := { accept s with status := flagsAvgStart (accept s).status }) hv hflt hfin))

theorem exec_avg_of_bad_sample (hv : ¬ SamplesValid s) :
    exec .avg s = .next (failed 8#8 { s with status := flagsAvgStart s.status }) :=
  exec_failed_from (c := .sample) herr herr ((avgBody_of_backed (s := accept s) hready hgeom hbacked).trans
    (averagePlane_of_bad_sample (s := { accept s with status := flagsAvgStart (accept s).status }) hv))

end Exec

/-! The integer sum. -/

theorem regionSize_lt (g : Geometry) : regionSize g < 2 ^ 32 :=
  calc regionSize g < 2 ^ 16 * 2 ^ 16 := Nat.mul_lt_mul'' g.width.isLt g.height.isLt
    _ = 2 ^ 32 := by rw [← pow_add]

theorem sumInt_lt {s : State} (hint : s.act.flt = false) (hv : SamplesValid s) : sumInt (srcSamples s) < 2 ^ 48 :=
  calc sumInt (srcSamples s) ≤ regionSize s.geom * s.desc.peak.toNat := sumInt_le hint (samplesValid_iff.1 hv)
    _ < 2 ^ 32 * 2 ^ 16 := Nat.mul_lt_mul'' (regionSize_lt s.geom) s.desc.peak.isLt
    _ = 2 ^ 48 := by rw [← pow_add]

theorem toNat_regionSum {s : State} (hint : s.act.flt = false) (hv : SamplesValid s) :
    (regionSum s).toNat = ((srcSamples s).map BitVec.toNat).sum := by
  have hlt := sumInt_lt hint hv
  rw [regionSum_int hint, BitVec.toNat_ofNat, Nat.mod_eq_of_lt (hlt.trans (by norm_num)), sumInt_eq]

theorem sumInt_perm {l l' : List Word} (h : l.Perm l') : sumInt l = sumInt l' := by
  rw [sumInt_eq, sumInt_eq]
  exact (h.map _).sum_eq

/-- Settles O29: valid samples sum to less than the accumulator holds, and a sum of naturals has no order. -/
theorem integerSumIsExact : Obligations.IntegerSumIsExact := by
  unfold Obligations.IntegerSumIsExact
  refine ⟨fun s hint hv => ?_, fun _ _ => sumInt_perm⟩
  have hsum := toNat_regionSum hint hv
  refine ⟨?_, ?_⟩
  · rw [hsum, srcSamples, List.map_map]
    rfl
  · rw [hsum, ← sumInt_eq]
    exact sumInt_lt hint hv

/-- Settles O24: past the checks `AVG` writes the sum and the average of the samples of the region. -/
theorem avgOfIntegerPlane : Obligations.AvgOfIntegerPlane := by
  unfold Obligations.AvgOfIntegerPlane
  intro s herr hready hint hgeom hbacked hv
  have hsum : regionSum s = BitVec.ofNat 64 ((srcSamples s).map BitVec.toNat).sum := by
    rw [regionSum_int hint, sumInt_eq]
  rw [exec_avg_of_valid herr hready hgeom hbacked hv fun hf => absurd (hint.symm.trans hf) (by decide),
    averageOf_int hint, toNat_regionSum hint hv, hsum, srcSamples_eq]
  rfl

/-- Settles O25: the bounds of `FSUM` over the samples of the region, and `AVG` past its checks, whose only further error
is an average that is not finite. -/
theorem avgOfFloatPlane : Obligations.AvgOfFloatPlane := by
  unfold Obligations.AvgOfFloatPlane
  intro s herr hready hflt hgeom hbacked hv
  rw [← srcSamples_eq]
  intro samples left total n a
  have hlen : samples.length = s.geom.width.toNat * s.geom.height.toNat := length_srcSamples s
  obtain ⟨hpos, hlt⟩ := regionSize_bounds hgeom
  have ha : a = avgFlt total samples.length := by rw [hlen]; rfl
  have havg : averageOf s (regionSum s) = a := by rw [averageOf_flt hflt, regionSum_flt hflt]; rfl
  have hbounded : averageBounded samples a = true :=
    ha ▸ FSUM_bounded s.params.fsum (hlen ▸ hpos) (hlen ▸ hlt.trans (by norm_num))
  simp only [averageBounded, Bool.and_eq_true, Bool.or_eq_true, Bool.not_eq_true', decide_eq_true_eq, beq_iff_eq,
    List.all_eq_false, inUnit32] at hbounded
  refine ⟨fun hdefault => ?_, ?_, fun hunit => ?_, fun hzero => ?_, fun hfin => ?_, fun hfin => ?_⟩
  · show FSUM s.params.fsum samples = left
    rw [hdefault]
    rfl
  · have hwithin := FSUM_within s.params.fsum samples
    rw [hlen] at hwithin
    exact hwithin
  · refine hbounded.1.resolve_left ?_
    rintro ⟨c, hc, hn⟩
    exact hn (hunit c hc)
  · refine hbounded.2.resolve_left ?_
    rintro ⟨c, hc, hn⟩
    exact hn (hzero c hc)
  · rw [exec_avg_of_valid herr hready hgeom hbacked hv fun _ => havg ▸ hfin, havg, regionSum_flt hflt]
    rfl
  · exact ⟨_, exec_avg_of_not_finite herr hready hgeom hbacked hv hflt (havg ▸ hfin), rfl, rfl, rfl, rfl, rfl⟩

/-- Settles O26: the rule of `AVG` test by test. -/
theorem avgReportsTheFirstError : Obligations.AvgReportsTheFirstError := by
  unfold Obligations.AvgReportsTheFirstError
  refine fun s herr => ⟨fun hready => ?_, fun hready c hc => ?_, fun hready hgeom hbacked hv => ?_,
    fun hready hgeom hcell => ?_⟩
  · exact exec_failed (i := .avg) (c := .notReady) herr (avgBody_of_not_ready (s := accept s) hready)
  · exact exec_failed_from (i := .avg) (u := { s with status := flagsAvgStart s.status }) herr herr
      (avgBody_of_geometry (s := accept s) hready hc)
  · exact exec_avg_of_bad_sample herr hready hgeom hbacked hv
  · obtain ⟨y, hy, x, hx, h⟩ := hcell
    exact exec_stuck (i := .avg) herr
      (avgBody_of_unbacked (s := accept s) hready hgeom (srcRegionBacked_of_unbacked (s := s) hy hx h))

end Sys2Proof.Machine
end

section
/-! PROOFS. `COPY` and `REMAP` past their readiness test (R175, R176): the checks they share with `XFORM`, and what the
writes of a region leave in its cells. -/

namespace Sys2Proof.Machine

open Sys2Proof.Safety

/-- The checks of the three plane commands past their readiness test, and what follows them: the geometry with both
regions (R69), then the backing of the source region and of the destination cells the command will write (R68). -/
def planeChecks (dstBacked : State → Bool) (k : State → CmdResult) : State → CmdResult :=
  checkGeometry true (needBacked srcRegionBacked .unbackedSource (needBacked dstBacked .unbackedDestination k))

section Checks
variable {dstBacked : State → Bool} {k : State → CmdResult} {s : State}

theorem planeChecks_of_geometry {c : ErrCode} (h : geomCheck true s.geom = some c) :
    planeChecks dstBacked k s = .raised c s := checkGeometry_of_some h

variable (hgeom : geomCheck true s.geom = none)
include hgeom

theorem planeChecks_of_unbacked_source (h : srcRegionBacked s = false) :
    planeChecks dstBacked k s = .stuck .unbackedSource :=
  (checkGeometry_of_none hgeom).trans (needBacked_of_false h)

variable (hsrc : srcRegionBacked s = true)
include hsrc

theorem planeChecks_of_unbacked_destination (h : dstBacked s = false) :
    planeChecks dstBacked k s = .stuck .unbackedDestination :=
  (checkGeometry_of_none hgeom).trans ((needBacked_of_true hsrc).trans (needBacked_of_false h))

theorem planeChecks_of_backed (h : dstBacked s = true) : planeChecks dstBacked k s = k s :=
  (checkGeometry_of_none hgeom).trans ((needBacked_of_true hsrc).trans (needBacked_of_true h))

end Checks

theorem copyBody_of_not_ready {s : State} (h : s.status.ready = false) : copyBody s = .raised .notReady s := if_pos h

theorem copyBody_of_ready {s : State} (h : s.status.ready = true) :
    copyBody s = planeChecks dstRegionBacked (fun t => .ok (copyPlane t))
      { s with status := flagsPlaneStart s.status } :=
  if_neg (by simp [h])

theorem remapBody_of_not_ready {s : State} (h : s.status.ready = false ∨ s.status.expValid = false) :
    remapBody s = .raised .notReady s := if_pos h

theorem remapBody_of_ready {s : State} (hready : s.status.ready = true) (hexp : s.status.expValid = true) :
    remapBody s = planeChecks remapTargetsBacked (fun t => onRaise scrambleRegion (remapPlane t))
      { s with status := flagsPlaneStart s.status } :=
  if_neg (by simp [hready, hexp])

theorem remapPlane_of_bad_sample {s : State} (h : ¬ SamplesValid s) : remapPlane s = .raised .sample s :=
  if_pos (not_samplesValid_iff.1 h)

theorem remapPlane_of_valid {s : State} (h : SamplesValid s) :
    remapPlane s = .ok { s with dst := Plane.writeCells s.dst (cellBytes s) (remapWrites s) } :=
  if_neg (by simp [samplesValid_iff.1 h])

section Exec
variable {s : State} (herr : s.err = 0#8) (hready : s.status.ready = true) (hgeom : geomCheck true s.geom = none)
  (hsrc : srcRegionBacked s = true)
include herr hready hgeom hsrc

theorem exec_copy_of_backed (hdst : dstRegionBacked s = true) :
    exec .copy s = .next (completed { copyPlane s with status := flagsPlaneStart s.status }) :=
  exec_completed herr ((copyBody_of_ready (s := accept s) hready).trans
    (planeChecks_of_backed (s := { accept s with status := flagsPlaneStart (accept s).status }) hgeom hsrc hdst))

variable (hexp : s.status.expValid = true) (hdst : remapTargetsBacked s = true)
include hexp hdst

theorem exec_remap_of_valid (hv : SamplesValid s) :
    exec .remap s = .next (completed { s with
      status := flagsPlaneStart s.status, dst := Plane.writeCells s.dst (cellBytes s) (remapWrites s) }) := by
  refine exec_completed herr ((remapBody_of_ready (s := accept s) hready hexp).trans
    ((planeChecks_of_backed (s := { accept s with status := flagsPlaneStart (accept s).status }) hgeom hsrc hdst).trans ?_))
  exact congrArg (onRaise scrambleRegion)
    (remapPlane_of_valid (s := { accept s with status := flagsPlaneStart (accept s).status }) hv)

theorem exec_remap_of_bad_sample (hv : ¬ SamplesValid s) :
    exec .remap s = .next (failed 8#8 (scrambleRegion { s with status := flagsPlaneStart s.status })) := by
  refine exec_failed_from (c := .sample) herr herr ((remapBody_of_ready (s := accept s) hready hexp).trans
    ((planeChecks_of_backed (s := { accept s with status := flagsPlaneStart (accept s).status }) hgeom hsrc hdst).trans ?_))
  exact congrArg (onRaise scrambleRegion)
    (remapPlane_of_bad_sample (s := { accept s with status := flagsPlaneStart (accept s).status }) hv)

end Exec

/-! The early ends. -/

section Early
variable {s : State} (herr : s.err = 0#8)
include herr

theorem exec_copy_of_not_ready (h : s.status.ready = false) : exec .copy s = .next (failed 5#8 s) :=
  exec_failed (i := .copy) (c := .notReady) herr (copyBody_of_not_ready (s := accept s) h)

theorem exec_remap_of_not_ready (h : s.status.ready = false ∨ s.status.expValid = false) :
    exec .remap s = .next (failed 5#8 s) :=
  exec_failed (i := .remap) (c := .notReady) herr (remapBody_of_not_ready (s := accept s) h)

variable (hready : s.status.ready = true)
include hready

theorem exec_copy_of_geometry {c : ErrCode} (hc : geomCheck true s.geom = some c) :
    exec .copy s = .next (failed (errNumber c) { s with status := flagsPlaneStart s.status }) :=
  exec_failed_from herr herr ((copyBody_of_ready (s := accept s) hready).trans
    (planeChecks_of_geometry (s := { accept s with status := flagsPlaneStart (accept s).status }) hc))

theorem exec_remap_of_geometry (hexp : s.status.expValid = true) {c : ErrCode} (hc : geomCheck true s.geom = some c) :
    exec .remap s = .next (failed (errNumber c) { s with status := flagsPlaneStart s.status }) :=
  exec_failed_from herr herr ((remapBody_of_ready (s := accept s) hready hexp).trans
    (planeChecks_of_geometry (s := { accept s with status := flagsPlaneStart (accept s).status }) hc))

variable (hgeom : geomCheck true s.geom = none)
include hgeom

theorem exec_copy_of_unbacked_source (h : srcRegionBacked s = false) : exec .copy s = .fault .unbackedSource :=
  exec_stuck herr ((copyBody_of_ready (s := accept s) hready).trans
    (planeChecks_of_unbacked_source (s := { accept s with status := flagsPlaneStart (accept s).status }) hgeom h))

theorem exec_remap_of_unbacked_source (hexp : s.status.expValid = true) (h : srcRegionBacked s = false) :
    exec .remap s = .fault .unbackedSource :=
  exec_stuck herr ((remapBody_of_ready (s := accept s) hready hexp).trans
    (planeChecks_of_unbacked_source (s := { accept s with status := flagsPlaneStart (accept s).status }) hgeom h))

variable (hsrc : srcRegionBacked s = true)
include hsrc

theorem exec_copy_of_unbacked_destination (h : dstRegionBacked s = false) :
    exec .copy s = .fault .unbackedDestination :=
  exec_stuck herr ((copyBody_of_ready (s := accept s) hready).trans
    (planeChecks_of_unbacked_destination (s := { accept s with status := flagsPlaneStart (accept s).status }) hgeom hsrc h))

theorem exec_remap_of_unbacked_destination (hexp : s.status.expValid = true) (h : remapTargetsBacked s = false) :
    exec .remap s = .fault .unbackedDestination :=
  exec_stuck herr ((remapBody_of_ready (s := accept s) hready hexp).trans
    (planeChecks_of_unbacked_destination (s := { accept s with status := flagsPlaneStart (accept s).status }) hgeom hsrc h))

end Early

/-! The cells of the region after its writes. -/

theorem remapWrite_eq_none_iff {s : State} {p : Nat × Nat} :
    remapWrite s p = none ↔ remapCell s (srcCell s p) = .keep := by
  unfold remapWrite
  cases remapCell s (srcCell s p) <;> simp

theorem remapTargetsBacked_of {s : State}
    (h : ∀ p ∈ positions s.geom, remapCell s (srcCell s p) ≠ .keep → dstCellBacked s p = true) :
    remapTargetsBacked s = true := by
  refine List.all_eq_true.2 fun p hp => ?_
  by_cases hk : remapCell s (srcCell s p) = .keep
  · simp [remapWrite_eq_none_iff.2 hk]
  · simp [h p hp hk]

theorem remapTargetsBacked_of_region {s : State} (h : dstRegionBacked s = true) : remapTargetsBacked s = true :=
  remapTargetsBacked_of fun p hp _ => List.all_eq_true.1 h p hp

theorem remapTargetsBacked_of_unbacked {s : State} {p : Nat × Nat} (hp : p ∈ positions s.geom)
    (hv : sampleValid s (srcCell s p) = true) (hk : remapCell s (srcCell s p) ≠ .keep)
    (h : dstCellBacked s p = false) : remapTargetsBacked s = false := by
  refine List.all_eq_false.2 ⟨p, hp, ?_⟩
  have hwrite : (remapWrite s p).isNone = false := by
    rw [Option.isNone_eq_false_iff, ← Option.ne_none_iff_isSome]
    exact fun hn => hk (remapWrite_eq_none_iff.1 hn)
  simp [hv, hwrite, h]

theorem dstRegionBacked_of_unbacked {s : State} {p : Nat × Nat} (hp : p ∈ positions s.geom)
    (h : dstCellBacked s p = false) : dstRegionBacked s = false :=
  List.all_eq_false.2 ⟨p, hp, ne_true_of_eq_false h⟩

theorem srcCell_lt (s : State) (p : Nat × Nat) : (srcCell s p).toNat < 256 ^ cellBytes s := Plane.readCell_lt _ _ _

section Cells
variable {s : State} {d : Plane} {p : Nat × Nat} (hw : regionWidth s.geom ≤ s.geom.dstStride.toNat)
  (hp : p ∈ positions s.geom)
include hw hp

theorem readCell_copyWrites (hd : Memory.wf d.bytes = true) :
    Plane.readCell (Plane.writeCells d (cellBytes s) (copyWrites s)) (cellBytes s) (dstAddr s.geom p) = srcCell s p := by
  rw [Plane.readCell_writeCells_mem hd _ (copyWrites_nodup hw) (mem_copyWrites.2 ⟨p, hp, rfl⟩),
    Nat.mod_eq_of_lt (srcCell_lt s p)]
  exact BitVec.ofNat_toNat _ _

theorem readCell_remapWrites_out (hd : Memory.wf d.bytes = true) {v : Word} (hv : remapCell s (srcCell s p) = .out v) :
    Plane.readCell (Plane.writeCells d (cellBytes s) (remapWrites s)) (cellBytes s) (dstAddr s.geom p) =
      BitVec.ofNat 32 (v.toNat % 256 ^ cellBytes s) :=
  Plane.readCell_writeCells_mem hd _ (remapWrites_nodup hw) (mem_remapWrites.2 ⟨p, hp, hv, rfl⟩)

theorem readCell_remapWrites_keep (hk : remapCell s (srcCell s p) = .keep) :
    Plane.readCell (Plane.writeCells d (cellBytes s) (remapWrites s)) (cellBytes s) (dstAddr s.geom p) =
      Plane.readCell d (cellBytes s) (dstAddr s.geom p) := by
  refine Plane.readCell_writeCells_other d _ _ fun c hc heq => ?_
  obtain ⟨q, hq, hout, haddr⟩ := mem_remapWrites.1 hc
  obtain rfl := dstAddr_injOn hw hp hq (heq.trans haddr)
  rw [hk] at hout
  cases hout

end Cells

theorem dstStride_of_geomCheck {g : Geometry} (h : geomCheck true g = none) : regionWidth g ≤ g.dstStride.toNat :=
  ((geomCheck_none.1 h).2.2.2.2 rfl).1

/-- Settles O33: past the checks `COPY` writes every cell of the region once; a cell is the little-endian number of its
bytes. -/
theorem copyCopiesTheRegion : Obligations.CopyCopiesTheRegion := by
  unfold Obligations.CopyCopiesTheRegion
  refine ⟨fun s herr hready hgeom hsrc hdst hwf => ?_, fun s => ⟨?_, ?_, ?_⟩, fun p n a hn => ?_⟩
  · have hw := dstStride_of_geomCheck hgeom
    exact ⟨_, exec_copy_of_backed herr hready hgeom hsrc hdst,
      fun y hy x hx => readCell_copyWrites (p := (y, x)) hw (mem_positions.2 ⟨hy, hx⟩) hwf,
      sameOutsideRegion_writeCells (copyWrites_in_region s) (sameOutsideRegion_refl s s.dst)⟩
  · intro hflt
    simp [cellBytes, hflt]
  · intro hint hbits
    simp [cellBytes, hint, hbits]
  · intro hint hbits
    have hne : s.act.bits ≠ 8#6 := fun h => absurd (h ▸ hbits) (by decide)
    simp [cellBytes, hint, hne]
  · have hlt : Memory.readLE p.bytes (a * n) n < 2 ^ 32 :=
      calc Memory.readLE p.bytes (a * n) n < 256 ^ n := Memory.readLE_lt _ _ _
        _ ≤ 256 ^ 4 := Nat.pow_le_pow_right (by norm_num) hn
        _ = 2 ^ 32 := by norm_num
    rw [Plane.readCell, BitVec.toNat_ofNat, Nat.mod_eq_of_lt hlt, Memory.readLE_eq_sum]
    rfl

/-- Settles O41: past the checks `REMAP` writes every cell that it does not keep once. -/
theorem remapWritesTheRegion : Obligations.RemapWritesTheRegion := by
  unfold Obligations.RemapWritesTheRegion
  intro s herr hready hexp hgeom hsrc hv hbacked hwf
  have hw := dstStride_of_geomCheck hgeom
  refine ⟨Plane.writeCells s.dst (cellBytes s) (remapWrites s),
    exec_remap_of_valid herr hready hgeom hsrc hexp (remapTargetsBacked_of hbacked) hv, fun y hy x hx => ?_,
    sameOutsideRegion_writeCells (remapWrites_in_region s) (sameOutsideRegion_refl s s.dst)⟩
  have hp : (y, x) ∈ positions s.geom := mem_positions.2 ⟨hy, hx⟩
  intro c a
  exact ⟨readCell_remapWrites_keep (p := (y, x)) hw hp, fun v => readCell_remapWrites_out (p := (y, x)) hw hp hwf⟩

/-- Settles O42: past the checks a bad sample ends `REMAP` with its code, and no command writes outside the region. -/
theorem remapReportsABadSample : Obligations.RemapReportsABadSample := by
  unfold Obligations.RemapReportsABadSample
  intro s herr hready hexp hgeom hsrc hdst hv
  have hexec := exec_remap_of_bad_sample herr hready hgeom hsrc hexp (remapTargetsBacked_of_region hdst) hv
  exact ⟨_, hexec, rfl, rfl, rfl, hexp, exec_sameOutsideRegion hexec⟩

end Sys2Proof.Machine
end

section
/-! PROOFS. `XFORM` (R177): it succeeds exactly when all its tests pass, and then its effect is one function of the source
region and the constructed filter. -/

namespace Sys2Proof.Machine

open Sys2Proof.Safety

theorem xformBody_of_not_ready {s : State} (h : s.status.ready = false) : xformBody s = .raised .notReady s := if_pos h

/-- What `XFORM` does past its checks: steps 1 to 4 and the last flag, an error leaving the region unspecified. -/
def xformTail (s : State) : CmdResult :=
  onRaise scrambleRegion (andThen (xformSteps s) fun u => .ok { u with status := flagsFrameDone u.status })

theorem xformBody_of_ready {s : State} (h : s.status.ready = true) :
    xformBody s = planeChecks dstRegionBacked xformTail { s with status := flagsXformStart s.status } :=
  if_neg (by simp [h])

/-- The exponent of the frame in the source region. -/
def frameExponent (s : State) : Word := expoOf (averageOf s (regionSum s)) s.act.ls

/-- The machine with the output frame written and vouched for (R177). -/
def xformFrame (s : State) : State :=
  { s with
    sum    := regionSum s
    avg    := averageOf s (regionSum s)
    exp    := frameExponent s
    status := flagsFrameDone (flagsExpDone (flagsExpStart (flagsAvgDone (flagsXformStart s.status))))
    dst    := Plane.writeCells (Plane.writeCells s.dst (cellBytes s) (copyWrites s)) (cellBytes s)
      (remapWrites { s with exp := frameExponent s }) }

/-- The tests of `XFORM` that decide its end, all passed. -/
structure XformPasses (s : State) : Prop where
  err   : s.err = 0#8
  ready : s.status.ready = true
  geom  : geomCheck true s.geom = none
  src   : srcRegionBacked s = true
  dst   : dstRegionBacked s = true
  valid : SamplesValid s
  avg   : s.act.flt = true → isfinite32 (averageOf s (regionSum s)) = true
  exp   : isfinite32 (frameExponent s) = true

/-! The early ends. -/

section Early
variable {s : State} (herr : s.err = 0#8)
include herr

theorem exec_xform_of_not_ready (h : s.status.ready = false) : exec .xform s = .next (failed 5#8 s) :=
  exec_failed (i := .xform) (c := .notReady) herr (xformBody_of_not_ready (s := accept s) h)

variable (hready : s.status.ready = true)
include hready

theorem exec_xform_of_geometry {c : ErrCode} (hc : geomCheck true s.geom = some c) :
    exec .xform s = .next (failed (errNumber c) { s with status := flagsXformStart s.status }) :=
  exec_failed_from herr herr ((xformBody_of_ready (s := accept s) hready).trans
    (planeChecks_of_geometry (s := { accept s with status := flagsXformStart (accept s).status }) hc))

variable (hgeom : geomCheck true s.geom = none)
include hgeom

theorem exec_xform_of_unbacked_source (h : srcRegionBacked s = false) : exec .xform s = .fault .unbackedSource :=
  exec_stuck herr ((xformBody_of_ready (s := accept s) hready).trans
    (planeChecks_of_unbacked_source (s := { accept s with status := flagsXformStart (accept s).status }) hgeom h))

variable (hsrc : srcRegionBacked s = true)
include hsrc

theorem exec_xform_of_unbacked_destination (h : dstRegionBacked s = false) :
    exec .xform s = .fault .unbackedDestination :=
  exec_stuck herr ((xformBody_of_ready (s := accept s) hready).trans
    (planeChecks_of_unbacked_destination (s := { accept s with status := flagsXformStart (accept s).status }) hgeom hsrc h))

end Early

/-- Settles O28: the tests of the three plane commands in their order, the ones they share stated once. -/
theorem earlyErrorsTouchNoPlane : Obligations.EarlyErrorsTouchNoPlane := by
  unfold Obligations.EarlyErrorsTouchNoPlane
  refine fun s herr => ⟨fun h => ⟨exec_copy_of_not_ready herr h, exec_xform_of_not_ready herr h⟩,
    exec_remap_of_not_ready herr, fun hready c hc => ⟨exec_copy_of_geometry herr hready hc,
      exec_xform_of_geometry herr hready hc, fun hexp => exec_remap_of_geometry herr hready hexp hc⟩,
    fun hready hgeom => ⟨?_, ?_⟩⟩
  · rintro ⟨y, hy, x, hx, hcell⟩
    have hsrc := srcRegionBacked_of_unbacked hy hx hcell
    exact ⟨exec_copy_of_unbacked_source herr hready hgeom hsrc, exec_xform_of_unbacked_source herr hready hgeom hsrc,
      fun hexp => exec_remap_of_unbacked_source herr hready hgeom hexp hsrc⟩
  · intro hsrc y hy x hx c hcell
    have hp : (y, x) ∈ positions s.geom := mem_positions.2 ⟨hy, hx⟩
    have hdst := dstRegionBacked_of_unbacked hp (dstCellBacked_of_unbacked hcell)
    exact ⟨exec_copy_of_unbacked_destination herr hready hgeom hsrc hdst,
      exec_xform_of_unbacked_destination herr hready hgeom hsrc hdst,
      fun hexp hv hk => exec_remap_of_unbacked_destination herr hready hgeom hsrc hexp
        (remapTargetsBacked_of_unbacked hp hv hk (dstCellBacked_of_unbacked hcell))⟩

/-- How `XFORM` ends past its checks: with a bad sample, with a number that is not finite, or with the frame. -/
theorem exec_xform_cases {s : State} (herr : s.err = 0#8) (hready : s.status.ready = true)
    (hgeom : geomCheck true s.geom = none) (hsrc : srcRegionBacked s = true) (hdst : dstRegionBacked s = true) :
    (¬ SamplesValid s ∧ ∃ u, u.status = flagsXformStart s.status ∧ exec .xform s = .next (failed 8#8 u)) ∨
      (SamplesValid s ∧ ¬ XformPasses s ∧ ∃ u, u.status.ready = true ∧ u.status.expValid = false ∧
        u.status.frameValid = false ∧ exec .xform s = .next (failed 9#8 u)) ∨
      (XformPasses s ∧ exec .xform s = .next (completed (xformFrame s))) := by
  have hbody : bodyOf .xform (accept s) = xformTail { accept s with status := flagsXformStart (accept s).status } :=
    (xformBody_of_ready (s := accept s) hready).trans
      (planeChecks_of_backed (s := { accept s with status := flagsXformStart (accept s).status }) hgeom hsrc hdst)
  unfold xformTail at hbody
  rcases xformSteps_cases { accept s with status := flagsXformStart (accept s).status } with
    ⟨hv, h⟩ | ⟨hv, hflt, havg, h⟩ | ⟨hv, -, hexp, h⟩ | ⟨hv, havg, hexp, h⟩ <;> rw [h] at hbody
  · refine .inl ⟨not_samplesValid_iff.2 hv, scrambleRegion (copyPlane { s with status := flagsXformStart s.status }),
      rfl, ?_⟩
    exact exec_failed_from (c := .sample) herr herr hbody
  · refine .inr (.inl ⟨samplesValid_iff.2 hv, fun hp => ?_, scrambleRegion
      { copyPlane { s with status := flagsXformStart s.status } with sum := regionSum s }, hready, rfl, rfl, ?_⟩)
    · exact absurd ((hp.avg hflt).symm.trans havg) (by decide)
    · exact exec_failed_from (c := .numeric) herr herr hbody
  · refine .inr (.inl ⟨samplesValid_iff.2 hv, fun hp => ?_, scrambleRegion { copyPlane s with
      sum := regionSum s, avg := averageOf s (regionSum s)
      status := flagsExpStart (flagsAvgDone (flagsXformStart s.status)) }, hready, rfl, rfl, ?_⟩)
    · exact absurd (hp.exp.symm.trans hexp) (by decide)
    · exact exec_failed_from (c := .numeric) herr herr hbody
  · exact .inr (.inr ⟨⟨herr, hready, hgeom, hsrc, hdst, samplesValid_iff.2 hv, havg, hexp⟩, exec_completed herr hbody⟩)

theorem exec_xform_of_passes {s : State} (h : XformPasses s) : exec .xform s = .next (completed (xformFrame s)) := by
  rcases exec_xform_cases h.err h.ready h.geom h.src h.dst with ⟨hv, -⟩ | ⟨-, hn, -⟩ | ⟨-, hexec⟩
  · exact absurd h.valid hv
  · exact absurd h hn
  · exact hexec

/-- An `XFORM` that goes on from a legal geometry had both regions backed. -/
theorem regions_backed_of_exec_xform {s t : State} (herr : s.err = 0#8) (hready : s.status.ready = true)
    (hgeom : geomCheck true s.geom = none) (hexec : exec .xform s = .next t) :
    srcRegionBacked s = true ∧ dstRegionBacked s = true := by
  cases hsrc : srcRegionBacked s with
  | false => cases (exec_xform_of_unbacked_source herr hready hgeom hsrc).symm.trans hexec
  | true =>
    cases hdst : dstRegionBacked s with
    | false => cases (exec_xform_of_unbacked_destination herr hready hgeom hsrc hdst).symm.trans hexec
    | true => exact ⟨rfl, rfl⟩

/-- An `XFORM` that leaves no error code has passed all its tests. -/
theorem exec_xform_success {s t : State} (hexec : exec .xform s = .next t) (hok : t.err = 0#8) :
    XformPasses s ∧ t = completed (xformFrame s) := by
  have failed_absurd : ∀ {n : BitVec 8} {u : State}, n ≠ 0#8 → exec .xform s ≠ .next (failed n u) := by
    intro n u hn h
    obtain rfl := Host.Outcome.next.inj (h.symm.trans hexec)
    exact hn hok
  have herr : s.err = 0#8 := by
    by_contra hpending
    obtain rfl := Host.Outcome.next.inj ((exec_of_pending (by decide) (by decide) hpending).symm.trans hexec)
    exact hpending hok
  cases hready : s.status.ready with
  | false => exact absurd (exec_xform_of_not_ready herr hready) (failed_absurd (by decide))
  | true =>
    cases hgeom : geomCheck true s.geom with
    | some c => exact absurd (exec_xform_of_geometry herr hready hgeom) (failed_absurd (errNumber_ne_zero c))
    | none =>
      obtain ⟨hsrc, hdst⟩ := regions_backed_of_exec_xform herr hready hgeom hexec
      rcases exec_xform_cases herr hready hgeom hsrc hdst with ⟨-, u, -, h⟩ | ⟨-, -, u, -, -, -, h⟩ | ⟨hp, h⟩
      · exact absurd h (failed_absurd (by decide))
      · exact absurd h (failed_absurd (by decide))
      · exact ⟨hp, Host.Outcome.next.inj (hexec.symm.trans h)⟩

/-- A cell of the frame holds the remapped value of its sample under the frame's exponent (R174, R177). -/
theorem readCell_xformFrame {s : State} {p : Nat × Nat} (hw : regionWidth s.geom ≤ s.geom.dstStride.toNat)
    (hp : p ∈ positions s.geom) (hwf : Memory.wf s.dst.bytes = true) :
    Plane.readCell (xformFrame s).dst (cellBytes s) (dstAddr s.geom p) =
      BitVec.ofNat 32 ((remappedValue { s with exp := frameExponent s } (srcCell s p)).toNat % 256 ^ cellBytes s) := by
  have hcopied : Memory.wf (Plane.writeCells s.dst (cellBytes s) (copyWrites s)).bytes = true :=
    Plane.writeCells_wf hwf _ _
  unfold remappedValue
  cases hr : remapCell { s with exp := frameExponent s } (srcCell s p) with
  | out v => exact readCell_remapWrites_out (s := { s with exp := frameExponent s }) hw hp hcopied hr
  | keep =>
    refine (readCell_remapWrites_keep (s := { s with exp := frameExponent s }) hw hp hr).trans
      ((readCell_copyWrites hw hp hwf).trans ?_)
    rw [Nat.mod_eq_of_lt (srcCell_lt s p), BitVec.ofNat_toNat, BitVec.setWidth_eq]

theorem sameOutsideRegion_xformFrame (s : State) : SameOutsideRegion s (xformFrame s).dst s.dst :=
  sameOutsideRegion_writeCells (remapWrites_in_region { s with exp := frameExponent s })
    (sameOutsideRegion_writeCells (copyWrites_in_region s) (sameOutsideRegion_refl s s.dst))

/-- Settles O43: with every test passed `XFORM` leaves the frame. -/
theorem xformWritesTheFrame : Obligations.XformWritesTheFrame := by
  unfold Obligations.XformWritesTheFrame
  intro s herr hready hgeom hsrc hdst hv hwf a e havg hexp
  have hw := dstStride_of_geomCheck hgeom
  exact ⟨(xformFrame s).dst, exec_xform_of_passes ⟨herr, hready, hgeom, hsrc, hdst, hv, havg, hexp⟩,
    fun y hy x hx => readCell_xformFrame (p := (y, x)) hw (mem_positions.2 ⟨hy, hx⟩) hwf,
    sameOutsideRegion_xformFrame s⟩

/-- Settles O44: past the checks the two ways to fail have their codes and clear the flags. -/
theorem xformFailureVouchesForNoFrame : Obligations.XformFailureVouchesForNoFrame := by
  unfold Obligations.XformFailureVouchesForNoFrame
  intro s t herr hready hgeom hexec hfail
  obtain ⟨hsrc, hdst⟩ := regions_backed_of_exec_xform herr hready hgeom hexec
  rcases exec_xform_cases herr hready hgeom hsrc hdst with ⟨hv, u, hu, h⟩ | ⟨hv, -, u, hr, he, hf, h⟩ | ⟨hp, h⟩ <;>
    obtain rfl := Host.Outcome.next.inj (h.symm.trans hexec)
  · refine ⟨.inl rfl, iff_of_true rfl hv, rfl, ?_, ?_, ?_⟩
    · exact congrArg Status.frameValid hu
    · exact congrArg Status.expValid hu
    · exact (congrArg Status.ready hu).trans hready
  · exact ⟨.inr rfl, iff_of_false (by show (9#8 : BitVec 8) ≠ 8#8; decide) (not_not_intro hv), rfl, hf, he, hr⟩
  · exact absurd hp.err hfail

theorem geomCheck_false_of_true {g : Geometry} (h : geomCheck true g = none) : geomCheck false g = none := by
  obtain ⟨hw, hh, hs, hl, -⟩ := geomCheck_none.1 h
  exact geomCheck_none.2 ⟨hw, hh, hs, hl, fun hn => nomatch hn⟩

theorem dstRegionBacked_congr {s t : State} (hgeom : t.geom = s.geom) (hact : t.act = s.act)
    (hdst : t.dst.unbacked = s.dst.unbacked) : dstRegionBacked t = dstRegionBacked s := by
  have hbytes : cellBytes t = cellBytes s := by rw [cellBytes, hact]; rfl
  unfold dstRegionBacked dstCellBacked
  rw [hgeom, hbytes]
  exact List.all_congr rfl fun p => cellBacked_of_unbacked_eq hdst _ _

/-- Settles O45: the frame is what the four commands leave one after the other, each of which passes its tests because
`XFORM` passed them all. -/
theorem xformEqualsItsSteps : Obligations.XformEqualsItsSteps := by
  unfold Obligations.XformEqualsItsSteps
  intro s t hexec hok
  obtain ⟨⟨herr, hready, hgeom, hsrc, hdst, hv, havg, hexp⟩, rfl⟩ := exec_xform_success hexec hok
  refine ⟨_, _, _, exec_copy_of_backed herr hready hgeom hsrc hdst,
    exec_avg_of_valid herr hready (geomCheck_false_of_true hgeom) hsrc hv havg,
    exec_expo_of_finite hready rfl herr hexp, ?_⟩
  have hcopied : dstRegionBacked (copyPlane s) = true :=
    (dstRegionBacked_congr (s := s) (t := copyPlane s) rfl rfl (Plane.writeCells_unbacked _ _ _)).trans hdst
  exact exec_remap_of_valid herr hready hgeom hsrc rfl (remapTargetsBacked_of_region hcopied) hv

/-- Settles O46: the tests of `XFORM` and the frame do not read what earlier frames left. -/
theorem xformIgnoresEarlierFrames : Obligations.XformIgnoresEarlierFrames := by
  unfold Obligations.XformIgnoresEarlierFrames
  intro s t sum avg exp av ev fv hexec hok
  obtain ⟨⟨herr, hready, hgeom, hsrc, hdst, hv, havg, hexp⟩, rfl⟩ := exec_xform_success hexec hok
  exact exec_xform_of_passes ⟨herr, hready, hgeom, hsrc, hdst, hv, havg, hexp⟩

/-- Settles O48: on a consistent integer filter the average lies in `[0, 1]`, so that the exponent is finite and `XFORM`
passes all its tests. -/
theorem integerTransformIsTotal : Obligations.IntegerTransformIsTotal := by
  unfold Obligations.IntegerTransformIsTotal
  intro s hfilter herr hready hint hgeom hsrc hdst hv
  have hunit := hfilter.averageOf_unit hready hint hgeom (samplesValid_iff.1 hv)
  have hexp : isfinite32 (frameExponent s) = true := isfinite32_expoOf_of_unit hunit (hfilter.scaling hready)
  have hp : XformPasses s :=
    ⟨herr, hready, hgeom, hsrc, hdst, hv, fun hf => absurd (hint.symm.trans hf) (by decide), hexp⟩
  exact ⟨_, exec_xform_of_passes hp, herr, rfl, hunit⟩

end Sys2Proof.Machine
end

section
/-! PROOFS. The numeric statements: the polynomial (R131), the uniform planes (R151), the zero exponent (R157), the
quantiser (R171), the power unit and the corrected curve (R136 to R138). -/

namespace Sys2Proof.Machine

open Sys2Proof.Safety

/-- Settles O22: no sum or product of the polynomial makes a NaN of an operand that is none. -/
theorem polyIsNaNExactlyOnNaN : Obligations.PolyIsNaNExactlyOnNaN := by
  unfold Obligations.PolyIsNaNExactlyOnNaN
  exact isnan32_poly

/-! Exact arithmetic: a result that the format holds is not rounded. -/

theorem roundFp_exact {f : FloatFormat} (neg : Bool) {den m : Nat} (hd : 0 < den)
    (hm : IsMag f m ∧ patternOfMag f m < infPattern f) : roundFp f neg (m * den) den = .fin neg m := by
  have hr := roundMag_exact hd hm.1
  rw [roundFp_fin (by rw [hr]; exact hm.2.ne), hr]

theorem fpDiv_exact {f : FloatFormat} {m n k : Nat} (hn : 0 < n) (hk : IsMag f k ∧ patternOfMag f k < infPattern f)
    (h : m * unitMag f = k * n) : fpDiv f (.fin false m) (.fin false n) = .fin false k := by
  unfold fpDiv
  dsimp only
  rw [if_neg hn.ne', h]
  exact roundFp_exact _ hn hk

/-- The product with a zero is a zero. -/
theorem fpMul_zero_right (s t : Bool) (m : Nat) : fpMul binary32 (.fin s m) (.fin t 0) = .fin (s != t) 0 := by
  have h := roundFp_exact (s != t) (unitMag_pos binary32) (zero_held infPattern32_pos false)
  rwa [Nat.zero_mul] at h

theorem fpMul_zero_left (s t : Bool) (m : Nat) : fpMul binary32 (.fin s 0) (.fin t m) = .fin (s != t) 0 := by
  simp only [fpMul, Nat.zero_mul]
  have h := roundFp_exact (s != t) (unitMag_pos binary32) (zero_held infPattern32_pos false)
  rwa [Nat.zero_mul] at h

theorem unitMag64_eq : unitMag binary64 = unitMag binary32 * 2 ^ (binary64.scale - binary32.scale) := by
  unfold unitMag
  rw [← pow_add, Nat.add_sub_cancel' (by decide)]

theorem f64to32_of_fin {d : Dword} {s : Bool} {m : Nat} (h : fp64 d = .fin s m) :
    f64to32 d = bits32 (roundFp binary32 s m (2 ^ (binary64.scale - binary32.scale))) := by
  unfold f64to32
  rw [h]

/-- An average of 0 or of exactly 1, the sum being that many times `n * peak`, is exact in every rounding. -/
theorem avgInt_exact {j n peak : Nat} (hj : j ≤ 1) (hn : 0 < n) (hn' : n < 2 ^ 32) (hp : 0 < peak) (hp' : peak < 2 ^ 16) :
    avgInt (j * (n * peak)) n peak = bits32 (.fin false (j * unitMag binary32)) := by
  have hprod : n * peak < 2 ^ 32 * 2 ^ 16 := Nat.mul_lt_mul'' hn' hp'
  have hsum : j * (n * peak) < 2 ^ 53 := by
    have := Nat.mul_le_mul_right (n * peak) hj
    omega
  have hpeak : j * peak < 2 ^ 53 := by
    have := Nat.mul_le_mul_right peak hj
    omega
  have hmean : fp64 (fdiv64 (u2f64 (j * (n * peak))) (u2f64 n)) = .fin false (j * peak * unitMag binary64) := by
    rw [fp64_fdiv64, fp64_u2f64_exact hsum, fp64_u2f64_exact (by omega)]
    exact fpDiv_exact (Nat.mul_pos hn (unitMag_pos _)) (whole64_held hpeak) (by ring)
  have hunit : fp64 (fdiv64 (fdiv64 (u2f64 (j * (n * peak))) (u2f64 n)) (u2f64 peak)) =
      .fin false (j * unitMag binary64) := by
    rw [fp64_fdiv64, hmean, fp64_u2f64_exact (by omega)]
    exact fpDiv_exact (Nat.mul_pos hp (unitMag_pos _)) (whole64_held (by omega)) (by ring)
  have hheld : IsMag binary32 (j * unitMag binary32) ∧ patternOfMag binary32 (j * unitMag binary32) < infPattern binary32 :=
    ⟨isMag_mul_two_pow (f := binary32) (lt_of_le_of_lt hj (by decide)) binary32.scale,
      lt_of_le_of_lt (patternOfMag_mono (Nat.mul_le_mul_right _ hj)) (by rw [Nat.one_mul]; exact unitMag32_held.2)⟩
  rw [avgInt, f64to32_of_fin hunit, unitMag64_eq, ← Nat.mul_assoc, roundFp_exact _ (Nat.two_pow_pos _) hheld]

theorem bits32_zero : bits32 (.fin false 0) = 0x00000000#32 := by decide +kernel

theorem bits32_one : bits32 (.fin false (unitMag binary32)) = 0x3F800000#32 := by decide +kernel

theorem peaks_bounds {peak : Nat} (h : peak ∈ peaks) : 0 < peak ∧ peak < 2 ^ 16 :=
  (by decide : ∀ peak ∈ peaks, 0 < peak ∧ peak < 2 ^ 16) peak h

/-- Settles O30: both divisions and the narrowing are exact. -/
theorem uniformPlanesAverageExactly : Obligations.UniformPlanesAverageExactly := by
  unfold Obligations.UniformPlanesAverageExactly
  intro n peak hn hn' hpeak
  obtain ⟨hp, hp'⟩ := peaks_bounds hpeak
  have hzero := avgInt_exact (j := 0) (by decide) hn hn' hp hp'
  have hone := avgInt_exact (j := 1) le_rfl hn hn' hp hp'
  rw [Nat.zero_mul, Nat.zero_mul, bits32_zero] at hzero
  rw [Nat.one_mul, Nat.one_mul, bits32_one] at hone
  exact ⟨hzero, hone⟩

/-! Zeros. -/

theorem infMag32_pos : 0 < magOfPattern binary32 (infPattern binary32) := by decide +kernel

/-- A value that equals zero is a zero of either sign. -/
theorem eq32_zero_iff {w : Word} : eq32 w 0x00000000#32 = true ↔ ∃ t, fp32 w = .fin t 0 := by
  have hI := infMag32_pos
  unfold eq32 cmp32
  rw [fp32_zero]
  cases fp32 w with
  | nan => simp [fpKey]
  | inf s =>
    simp only [fpKey]
    generalize magOfPattern binary32 (infPattern binary32) = I at hI ⊢
    cases s <;> simp <;> omega
  | fin s m => cases s <;> simp [fpKey]

theorem sign_of_fp32 {w : Word} {s : Bool} {m : Nat} (h : fp32 w = .fin s m) : s = w.getLsbD 31 := by
  unfold fp32 unpack at h
  dsimp only at h
  split_ifs at h
  injection h with hs
  rw [← hs, ← BitVec.testBit_toNat, Nat.testBit_eq_decide_div_mod_eq]
  rfl

theorem expoOf_zero_average {ls : Word} {s : Bool} {m : Nat} (h : fp32 ls = .fin s m) :
    expoOf 0x00000000#32 ls = bits32 (.fin s 0) := by
  have hsquare : fmul32 0x00000000#32 0x00000000#32 = 0x00000000#32 := by decide +kernel
  unfold expoOf
  rw [hsquare, fmul32, fp32_zero, h, fpMul_zero_left, Bool.false_bne]

/-- Settles O32: a zero factor makes the product a zero, with the sign of the other factor where it is `+0.0`. -/
theorem zeroAverageGivesZeroExponent : Obligations.ZeroAverageGivesZeroExponent := by
  unfold Obligations.ZeroAverageGivesZeroExponent
  refine ⟨fun ls hls => ?_, fun avg ls hsquare hls => ?_⟩
  · obtain ⟨s, m, h⟩ := isfinite32_iff.1 hls
    rw [expoOf_zero_average h, ← sign_of_fp32 h]
    cases s <;> decide +kernel
  · obtain ⟨s, m, hs⟩ := isfinite32_iff.1 hsquare
    obtain ⟨t, ht⟩ := eq32_zero_iff.1 hls
    refine eq32_zero_iff.2 ⟨s != t, ?_⟩
    rw [expoOf, fp32_fmul32, hs, ht, fpMul_zero_right]

/-! The quantiser. -/

/-- Conversion of a whole number that fits the significand of binary32 is exact. -/
theorem fp32_u2f32_exact {n : Nat} (h : n < 2 ^ 24) : fp32 (u2f32 n) = .fin false (n * unitMag binary32) := by
  have hheld : IsMag binary32 (n * unitMag binary32) ∧ patternOfMag binary32 (n * unitMag binary32) < infPattern binary32 :=
    ⟨isMag_mul_two_pow (f := binary32) h binary32.scale,
      lt_of_le_of_lt (patternOfMag_mono (Nat.mul_le_mul_right _ h.le)) (by decide +kernel)⟩
  have hr := roundFp_exact false Nat.one_pos hheld
  rw [Nat.mul_one] at hr
  rw [fp32_u2f32, hr]

theorem le_of_lt32_eq_false {a b : Word} {x y : Int} (hx : fpKey binary32 (fp32 a) = some x)
    (hy : fpKey binary32 (fp32 b) = some y) (h : lt32 a b = false) : y ≤ x :=
  not_lt.1 fun hlt => Bool.false_ne_true (h.symm.trans (cmp32_iff.2 ⟨x, y, hx, hy, decide_eq_true hlt⟩))

theorem fpKey_fin (f : FloatFormat) (s : Bool) (m : Nat) :
    fpKey f (.fin s m) = some (if s then -(m : Int) else (m : Int)) := rfl

/-- A value that is neither below 0 nor above a whole number has a whole part of at most that number. -/
theorem f2u_le {r : Word} {n : Nat} (hn : n < 2 ^ 24) (hlow : lt32 r f32Zero = false)
    (hhigh : gt32 r (u2f32 n) = false) : f2u r ≤ n := by
  unfold f2u
  cases hr : fp32 r with
  | nan => exact Nat.zero_le _
  | inf s => exact Nat.zero_le _
  | fin s m =>
    have hkey : fpKey binary32 (fp32 r) = some (if s then -(m : Int) else (m : Int)) := by rw [hr, fpKey_fin]
    have hzero : fpKey binary32 (fp32 f32Zero) = some 0 := congrArg (fpKey binary32) fp32_zero
    have hpeak : fpKey binary32 (fp32 (u2f32 n)) = some ((n * unitMag binary32 : Nat) : Int) :=
      congrArg (fpKey binary32) (fp32_u2f32_exact hn)
    have hnonneg := le_of_lt32_eq_false hkey hzero hlow
    have hle := le_of_lt32_eq_false hpeak hkey hhigh
    have hm : m ≤ n * unitMag binary32 := by
      generalize n * unitMag binary32 = b at hle
      cases s <;> simp at hle hnonneg <;> omega
    exact Nat.div_le_of_le_mul (by rwa [Nat.mul_comm])

theorem quant_le {peak : Nat} (h : peak < 2 ^ 24) (p : Word) : quant p peak ≤ peak := by
  unfold quant
  dsimp only
  split_ifs with hlow hhigh
  · exact Nat.zero_le _
  · exact le_rfl
  · exact f2u_le h (Bool.eq_false_of_not_eq_true hlow) (Bool.eq_false_of_not_eq_true hhigh)

/-- The three exact values of the quantiser, at each of the five peaks. -/
theorem quant_exact : ∀ peak ∈ peaks,
    quant 0x3F800000#32 peak = peak ∧ quant 0x7F800000#32 peak = peak ∧ quant 0x00000000#32 peak = 0 := by
  decide +kernel

/-- Settles O36: the clamp on the binary32 value bounds the conversion, and three values are computed at every peak. -/
theorem quantStaysInRange : Obligations.QuantStaysInRange := by
  unfold Obligations.QuantStaysInRange
  intro peak hpeak
  exact ⟨fun _ => rfl, quant_le ((peaks_bounds hpeak).2.trans (by norm_num)), quant_exact peak hpeak⟩

/-! The power unit. -/

theorem lt32_asymm {a b : Word} (h : lt32 a b = true) : lt32 b a = false := by
  refine Bool.eq_false_of_not_eq_true fun hn => ?_
  obtain ⟨x, y, hx, hy, hxy⟩ := cmp32_iff.1 h
  obtain ⟨y', x', hy', hx', hyx⟩ := cmp32_iff.1 hn
  obtain rfl := Option.some.inj (hx.symm.trans hx')
  obtain rfl := Option.some.inj (hy.symm.trans hy')
  exact lt_asymm (of_decide_eq_true hxy) (of_decide_eq_true hyx)

theorem eq32_eq_false_of_gt32 {a b : Word} (h : gt32 a b = true) : eq32 a b = false := by
  refine Bool.eq_false_of_not_eq_true fun hn => ?_
  obtain ⟨x, y, hx, hy, hxy⟩ := cmp32_iff.1 h
  obtain ⟨y', x', hy', hx', hyx⟩ := cmp32_iff.1 hn
  obtain rfl := Option.some.inj (hx.symm.trans hx')
  obtain rfl := Option.some.inj (hy.symm.trans hy')
  exact (of_decide_eq_true hxy : x < y).ne' (of_decide_eq_true hyx)

theorem eq32_eq_false_of_lt32 {a b : Word} (h : lt32 a b = true) : eq32 a b = false := by
  refine Bool.eq_false_of_not_eq_true fun hn => ?_
  obtain ⟨x, y, hx, hy, hxy⟩ := cmp32_iff.1 h
  obtain ⟨x', y', hx', hy', heq⟩ := cmp32_iff.1 hn
  obtain rfl := Option.some.inj (hx.symm.trans hx')
  obtain rfl := Option.some.inj (hy.symm.trans hy')
  exact (of_decide_eq_true hxy : x < y).ne (of_decide_eq_true heq)

/-- Law P1 (R137). -/
theorem POW_of_zero_exponent {e : Word} (b : Word) (h : eq32 e f32Zero = true) : POW b e = f32One := if_pos h

/-- Laws P2, P3 and P4 (R137), at an exponent that is not zero. -/
theorem POW_of_exponent_ne_zero {e : Word} (b : Word) (h : eq32 e f32Zero = false) :
    POW b e =
      if eq32 b f32Zero then (if gt32 e f32Zero then f32Zero else f32Inf)
      else if b = f32Inf then (if gt32 e f32Zero then f32Inf else f32Zero)
      else if b = f32One then f32One
      else powAdmissible (Config.pow b e) :=
  if_neg (ne_true_of_eq_false h)

/-- Law P5 (R137): every result is a pattern from `+0.0` to `+inf`. -/
theorem POW_toNat_le (b e : Word) : (POW b e).toNat ≤ f32Inf.toNat := by
  have hadmissible : ∀ v, (powAdmissible v).toNat ≤ f32Inf.toNat := by
    intro v
    have hlt : v.toNat % 0x7F800001 < 0x7F800001 := Nat.mod_lt _ (by decide)
    rw [powAdmissible, BitVec.toNat_ofNat, Nat.mod_eq_of_lt (hlt.trans (by decide))]
    exact Nat.le_of_lt_succ hlt
  unfold POW
  split_ifs
  iterate 6 decide
  exact hadmissible _

/-- A pattern from `+0.0` to `+inf` is no NaN and not below zero. -/
theorem nonneg_of_toNat_le {w : Word} (h : w.toNat ≤ f32Inf.toNat) :
    isnan32 w = false ∧ ge32 w 0x00000000#32 = true := by
  have hinf : f32Inf.toNat = infPattern binary32 := by decide
  rw [hinf] at h
  have hlt := lt_of_le_of_lt h (infPattern_lt binary32)
  have hw : fp32 w = .fin false (magOfPattern binary32 w.toNat) ∨ fp32 w = .inf false := by
    unfold fp32 unpack
    rw [Nat.div_eq_of_lt hlt, Nat.mod_eq_of_lt hlt]
    dsimp only
    rcases Nat.lt_or_eq_of_le h with h | h
    · exact .inl (if_pos h)
    · exact .inr ((if_neg h.not_lt).trans (if_pos h))
  unfold isnan32 ge32 le32 cmp32
  rw [fp32_zero]
  rcases hw with hw | hw <;> simp [hw, fpKey]

theorem eq32_inf_zero : eq32 f32Inf f32Zero = false := by decide +kernel

theorem eq32_one_zero : eq32 f32One f32Zero = false := by decide +kernel

/-- Settles O38: the tests of the power unit, which exclude each other on its domain. -/
theorem powerUnitLaws : Obligations.PowerUnitLaws := by
  unfold Obligations.PowerUnitLaws
  refine fun b e _ _ => ⟨POW_of_zero_exponent b, fun hb he => ?_, fun hb he => ?_, ?_, ?_, ?_,
    nonneg_of_toNat_le (POW_toNat_le b e)⟩
  · rw [POW_of_exponent_ne_zero b (eq32_eq_false_of_gt32 he)]
    exact (if_pos hb).trans (if_pos he)
  · rw [POW_of_exponent_ne_zero b (eq32_eq_false_of_lt32 he)]
    exact (if_pos hb).trans (if_neg (ne_true_of_eq_false (lt32_asymm he)))
  · rintro rfl he
    rw [POW_of_exponent_ne_zero _ (eq32_eq_false_of_gt32 he)]
    exact (if_neg (ne_true_of_eq_false eq32_inf_zero)).trans ((if_pos rfl).trans (if_pos he))
  · rintro rfl he
    rw [POW_of_exponent_ne_zero _ (eq32_eq_false_of_lt32 he)]
    exact (if_neg (ne_true_of_eq_false eq32_inf_zero)).trans
      ((if_pos rfl).trans (if_neg (ne_true_of_eq_false (lt32_asymm he))))
  · rintro rfl
    cases he : eq32 e f32Zero with
    | true => exact POW_of_zero_exponent _ he
    | false =>
      rw [POW_of_exponent_ne_zero _ he]
      exact (if_neg (ne_true_of_eq_false eq32_one_zero)).trans ((if_neg (by decide)).trans (if_pos rfl))

theorem curve_of_zero_exponent {e : Word} (c : Word) (h : eq32 e f32Zero = true) : curve c e = f32One :=
  POW_of_zero_exponent _ h

/-- Settles O39: the curve value is a result of the power unit, of the clamped value. -/
theorem curveIsNeverNegativeOrNaN : Obligations.CurveIsNeverNegativeOrNaN := by
  unfold Obligations.CurveIsNeverNegativeOrNaN
  intro c e
  obtain ⟨hnan, hge⟩ := nonneg_of_toNat_le (POW_toNat_le (clamp0 c) e)
  exact ⟨rfl, hnan, hge, curve_of_zero_exponent c, fun h => congrArg (POW · e) (if_pos h),
    fun h => congrArg (POW · e) (if_neg (ne_true_of_eq_false h))⟩

end Sys2Proof.Machine
end

section
/-! PROOFS. The remap of a float sample (R172, R174), and of every sample under a zero exponent (R179). -/

namespace Sys2Proof.Machine

open Sys2Proof.Safety

section Float
variable {s : State} (hflt : s.act.flt = true)
include hflt

theorem sampleValid_of_flt (c : Word) : sampleValid s c = isfinite32 c := by
  rw [sampleValid, hflt]
  exact if_pos rfl

theorem remapCell_of_flt (c : Word) : remapCell s c = remapFlt s c := by
  rw [remapCell, hflt]
  exact if_pos rfl

/-- The two exact values and the curve as one value: where the baseline is kept, that is the sample (R172). -/
theorem remappedValue_of_flt (c : Word) :
    remappedValue s c =
      if s.act.fade = true ∧ eq32 c 0x00000000#32 = true then c
      else if s.act.fade = true ∧ eq32 c 0x3F800000#32 = true then 0x00000000#32
      else clamp01 (curve (poly c) s.exp) := by
  unfold remappedValue
  rw [remapCell_of_flt hflt, remapFlt]
  cases s.act.fade with
  | false => simp [curveFlt]
  | true =>
    simp only [true_and, if_true]
    unfold f32Zero f32One curveFlt
    split_ifs <;> rfl

end Float

/-- Settles O35: the rule of `PIXEL` on the accepted state, which has the flags, the active format, the exponent and the
operand of the state before. -/
theorem pixelFollowsTheFloatRule : Obligations.PixelFollowsTheFloatRule := by
  unfold Obligations.PixelFollowsTheFloatRule
  refine fun s herr hflt => ⟨fun hready => ?_, fun hready hexp hbad => ?_, fun hready hexp hfin => ?_⟩
  · exact exec_failed (i := .pixel) (c := .notReady) herr (pixelBody_of_not_ready (s := accept s) hready)
  · exact exec_failed (i := .pixel) (c := .sample) herr
      (pixelBody_of_not_sampleValid (s := accept s) hready hexp ((sampleValid_of_flt hflt s.arg).trans hbad))
  · dsimp only
    rw [← remappedValue_of_flt hflt]
    exact exec_completed herr
      (pixelBody_of_sampleValid (s := accept s) hready hexp ((sampleValid_of_flt hflt s.arg).trans hfin))

theorem peak_mem_of_filterConsistent {s : State} (h : FilterConsistent s) (hready : s.status.ready = true)
    (hint : s.act.flt = false) : s.desc.peak.toNat ∈ peaks := by
  obtain ⟨hdepth, hdesc, -, -⟩ := h.integer hready hint
  have hmem := integerDepth_iff.1 hdepth
  rw [hdesc, descriptorRow_peak s.params hmem]
  exact (by decide : ∀ b ∈ [8#6, 10#6, 12#6, 14#6, 16#6], 2 ^ BitVec.toNat b - 1 ∈ peaks) _ hmem

/-- A sample that the ladder does not catch takes the curve path (R170). -/
theorem remapInt_of_not_caught {s : State} {c : Nat}
    (h : s.act.fade = false ∨ (s.desc.ymin.toNat < c ∧ s.desc.y1.toNat < c ∧ s.desc.y2.toNat < c ∧
      c < s.desc.ymax.toNat)) : remapInt s c = curveInt s c := by
  unfold remapInt
  rcases h with hfade | ⟨h0, h1, h2, h3⟩
  · rw [hfade]
    rfl
  · simp only [h0.not_ge, h1.not_ge, h2.not_ge, h3.not_ge, if_false, ite_self]

/-- A sample that is neither of the two exact values takes the curve path (R172). -/
theorem remapFlt_of_not_caught {s : State} {x : Word}
    (h : s.act.fade = false ∨ (eq32 x f32Zero = false ∧ eq32 x f32One = false)) : remapFlt s x = curveFlt s x := by
  unfold remapFlt
  rcases h with hfade | ⟨h0, h1⟩
  · rw [hfade]
    rfl
  · simp [h0, h1]

/-- Settles O40: a zero exponent makes every curve value 1.0, which the quantiser takes to the peak and the clamp keeps. -/
theorem zeroExponentGivesPeak : Obligations.ZeroExponentGivesPeak := by
  unfold Obligations.ZeroExponentGivesPeak
  refine fun s hfilter hready hexp => ⟨fun hint c _ hcaught => ?_, fun hflt c _ hcaught => ?_⟩
  · have hpeak := peak_mem_of_filterConsistent hfilter hready hint
    rw [remapCell_of_int hint, remapInt_of_not_caught hcaught, curveInt, curve_of_zero_exponent _ hexp]
    exact congrArg Remapped.out ((congrArg (BitVec.ofNat 32) (quant_exact _ hpeak).1).trans (BitVec.ofNat_toNat _ _))
  · have hclamp : clamp01 f32One = f32One := by decide +kernel
    rw [remapCell_of_flt hflt, remapFlt_of_not_caught hcaught, curveFlt, curve_of_zero_exponent _ hexp, hclamp]
    rfl

end Sys2Proof.Machine
end

section
/-! PROOFS. The request registers act at `INIT` alone (R237): the rule of every other command but `SRESET` commutes with
the replacement of their contents. -/

namespace Sys2Proof.Machine

/-- The machine with other contents of the request registers. -/
def withReq (r : Request) (s : State) : State := { s with req := r }

@[simp] theorem withReq_geom (r : Request) (s : State) : (withReq r s).geom = s.geom := rfl

section Replacement
variable {r : Request}

theorem checkGeometry_withReq {b : Bool} {k : State → CmdResult} {s : State}
    (hk : k (withReq r s) = (k s).mapState (withReq r)) :
    checkGeometry b k (withReq r s) = (checkGeometry b k s).mapState (withReq r) := by
  unfold checkGeometry
  rw [withReq_geom]
  cases geomCheck b s.geom with
  | some c => rfl
  | none => exact hk

theorem averagePlane_withReq (s : State) : averagePlane (withReq r s) = (averagePlane s).mapState (withReq r) :=
  mapState_ite rfl (mapState_ite rfl rfl)

theorem deriveExponent_withReq (s : State) : deriveExponent (withReq r s) = (deriveExponent s).mapState (withReq r) :=
  mapState_ite rfl rfl

theorem remapPlane_withReq (s : State) : remapPlane (withReq r s) = (remapPlane s).mapState (withReq r) :=
  mapState_ite rfl rfl

theorem reaches_true (q : CmdResult) : reaches (fun _ => True) q := by cases q <;> trivial

theorem xformSteps_withReq (s : State) : xformSteps (withReq r s) = (xformSteps s).mapState (withReq r) := by
  have hsteps : ∀ t, andThen (deriveExponent (withReq r t)) remapPlane =
      (andThen (deriveExponent t) remapPlane).mapState (withReq r) := by
    intro t
    rw [deriveExponent_withReq]
    exact mapState_andThen (reaches_true _) fun u _ => remapPlane_withReq u
  unfold xformSteps
  rw [show copyPlane (withReq r s) = withReq r (copyPlane s) from rfl, averagePlane_withReq]
  exact mapState_andThen (reaches_true _) fun t _ => hsteps t

theorem onRaise_scrambleRegion_withReq (q : CmdResult) :
    onRaise scrambleRegion (q.mapState (withReq r)) = (onRaise scrambleRegion q).mapState (withReq r) := by
  cases q <;> rfl

theorem xformTail_withReq (s : State) : xformTail (withReq r s) = (xformTail s).mapState (withReq r) := by
  unfold xformTail
  rw [xformSteps_withReq, ← onRaise_scrambleRegion_withReq]
  exact congrArg (onRaise scrambleRegion) (mapState_andThen (reaches_true _) fun _ _ => rfl)

/-- The checks of the plane commands read the geometry and the planes only. -/
theorem planeChecks_withReq {b : State → Bool} {k : State → CmdResult} {s : State} (hb : b (withReq r s) = b s)
    (hk : k (withReq r s) = (k s).mapState (withReq r)) :
    planeChecks b k (withReq r s) = (planeChecks b k s).mapState (withReq r) := by
  refine checkGeometry_withReq (mapState_ite ?_ rfl)
  unfold needBacked
  rw [hb]
  exact mapState_ite hk rfl

/-- The rule of every command but `INIT` and `SRESET` commutes with the replacement of the request registers. -/
theorem bodyOf_withReq {i : Instr} (hinit : i ≠ .init) (hsreset : i ≠ .sreset) (s : State) :
    bodyOf i (withReq r s) = (bodyOf i s).mapState (withReq r) := by
  cases i with
  | init => exact absurd rfl hinit
  | sreset => exact absurd rfl hsreset
  | nop | clrerr => rfl
  | poly => exact mapState_ite rfl rfl
  | lut | pixel => exact mapState_ite rfl (mapState_ite rfl rfl)
  | expo => exact mapState_ite rfl (deriveExponent_withReq s)
  | avg =>
    exact mapState_ite rfl (checkGeometry_withReq (s := { s with status := flagsAvgStart s.status })
      (mapState_ite (averagePlane_withReq { s with status := flagsAvgStart s.status }) rfl))
  | copy =>
    exact mapState_ite rfl (planeChecks_withReq (s := { s with status := flagsPlaneStart s.status }) rfl rfl)
  | remap =>
    refine mapState_ite rfl (planeChecks_withReq (s := { s with status := flagsPlaneStart s.status }) rfl ?_)
    rw [remapPlane_withReq]
    exact onRaise_scrambleRegion_withReq _
  | xform =>
    exact mapState_ite rfl (planeChecks_withReq (s := { s with status := flagsXformStart s.status }) rfl
      (xformTail_withReq _))

theorem exec_withReq {i : Instr} {s t : State} (hinit : i ≠ .init) (hsreset : i ≠ .sreset)
    (he : exec i s = .next t) : exec i (withReq r s) = .next (withReq r t) := by
  have hb := bodyOf_withReq (r := r) hinit hsreset (accept s)
  rcases exec_next he with ⟨herr, hi, rfl⟩ | ⟨hrun, ⟨u, hu, rfl⟩ | ⟨c, u, hu, rfl⟩⟩
  · exact exec_rejected (s := withReq r s) hi herr
  · rw [hu] at hb
    exact exec_ok (s := withReq r s) hrun hb
  · rw [hu] at hb
    exact exec_raised (s := withReq r s) hrun hb

end Replacement

/-- Settles O49: the rule of a command that neither latches nor clears the request registers commutes with the
replacement of their contents. -/
theorem configurationTakesEffectAtInit : Obligations.ConfigurationTakesEffectAtInit := by
  unfold Obligations.ConfigurationTakesEffectAtInit
  exact fun _ _ _ _ hinit hsreset => exec_withReq hinit hsreset

end Sys2Proof.Machine
end

section
/-! PROOFS. The sequencing of a command word (R110): written at once, or issued and waited for (log entries 1, 10). -/

namespace Sys2Proof.Machine

theorem runWord_of_decode {w : Word} {i : Instr} (h : decode w = .ok i) (s : State) : runWord w s = exec i s := by
  unfold runWord
  rw [h]

theorem issueCmd_of_busy (w : Word) {s : State} (h : s.status.busy = true) : issueCmd w s = .next s := if_pos h

theorem issueCmd_of_idle {w : Word} {i : Instr} {s : State} (hidle : s.status.busy = false) (hd : decode w = .ok i) :
    issueCmd w s = .next { accept s with seq := startSequencer i w s } := by
  unfold issueCmd
  rw [if_neg (ne_true_of_eq_false hidle), hd]

section Running
variable {s : State} {w : Word} (hw : s.seq.word = some w)
include hw

theorem waitDone_of_running : waitDone s = runWord w s := by
  unfold waitDone
  rw [hw]

theorem tickSequencer_of_moved {q : Sequencer} (h : nextSequencer w s = some q) :
    tickSequencer s = .next { s with seq := q } := by
  unfold tickSequencer
  rw [hw]
  dsimp only
  rw [h]

theorem tickSequencer_of_last (h : nextSequencer w s = none) : tickSequencer s = runWord w s := by
  unfold tickSequencer
  rw [hw]
  dsimp only
  rw [h]

end Running

section Idle
variable {s : State} (hw : s.seq.word = none)
include hw

theorem waitDone_of_idle : waitDone s = .next s := by
  unfold waitDone
  rw [hw]

theorem tickSequencer_of_idle : tickSequencer s = .next s := by
  unfold tickSequencer
  rw [hw]

end Idle

/-- The host's next write of a command's word is met by the next step (log entry 1). -/
theorem step_withFetchWord (s : State) (i : Instr) :
    step (s.withFetchWord 32 (encode i).toNat) =
      exec i { s with status := { s.status with busy := false }, seq := Sequencer.idle } := by
  have hword : BitVec.ofNat 32 ((encode i).toNat % 2 ^ 32) = encode i := by
    rw [Nat.mod_eq_of_lt (encode i).isLt, BitVec.ofNat_toNat, BitVec.setWidth_eq]
  have hinbox : (s.withFetchWord 32 (encode i).toNat).inbox = .write .word 0x04 (encode i) :: s.inbox := by
    rw [State.withFetchWord, hword]
    rfl
  exact (step_write_cmd hinbox).trans ((writeCmd_of_idle _ rfl).trans (runWord_of_decode (decode_encode i) _))

/-- Settles O4: each event that carries or completes a command word hands it to `exec`, or leaves it running. -/
theorem stepRunsTheDecodedCommand : Obligations.StepRunsTheDecodedCommand := by
  unfold Obligations.StepRunsTheDecodedCommand
  refine ⟨fun s w rest hinbox => ⟨fun hbusy => ?_, fun hidle i _ hd => ?_⟩, step_withFetchWord,
    fun s w rest hinbox => ⟨fun hbusy => ?_, fun hidle i hd => ⟨(startSequencer i w { s with inbox := rest }).phase, ?_⟩⟩,
    fun s rest w i hw hd => ⟨fun hinbox => ?_, fun hinbox => ⟨fun hlast => ?_, fun q hq => ?_⟩⟩, fun s rest hw hinbox => ?_⟩
  · exact (step_write_cmd hinbox).trans (writeCmd_of_busy w hbusy)
  · rw [step_write_cmd hinbox, ← runWord_of_decode hd]
    exact writeCmd_of_idle w hidle
  · exact (step_of_inbox hinbox).trans (issueCmd_of_busy w hbusy)
  · exact (step_of_inbox hinbox).trans (issueCmd_of_idle hidle hd)
  · rw [step_of_inbox hinbox, ← runWord_of_decode hd]
    exact waitDone_of_running hw
  · rw [step_of_inbox hinbox, ← runWord_of_decode hd]
    exact tickSequencer_of_last hw hlast
  · rw [step_of_inbox hinbox]
    exact tickSequencer_of_moved (s := { s with inbox := rest }) hw hq
  · rcases hinbox with hinbox | hinbox <;> rw [step_of_inbox hinbox]
    · exact waitDone_of_idle hw
    · exact tickSequencer_of_idle hw

end Sys2Proof.Machine
end

section
/-! PROOFS. The register port (R22 to R43, R66, R233): which register an offset names, what a read gives and what a write
stores. -/

namespace Sys2Proof.Machine

open Sys2Proof.Safety

/-! The accesses of the port. -/

theorem step_port_read {s : State} {width : PortWidth} {off : Nat} {rest : List HostOp}
    (h : s.inbox = .read width off :: rest) : step s = portRead width off { s with inbox := rest } := step_of_inbox h

theorem step_port_write {s : State} {width : PortWidth} {off : Nat} {v : Word} {rest : List HostOp}
    (h : s.inbox = .write width off v :: rest) : step s = portWrite width off v { s with inbox := rest } :=
  step_of_inbox h

theorem portRead_offsetOf (r : Reg) (s : State) : portRead .word (offsetOf r) s = .next (readRegister r s) :=
  portAccess_offsetOf r _

/-- A write to a register that accepts it now. -/
theorem portWrite_offsetOf {r : Reg} {s : State} (hcmd : r ≠ .cmd)
    (hallowed : s.status.busy = false ∨ accessOf r ≠ .rw) (v : Word) :
    portWrite .word (offsetOf r) v s = .next (writeRegister r v s) := by
  have hfree : ¬ (s.status.busy = true ∧ accessOf r = .rw) := by
    rintro ⟨hbusy, hrw⟩
    rcases hallowed with hidle | hr
    · exact absurd (hbusy.symm.trans hidle) (by decide)
    · exact hr hrw
  unfold portWrite
  rw [portAccess_offsetOf]
  cases r with
  | cmd => exact absurd rfl hcmd
  | _ => exact if_neg hfree

theorem portAccess_of_not_wf {width : PortWidth} {off : Nat} (hoff : off < portBytes) (h : width ≠ .word ∨ off % 4 ≠ 0)
    (k : Option Reg → Host.Outcome State Fault Refusal) : portAccess width off k = .refused .portAccess := by
  have hwf : portAccessWf width off = false := by
    rcases h with h | h <;> simp [portAccessWf, h]
  unfold portAccess
  rw [if_neg hoff.not_ge, if_pos hwf]

theorem portAccess_of_aligned {off : Nat} (hoff : off < portBytes) (h : off % 4 = 0)
    (k : Option Reg → Host.Outcome State Fault Refusal) : portAccess .word off k = k (regAt off) := by
  have hwf : portAccessWf .word off = true := by simp [portAccessWf, h, hoff]
  unfold portAccess
  rw [if_neg hoff.not_ge, if_neg (by rw [hwf]; decide)]

/-- Past the last register the port has reserved offsets only (R22). -/
theorem regAt_of_reserved {off : Nat} (h : 0x74 ≤ off) : regAt off = none :=
  List.getElem?_eq_none ((Nat.le_div_iff_mul_le (by decide)).2 h)

section Reserved
variable {off : Nat} (hoff : off < portBytes) (halign : off % 4 = 0) (hlow : 0x74 ≤ off)
include hoff halign hlow

theorem portWrite_reserved (v : Word) (s : State) : portWrite .word off v s = .next s := by
  unfold portWrite
  rw [portAccess_of_aligned hoff halign, regAt_of_reserved hlow]

theorem portRead_reserved (s : State) : portRead .word off s = .next { s with rdata := 0#32 } := by
  unfold portRead
  rw [portAccess_of_aligned hoff halign, regAt_of_reserved hlow]

end Reserved

/-- A write to a RW register while a command runs (R233). -/
theorem portWrite_busy {off : Nat} {r : Reg} {s : State} (hoff : off < portBytes) (halign : off % 4 = 0)
    (hr : regAt off = some r) (hrw : accessOf r = .rw) (hbusy : s.status.busy = true) (v : Word) :
    portWrite .word off v s = .refused .busyRegisterWrite := by
  have hcmd : r ≠ .cmd := by rintro rfl; exact absurd hrw (by decide)
  unfold portWrite
  rw [portAccess_of_aligned hoff halign, hr]
  cases r with
  | cmd => exact absurd rfl hcmd
  | _ => exact if_pos ⟨hbusy, hrw⟩

theorem readRegister_idle {r : Reg} {s : State} {v : Word} (hidle : s.status.busy = false) (h : readIdle s r = some v) :
    readRegister r s = { s with rdata := v, draws := s.draws + 1 } := by
  unfold readRegister
  rw [hidle]
  simp [h]

theorem readRegister_busy {r : Reg} {s : State} {v : Word} (hbusy : s.status.busy = true) (h : readBusy s r = some v) :
    readRegister r s = { s with rdata := v, draws := s.draws + 1 } := by
  unfold readRegister
  rw [hbusy]
  simp [h]

theorem readRegister_id (s : State) : (readRegister .id s).rdata = idWord := by
  cases hbusy : s.status.busy with
  | true => rw [readRegister_busy hbusy rfl]
  | false => rw [readRegister_idle hbusy rfl]

/-- Settles O57: a read-only register has no arm that stores, and a reserved offset names no register. -/
theorem readOnlyRegistersIgnoreWrites : Obligations.ReadOnlyRegistersIgnoreWrites := by
  unfold Obligations.ReadOnlyRegistersIgnoreWrites
  refine ⟨fun s r v rest hro hinbox => ?_, fun s rest hinbox => ?_, fun s rest hinbox hidle => ?_,
    fun s off v rest hlow hhigh halign => ?_⟩
  · have hrw : accessOf r ≠ .rw := by rw [hro]; decide
    have hcmd : r ≠ .cmd := by rintro rfl; exact absurd hro (by decide)
    rw [step_port_write hinbox, portWrite_offsetOf hcmd (.inr hrw), writeRegister_of_not_rw hrw]
  · exact ⟨_, (step_port_read hinbox).trans (portRead_offsetOf .id _), readRegister_id _⟩
  · refine ⟨s.draws + 1, ((step_port_read hinbox).trans (portRead_offsetOf .cmd _)).trans ?_⟩
    exact congrArg _ (readRegister_idle hidle rfl)
  · have hoff : off < portBytes := lt_of_le_of_lt hhigh (by decide)
    exact ⟨fun hinbox => (step_port_write hinbox).trans (portWrite_reserved hoff halign hlow v _),
      fun hinbox => ⟨s.draws, (step_port_read hinbox).trans (portRead_reserved hoff halign hlow _)⟩⟩

/-- Settles O59: the two refusals of the port stand before the register is looked at, and the third before it is
written. -/
theorem undefinedPortAccessesAreRefused : Obligations.UndefinedPortAccessesAreRefused := by
  unfold Obligations.UndefinedPortAccessesAreRefused
  refine fun s width off v rest hoff => ⟨fun hbad => ⟨fun hinbox => ?_, fun hinbox => ?_⟩, ?_⟩
  · exact (step_port_write hinbox).trans (portAccess_of_not_wf hoff hbad _)
  · exact (step_port_read hinbox).trans (portAccess_of_not_wf hoff hbad _)
  · rintro rfl halign hbusy r hr hrw hinbox
    exact (step_port_write hinbox).trans (portWrite_busy (s := { s with inbox := rest }) hoff halign hr hrw hbusy v)

end Sys2Proof.Machine
end

section
/-! PROOFS. What an idle host reads (R22 to R43, R49), and that a write to a RW register reads back with its reserved bits
dropped. -/

namespace Sys2Proof.Machine

open Sys2Proof.Safety

/-! Write, then read. -/

theorem getLsbD_irqEnWord (e : IrqEn) (i : Nat) :
    (irqEnWord e).getLsbD i = (0#30 ++ BitVec.ofBool e.ieErr ++ BitVec.ofBool e.ieDone).getLsbD i := rfl

theorem getLsbD_formatWord (f : Format) (i : Nat) :
    (formatWord f).getLsbD i = (0#22 ++ f.family ++ 0#1 ++ BitVec.ofBool f.flt ++ f.bits).getLsbD i := rfl

theorem getLsbD_modeWord (fade : Bool) (i : Nat) :
    (modeWord fade).getLsbD i = (0#31 ++ BitVec.ofBool fade).getLsbD i := rfl

theorem irqEnWord_irqEnOfWord (v : Word) : irqEnWord (irqEnOfWord v) = v &&& 0x00000003#32 := by
  refine BitVec.eq_of_getLsbD_eq fun i hi => ?_
  simp only [getLsbD_irqEnWord, BitVec.getLsbD_append]
  interval_cases i <;> simp [irqEnOfWord]

theorem formatWord_formatOfWord (v : Word) : formatWord (formatOfWord v) = v &&& 0x0000037F#32 := by
  refine BitVec.eq_of_getLsbD_eq fun i hi => ?_
  simp only [getLsbD_formatWord, BitVec.getLsbD_append]
  interval_cases i <;> simp [formatOfWord]

theorem modeWord_getLsbD (v : Word) : modeWord (v.getLsbD 0) = v &&& 0x00000001#32 := by
  refine BitVec.eq_of_getLsbD_eq fun i hi => ?_
  simp only [getLsbD_modeWord, BitVec.getLsbD_append]
  interval_cases i <;> simp

theorem setWidth_setWidth_16 (v : Word) : (v.setWidth 16).setWidth 32 = v &&& 0x0000FFFF#32 := by
  ext i hi
  interval_cases i <;> simp

theorem and_full (v : Word) : v &&& 0xFFFFFFFF#32 = v := BitVec.and_allOnes

/-- A RW register gives back what was written to it, its reserved bits 0. -/
theorem readIdle_writeRegister_same {r : Reg} (h : accessOf r = .rw) (v : Word) (s : State) :
    readIdle (writeRegister r v s) r = some (v &&& writableBits r) := by
  cases r with
  | irqEn => exact congrArg some (irqEnWord_irqEnOfWord v)
  | format => exact congrArg some (formatWord_formatOfWord v)
  | mode => exact congrArg some (modeWord_getLsbD v)
  | width | height => exact congrArg some (setWidth_setWidth_16 v)
  | lumaScaling | srcBase | srcStride | dstBase | dstStride | arg => exact congrArg some (and_full v).symm
  | _ => cases h

/-- A write to a register leaves what every other one reads. -/
theorem readIdle_writeRegister_other {r q : Reg} (h : q ≠ r) (v : Word) (s : State) :
    readIdle (writeRegister r v s) q = readIdle s q := by
  cases r with
  | irqEn | format | mode | lumaScaling | width | height | srcBase | srcStride | dstBase | dstStride | arg =>
    -- every field but the one written reads alike; the register itself is ruled out by `h`
    cases q <;> try rfl
    exact absurd rfl h
  | _ => rfl

/-- A write changes the request, the geometry, the interrupt enables or the operand. -/
theorem writeRegister_eq (r : Reg) (v : Word) (s : State) :
    writeRegister r v s = { s with
      req := (writeRegister r v s).req, geom := (writeRegister r v s).geom, irqEn := (writeRegister r v s).irqEn
      arg := (writeRegister r v s).arg } := by
  cases r <;> rfl

theorem readIdle_inbox (s : State) (l : List HostOp) (r : Reg) : readIdle { s with inbox := l } r = readIdle s r := by
  cases r <;> rfl

/-- Settles O56: the write stores in its own field, and the read that follows finds the block idle. -/
theorem registerWritesReadBack : Obligations.RegisterWritesReadBack := by
  unfold Obligations.RegisterWritesReadBack
  intro s r v rest hidle hrw hinbox
  have hcmd : r ≠ .cmd := by rintro rfl; exact absurd hrw (by decide)
  let s' : State := { s with inbox := scriptRD r :: rest }
  let t := writeRegister r v s'
  have ht : t = { s' with req := t.req, geom := t.geom, irqEn := t.irqEn, arg := t.arg } := writeRegister_eq r v s'
  have hinbox' : t.inbox = scriptRD r :: rest := by rw [ht]
  have hidle' : ({ t with inbox := rest } : State).status.busy = false := by
    rw [ht]
    exact hidle
  have hread : readIdle { t with inbox := rest } r = some (v &&& writableBits r) :=
    (readIdle_inbox t rest r).trans (readIdle_writeRegister_same hrw v s')
  refine ⟨t, readRegister r { t with inbox := rest }, ?_, ?_, ?_, fun q hq => ?_, ht, ?_⟩
  · exact (step_port_write hinbox).trans (portWrite_offsetOf (s := s') hcmd (.inl hidle) v)
  · exact (step_port_read hinbox').trans (portRead_offsetOf r _)
  · rw [readRegister_idle hidle' hread]
  · exact (readIdle_writeRegister_other hq v s').trans (readIdle_inbox s _ q)
  · rw [readRegister_idle hidle' hread]

/-! The values, bit by bit. -/

theorem toNat_append_add {m n : Nat} (x : BitVec m) (y : BitVec n) : (x ++ y).toNat = x.toNat * 2 ^ n + y.toNat := by
  rw [BitVec.toNat_append, ← Nat.shiftLeft_add_eq_or_of_lt y.isLt, Nat.shiftLeft_eq]

theorem toNat_irqEnWord (e : IrqEn) : (irqEnWord e).toNat = e.ieDone.toNat + 2 * e.ieErr.toNat := by
  simp only [irqEnWord, toNat_append_add, BitVec.toNat_ofBool, BitVec.toNat_ofNat]
  omega

theorem toNat_formatWord (f : Format) :
    (formatWord f).toNat = f.bits.toNat + 2 ^ 6 * f.flt.toNat + 2 ^ 8 * f.family.toNat := by
  simp only [formatWord, toNat_append_add, BitVec.toNat_ofBool, BitVec.toNat_ofNat]
  omega

theorem toNat_modeWord (fade : Bool) : (modeWord fade).toNat = fade.toNat := by
  simp only [modeWord, toNat_append_add, BitVec.toNat_ofBool, BitVec.toNat_ofNat]
  omega

theorem toNat_actFormatWord (a : ActiveConfig) :
    (actFormatWord a).toNat = a.bits.toNat + 2 ^ 6 * a.flt.toNat + 2 ^ 16 * a.fade.toNat := by
  simp only [actFormatWord, toNat_append_add, BitVec.toNat_ofBool, BitVec.toNat_ofNat]
  omega

theorem toNat_setWidth_32 {n : Nat} (hn : n ≤ 32) (x : BitVec n) : (x.setWidth 32).toNat = x.toNat :=
  BitVec.toNat_setWidth_of_le hn

theorem toNat_sumLo (sum : Dword) : (sum.extractLsb' 0 32).toNat = sum.toNat % 2 ^ 32 := by
  rw [BitVec.extractLsb'_toNat, Nat.shiftRight_zero]

theorem toNat_sumHi (sum : Dword) : (sum.extractLsb' 32 32).toNat = sum.toNat / 2 ^ 32 := by
  rw [BitVec.extractLsb'_toNat, Nat.shiftRight_eq_div_pow, Nat.mod_eq_of_lt]
  have := sum.isLt
  omega

theorem getLsbD_statusWord (t : Status) :
    (statusWord t).getLsbD 0 = t.busy ∧ (statusWord t).getLsbD 1 = t.done ∧ (statusWord t).getLsbD 2 = t.ready ∧
      (statusWord t).getLsbD 3 = t.tblValid ∧ (statusWord t).getLsbD 4 = t.avgValid ∧
      (statusWord t).getLsbD 5 = t.expValid ∧ (statusWord t).getLsbD 6 = t.frameValid ∧
      (statusWord t).getLsbD 7 = t.error := by
  obtain ⟨busy, done, ready, tblValid, avgValid, expValid, frameValid, error⟩ := t
  revert busy done ready tblValid avgValid expValid frameValid error
  decide

theorem toNat_statusWord_lt (t : Status) : (statusWord t).toNat < 256 := by
  have hb : ∀ b : Bool, b.toNat ≤ 1 := Bool.toNat_le
  have := hb t.error; have := hb t.frameValid; have := hb t.expValid; have := hb t.avgValid
  have := hb t.tblValid; have := hb t.ready; have := hb t.done; have := hb t.busy
  simp only [statusWord, toNat_append_add, BitVec.toNat_ofBool, BitVec.toNat_ofNat]
  omega

/-- `STATUS` while a command runs, whatever its other flags read (log entry 11). -/
theorem busyStatusWord_bits (draw : Word) :
    (busyStatusWord draw).getLsbD 0 = true ∧ (busyStatusWord draw).getLsbD 1 = false ∧
      (busyStatusWord draw).toNat < 256 := by
  refine ⟨by simp [busyStatusWord], by simp [busyStatusWord], ?_⟩
  have hmasked : (draw &&& 0x000000FC#32).toNat < 2 ^ 8 := lt_of_le_of_lt Nat.and_le_right (by decide)
  rw [busyStatusWord, BitVec.toNat_or]
  exact Nat.or_lt_two_pow hmasked (by decide)

theorem regAt_offsetOf (r : Reg) : regAt (offsetOf r) = some r := by cases r <;> rfl

theorem readIdle_reset {r : Reg} (havg : r ≠ .avg) (hexp : r ≠ .exponent) (hlo : r ≠ .sumLo) (hhi : r ≠ .sumHi) :
    readIdle State.reset r = some (resetValue r) := by
  cases r with
  | avg => exact absurd rfl havg
  | exponent => exact absurd rfl hexp
  | sumLo => exact absurd rfl hlo
  | sumHi => exact absurd rfl hhi
  | _ => rfl

/-! The map, field by field. -/

/-- `STATUS` is the only register but `ID` with fixed bits while a command runs (R233). -/
theorem step_read_status_busy {s : State} {rest : List HostOp} (hbusy : s.status.busy = true)
    (h : s.inbox = .read .word 0x08 :: rest) :
    step s = .next { s with
      inbox := rest, rdata := busyStatusWord (Config.freeWord s.draws), draws := s.draws + 1 } :=
  ((step_port_read h).trans (portRead_offsetOf .status _)).trans
    (congrArg _ (readRegister_busy (s := { s with inbox := rest }) hbusy rfl))

theorem step_read_idle {s : State} {r : Reg} {v : Word} {rest : List HostOp} (hidle : s.status.busy = false)
    (h : s.inbox = scriptRD r :: rest) (hv : readIdle s r = some v) :
    step s = .next { s with inbox := rest, rdata := v, draws := s.draws + 1 } :=
  ((step_port_read h).trans (portRead_offsetOf r _)).trans
    (congrArg _ (readRegister_idle (s := { s with inbox := rest }) hidle ((readIdle_inbox s rest r).trans hv)))

/-- In every state a read gives some value and changes nothing of the block. -/
theorem step_read {s : State} {r : Reg} {rest : List HostOp} (h : s.inbox = scriptRD r :: rest) :
    ∃ v, step s = .next { s with inbox := rest, rdata := v, draws := s.draws + 1 } := by
  obtain ⟨v, hv⟩ := readRegister_eq r { s with inbox := rest }
  exact ⟨v, ((step_port_read h).trans (portRead_offsetOf r _)).trans (congrArg _ hv)⟩

/-- With no filter the active configuration and the descriptor read 0 (R41, R43). -/
theorem readIdle_of_not_ready {s : State} (h : s.status.ready = false) :
    ∀ r ∈ [Reg.actFormat, .actLs, .fdPeak, .fdYmin, .fdY1, .fdY2, .fdYmax, .fdD0, .fdD1],
      readIdle s r = some 0x00000000#32 := by
  simp [readIdle, h]

/-- With a filter each descriptor constant reads as the number it is (R43). -/
theorem readIdle_of_ready {s : State} (h : s.status.ready = true) {r : Reg} {n : Nat} (hn : n ≤ 32) {x : BitVec n}
    (hr : readIdle s r = some (if s.status.ready then x.setWidth 32 else 0#32)) :
    ∃ v, readIdle s r = some v ∧ v.toNat = x.toNat :=
  ⟨x.setWidth 32, by rw [hr, h]; rfl, toNat_setWidth_32 hn x⟩

/-- Settles O58: the map and the reset column by evaluation, each read by the rule of its register, and the bits of the
composed registers by arithmetic. -/
theorem resetValuesRead : Obligations.ResetValuesRead := by
  unfold Obligations.ResetValuesRead
  refine ⟨fun r => readIdle_reset, regAt_offsetOf, by decide, fun s rest hbusy hinbox => ?_, fun s r rest hidle hinbox => ?_,
    fun s => ?_, fun t => ?_⟩
  · obtain ⟨h0, h1, hlt⟩ := busyStatusWord_bits (Config.freeWord s.draws)
    exact ⟨_, _, step_read_status_busy hbusy hinbox, h0, h1, hlt⟩
  · obtain ⟨v, hv⟩ := step_read hinbox
    exact ⟨fun v hv => ⟨_, step_read_idle hidle hinbox hv⟩, v, _, hv⟩
  · refine ⟨rfl, ⟨_, rfl, toNat_setWidth_32 (by decide) _⟩, rfl, ⟨_, rfl, toNat_irqEnWord _⟩, ⟨_, rfl, toNat_formatWord _⟩,
      ⟨_, rfl, toNat_modeWord _⟩, rfl, ⟨_, rfl, toNat_setWidth_32 (by decide) _⟩, ⟨_, rfl, toNat_setWidth_32 (by decide) _⟩,
      rfl, rfl, rfl, rfl, rfl, fun havg => ⟨if_pos havg, ⟨_, if_pos havg, toNat_sumLo _⟩, ⟨_, if_pos havg, toNat_sumHi _⟩⟩,
      fun hexp => if_pos hexp, fun hready => ?_, readIdle_of_not_ready⟩
    have hconst : ∀ {r : Reg} {x : BitVec 16},
        readIdle s r = some (if s.status.ready then x.setWidth 32 else 0#32) →
        ∃ v, readIdle s r = some v ∧ v.toNat = x.toNat := readIdle_of_ready hready (by decide)
    exact ⟨⟨_, congrArg some (if_pos hready), toNat_actFormatWord _⟩, congrArg some (if_pos hready),
      hconst rfl, hconst rfl, hconst rfl, hconst rfl, hconst rfl, hconst rfl, hconst rfl⟩
  · obtain ⟨h0, h1, h2, h3, h4, h5, h6, h7⟩ := getLsbD_statusWord t
    exact ⟨h0, h1, h2, h3, h4, h5, h6, h7, toNat_statusWord_lt t⟩

end Sys2Proof.Machine
end
